-- ==== Sys2Proof/Word.lean ====
section
/-!
DEFINITION. The word types of Mira2204 (00_scope.md R5, R7): a 32-bit word (registers, addresses,
instruction words), a 16-bit half (`sr`, the `cc` registers, a compact instruction), a byte.
-/

namespace Sys2Proof

/-- A 32-bit value: a general register, an address, a standard instruction word. -/
abbrev Word := BitVec 32

/-- A 16-bit value: `sr`, a condition register, a compact instruction. -/
abbrev Half := BitVec 16

/-- One byte of memory, or an interrupt table index. -/
abbrev Byte := BitVec 8

end Sys2Proof
end

