-- ==== Sys2Proof/Config.lean ====
section
/-!
DEFINITION. What an implementation or a platform fixes: the parameters of 00_scope.md R6, as plain
data, with the defaults R6 gives. A machine state carries one `Config` that no step changes, so a
statement about every state holds for every reading of the parameters (log entry 2).
-/

namespace Sys2Proof

/-- `BYTE_ORDER` (R6, 20_memory.md R42): which byte of a wide access lies at the lowest address. -/
inductive ByteOrder where
  | little
  | big
  deriving DecidableEq, Repr

/-- The three access widths (20_memory.md R48): 1, 2 or 4 bytes. -/
inductive Width where
  | byte
  | half
  | word
  deriving DecidableEq, Repr

/-- The kind of a memory access that `AccessOK` may tell apart (R6). -/
inductive AccessKind where
  | fetch
  | read
  | write
  deriving DecidableEq, Repr

/-- One entry of the list of failing accesses: every access of this width and kind at an address
from `first` to `last` fails. Lists of such entries express every predicate `AccessOK` of R6, the
domain being finite (log entry 3). -/
structure NoAccess where
  first : Word
  last  : Word
  width : Width
  kind  : AccessKind
  deriving DecidableEq, Repr

/-- The parameters of 00_scope.md R6, field by field; `InitialMemory` and `Env` are state. -/
structure Config where
  /-- `BYTE_ORDER`. -/
  byteOrder : ByteOrder
  /-- `SIGNED_COND_USES_V`: codes 0101, 1101, 0110, 1110 test `N xor V` instead of `N`. -/
  signedCondUsesV : Bool
  /-- `DISP8_SIGNED`: the load/store displacement is sign-extended. -/
  disp8Signed : Bool
  /-- `IMM12_SIGNED`: the immediate of `add x,$n` and `sub x,$n` is sign-extended. -/
  imm12Signed : Bool
  /-- `REL16_SIGNED`: the immediate of `br`, `callr`, `fcallr` is sign-extended. -/
  rel16Signed : Bool
  /-- `ABS16_SIGNED`: the immediate of `ba`, `call`, `fcall` is sign-extended. -/
  abs16Signed : Bool
  /-- `NMI_INDEX`: the table index of the non-maskable interrupt. -/
  nmiIndex : Byte
  /-- `SHIFT_BY_REGISTER`: `sar`, `shl`, `shr` take their amount from register `Z`. -/
  shiftByRegister : Bool
  /-- `ENTRY_PUSHES_OLD_P`: the pushed `sr` shows `P` as it was before the entry's switch. -/
  entryPushesOldP : Bool
  /-- `AccessOK`, as the list of the accesses for which it is false. -/
  noAccess : List NoAccess
  deriving DecidableEq, Repr

/-- The defaults of 00_scope.md R6; every access succeeds (log entry 3). -/
def Config.standard : Config where
  byteOrder := .little
  signedCondUsesV := false
  disp8Signed := false
  imm12Signed := false
  rel16Signed := true
  abs16Signed := false
  nmiIndex := 0
  shiftByRegister := true
  entryPushesOldP := false
  noAccess := []

/-- The environment's inputs at one step (00_scope.md R6 `Env`, 10_state.md R31). -/
structure Env where
  /-- The NMI connection: process one NMI at this step (60_exceptions.md R248). -/
  nmi : Bool
  /-- The hardware interrupt request with its platform-made index (60_exceptions.md R247). -/
  irq : Option Byte
  /-- The level of the reset line, active low (70_reset_and_hazards.md R292). -/
  resetN : Bool
  deriving DecidableEq, Repr

/-- No event: no NMI, no request, the reset line high. -/
def Env.quiet : Env := ⟨false, none, true⟩

end Sys2Proof
end

