-- ==== Sys2Proof/Syntax.lean ====
section
/-!
DEFINITION. The instructions of Mira2204: one constructor per instruction of spec/opcode_table.json
(its standard and its compact row encode the same instruction, 46_compact.md R233, log entry 11)
and two for the rows "(reserved)", whose words take the Invalid Opcode Trap (30_encoding.md R71,
R72, R79; 46_compact.md R235).
-/

namespace Sys2Proof

/-- A register number 0..15 (10_state.md R12): `r0`..`r9`, the pairs `cc1∥cc0` and `cc3∥cc2`,
`dsp`, `isp`, `sr`, `pc`. -/
inductive Reg where
  | r0 | r1 | r2 | r3 | r4 | r5 | r6 | r7 | r8 | r9
  | cc10
  | cc32
  | dsp
  | isp
  | sr
  | pc
  deriving DecidableEq, Repr

/-- The condition codes 0000..1111 in order, under the names of 40_conditional_execution.md R91;
`res7` and `res15` are the reserved codes of R92. -/
inductive CondCode where
  | al | ov | uge | ugt | eq | lt | gt | res7
  | nv | nov | ult | ule | ne | ge | le | res15
  deriving DecidableEq, Repr

/-- The condition register that `rr` selects (40_conditional_execution.md R91). -/
inductive CcReg where
  | cc0 | cc1 | cc2 | cc3
  deriving DecidableEq, Repr

/-- The condition of a standard instruction: `cccc` and `rr` (30_encoding.md R61, R63). -/
structure Cond where
  code : CondCode
  reg  : CcReg
  deriving DecidableEq, Repr

/-- Unconditional execution, `cccc` = 0000 and `rr` = 00 (R93); the condition that every compact
instruction is expanded with (46_compact.md R233). -/
def Cond.always : Cond := ⟨.al, .cc0⟩

/-- The instructions, in the order of spec/opcode_table.json. Immediates are held as the bits of
their field (30_encoding.md R68 says how each becomes a value). -/
inductive Instr where
  /-- `add x,y,z`: x = y + z (R101). -/
  | addXYZ (c : Cond) (x y z : Reg)
  /-- `sub x,y,z`: x = y - z (R102). -/
  | subXYZ (c : Cond) (x y z : Reg)
  /-- `umul x,y,z`: r10:x = y * z (64 bit) (R103). -/
  | umulXYZ (c : Cond) (x y z : Reg)
  /-- `smul x,y,z`: r10:x = y * z (64 bit, signed) (R104). -/
  | smulXYZ (c : Cond) (x y z : Reg)
  /-- `udiv x,y,z`: x = y / z; r10 = y % z (R105). -/
  | udivXYZ (c : Cond) (x y z : Reg)
  /-- `sdiv x,y,z`: x = y / z; r10 = y % z (signed) (R106). -/
  | sdivXYZ (c : Cond) (x y z : Reg)
  /-- `rotl x,y,z`: x = (y << z) | (y >> (32-z)) (R107). -/
  | rotlXYZ (c : Cond) (x y z : Reg)
  /-- `rotr x,y,z`: x = (y >> z) | (y << (32-z)) (R108). -/
  | rotrXYZ (c : Cond) (x y z : Reg)
  /-- `and x,y,z`: x = y & z (R109). -/
  | andXYZ (c : Cond) (x y z : Reg)
  /-- `or x,y,z`: x = y | z (R110). -/
  | orXYZ (c : Cond) (x y z : Reg)
  /-- `xor x,y,z`: x = y ^ z (R111). -/
  | xorXYZ (c : Cond) (x y z : Reg)
  /-- `sar x,y,z`: x = y >>> n (amount from register z, 90_conflicts.md C3) (R112). -/
  | sarXYZ (c : Cond) (x y z : Reg)
  /-- `rotl x,y,$n`: x = (y << n) | (y >> (32-n)) (R113). -/
  | rotlXYN (c : Cond) (x y : Reg) (n : Byte)
  /-- `rotr x,y,$n`: x = (y >> n) | (y << (32-n)) (R114). -/
  | rotrXYN (c : Cond) (x y : Reg) (n : Byte)
  /-- `shl x,y,z`: x = y << n (amount from register z, 90_conflicts.md C3); alias sal (R115). -/
  | shlXYZ (c : Cond) (x y z : Reg)
  /-- `shr x,y,z`: x = y >> n (amount from register z, 90_conflicts.md C3) (R116). -/
  | shrXYZ (c : Cond) (x y z : Reg)
  /-- `stb x,y,$n`: *(x+n) = LOWER_8(y) (R133). -/
  | stbXYN (c : Cond) (x y : Reg) (n : Byte)
  /-- `stbu x,y,$n`: *(x+n) = LOWER_8(y); x += 1 (R134). -/
  | stbuXYN (c : Cond) (x y : Reg) (n : Byte)
  /-- `stbi x,y,z`: *(x+z) = LOWER_8(y) (R135). -/
  | stbiXYZ (c : Cond) (x y z : Reg)
  /-- `stbui x,y,z`: *(x+z) = LOWER_8(y); x += 1 (R136). -/
  | stbuiXYZ (c : Cond) (x y z : Reg)
  /-- `sth x,y,$n`: *(x+n) = LOWER_16(y) (R137). -/
  | sthXYN (c : Cond) (x y : Reg) (n : Byte)
  /-- `sthu x,y,$n`: *(x+n) = LOWER_16(y); x += 2 (R138). -/
  | sthuXYN (c : Cond) (x y : Reg) (n : Byte)
  /-- `sthi x,y,z`: *(x+z) = LOWER_16(y) (R139). -/
  | sthiXYZ (c : Cond) (x y z : Reg)
  /-- `sthui x,y,z`: *(x+z) = LOWER_16(y); x += 2 (R140). -/
  | sthuiXYZ (c : Cond) (x y z : Reg)
  /-- `stw x,y,$n`: *(x+n) = y (R141). -/
  | stwXYN (c : Cond) (x y : Reg) (n : Byte)
  /-- `stwu x,y,$n`: *(x+n) = y; x += 4 (R142). -/
  | stwuXYN (c : Cond) (x y : Reg) (n : Byte)
  /-- `stwi x,y,z`: *(x+z) = y (R143). -/
  | stwiXYZ (c : Cond) (x y z : Reg)
  /-- `stwui x,y,z`: *(x+z) = y; x += 4 (R144). -/
  | stwuiXYZ (c : Cond) (x y z : Reg)
  /-- `lw x,y,$n`: x = *(y+n) (R145). -/
  | lwXYN (c : Cond) (x y : Reg) (n : Byte)
  /-- `lwu x,y,$n`: x = *(y+n); y += 4 (R146). -/
  | lwuXYN (c : Cond) (x y : Reg) (n : Byte)
  /-- `lwi x,y,z`: x = *(y+z) (R147). -/
  | lwiXYZ (c : Cond) (x y z : Reg)
  /-- `lwui x,y,z`: x = *(y+z); y += 4 (R148). -/
  | lwuiXYZ (c : Cond) (x y z : Reg)
  /-- `lzb x,y,$n`: x = ZERO_EXTEND_8_TO_32(*(y+n)) (R149). -/
  | lzbXYN (c : Cond) (x y : Reg) (n : Byte)
  /-- `lzbu x,y,$n`: x = ZERO_EXTEND_8_TO_32(*(y+n)); y += 1 (R150). -/
  | lzbuXYN (c : Cond) (x y : Reg) (n : Byte)
  /-- `lzbi x,y,z`: x = ZERO_EXTEND_8_TO_32(*(y+z)) (R151). -/
  | lzbiXYZ (c : Cond) (x y z : Reg)
  /-- `lzbui x,y,z`: x = ZERO_EXTEND_8_TO_32(*(y+z)); y += 1 (R152). -/
  | lzbuiXYZ (c : Cond) (x y z : Reg)
  /-- `lsb x,y,$n`: x = SIGN_EXTEND_8_TO_32(*(y+n)) (R153). -/
  | lsbXYN (c : Cond) (x y : Reg) (n : Byte)
  /-- `lsbu x,y,$n`: x = SIGN_EXTEND_8_TO_32(*(y+n)); y += 1 (R154). -/
  | lsbuXYN (c : Cond) (x y : Reg) (n : Byte)
  /-- `lsbi x,y,z`: x = SIGN_EXTEND_8_TO_32(*(y+z)) (R155). -/
  | lsbiXYZ (c : Cond) (x y z : Reg)
  /-- `lsbui x,y,z`: x = SIGN_EXTEND_8_TO_32(*(y+z)); y += 1 (R156). -/
  | lsbuiXYZ (c : Cond) (x y z : Reg)
  /-- `lzh x,y,$n`: x = ZERO_EXTEND_16_TO_32(*(y+n)) (R157). -/
  | lzhXYN (c : Cond) (x y : Reg) (n : Byte)
  /-- `lzhu x,y,$n`: x = ZERO_EXTEND_16_TO_32(*(y+n)); y += 2 (R158). -/
  | lzhuXYN (c : Cond) (x y : Reg) (n : Byte)
  /-- `lzhi x,y,z`: x = ZERO_EXTEND_16_TO_32(*(y+z)) (R159). -/
  | lzhiXYZ (c : Cond) (x y z : Reg)
  /-- `lzhui x,y,z`: x = ZERO_EXTEND_16_TO_32(*(y+z)); y += 2 (R160). -/
  | lzhuiXYZ (c : Cond) (x y z : Reg)
  /-- `lsh x,y,$n`: x = SIGN_EXTEND_16_TO_32(*(y+n)) (R161). -/
  | lshXYN (c : Cond) (x y : Reg) (n : Byte)
  /-- `lshu x,y,$n`: x = SIGN_EXTEND_16_TO_32(*(y+n)); y += 2 (R162). -/
  | lshuXYN (c : Cond) (x y : Reg) (n : Byte)
  /-- `lshi x,y,z`: x = SIGN_EXTEND_16_TO_32(*(y+z)) (R163). -/
  | lshiXYZ (c : Cond) (x y z : Reg)
  /-- `lshui x,y,z`: x = SIGN_EXTEND_16_TO_32(*(y+z)); y += 2 (R164). -/
  | lshuiXYZ (c : Cond) (x y z : Reg)
  /-- `mov x,y`: x = y (R171). -/
  | movXY (c : Cond) (x y : Reg)
  /-- `swp x,y`: x = y; y = x (in parallel) (R172). -/
  | swpXY (c : Cond) (x y : Reg)
  /-- `not x,y`: x = !y (bitwise complement, decision D9) (R173). -/
  | notXY (c : Cond) (x y : Reg)
  /-- `cmp x,y`: (x - y) (updates sr) (R174). -/
  | cmpXY (c : Cond) (x y : Reg)
  /-- `sxb x,y`: x = SIGN_EXTEND_8_TO_32(y) (R175). -/
  | sxbXY (c : Cond) (x y : Reg)
  /-- `sxw x,y`: x = SIGN_EXTEND_16_TO_32(y) (R176). -/
  | sxwXY (c : Cond) (x y : Reg)
  /-- `zxb x,y`: x = ZERO_EXTEND_8_TO_32(y) (R177). -/
  | zxbXY (c : Cond) (x y : Reg)
  /-- `zxw x,y`: x = ZERO_EXTEND_16_TO_32(y) (R178). -/
  | zxwXY (c : Cond) (x y : Reg)
  /-- `cpr0 x,y`: cc0 = FLAGS_OF( x - y ) (R179). -/
  | cpr0XY (c : Cond) (x y : Reg)
  /-- `cpr1 x,y`: cc1 = FLAGS_OF( x - y ) (R180). -/
  | cpr1XY (c : Cond) (x y : Reg)
  /-- `cpr2 x,y`: cc2 = FLAGS_OF( x - y ) (R181). -/
  | cpr2XY (c : Cond) (x y : Reg)
  /-- `cpr3 x,y`: cc3 = FLAGS_OF( x - y ) (R182). -/
  | cpr3XY (c : Cond) (x y : Reg)
  /-- `mvhh x,y`: HIGH16(x) = HIGH16(y) (R183). -/
  | mvhhXY (c : Cond) (x y : Reg)
  /-- `mvhl x,y`: LOW16(x) = HIGH16(y) (R184). -/
  | mvhlXY (c : Cond) (x y : Reg)
  /-- `mvlh x,y`: HIGH16(x) = LOW16(y) (R185). -/
  | mvlhXY (c : Cond) (x y : Reg)
  /-- `mvll x,y`: LOW16(x) = LOW16(y) (R186). -/
  | mvllXY (c : Cond) (x y : Reg)
  /-- `add x,$n`: x = x + n (R187). -/
  | addXN (c : Cond) (x : Reg) (n : BitVec 12)
  /-- `sub x,$n`: x = x - n (R188). -/
  | subXN (c : Cond) (x : Reg) (n : BitVec 12)
  /-- `push x,y`: x -= 4; *(x) = y (R189). -/
  | pushXY (c : Cond) (x y : Reg)
  /-- `pop x,y`: x = *(y); y += 4 (R190). -/
  | popXY (c : Cond) (x y : Reg)
  /-- `mov ssp,y`: ssp = y (system mode only) (R191). -/
  | movSspY (c : Cond) (y : Reg)
  /-- `mov spc,y`: spc = y (system mode only) (R192). -/
  | movSpcY (c : Cond) (y : Reg)
  /-- `mov x,ssp`: x = ssp (system mode only) (R193). -/
  | movXSsp (c : Cond) (x : Reg)
  /-- `mov x,spc`: x = spc (system mode only) (R194). -/
  | movXSpc (c : Cond) (x : Reg)
  /-- `ba $n`: pc = n << 2 (R201). -/
  | baN (c : Cond) (n : Half)
  /-- `br $n`: pc += n << 2 (R202). -/
  | brN (c : Cond) (n : Half)
  /-- `call $n`: isp -= 4; *(isp) = pc; isp -= 4; *(isp) = dsp; pc = n << 2 (R203). -/
  | callN (c : Cond) (n : Half)
  /-- `callr $n`: isp -= 4; *(isp) = pc; isp -= 4; *(isp) = dsp; pc += n << 2 (R204). -/
  | callrN (c : Cond) (n : Half)
  /-- `fcall $n`: r8 = dsp; r9 = pc; pc = n << 2 (R205). -/
  | fcallN (c : Cond) (n : Half)
  /-- `fcallr $n`: r8 = dsp; r9 = pc; pc += n << 2 (R206). -/
  | fcallrN (c : Cond) (n : Half)
  /-- `int $n`: (software interrupt n) (R207). -/
  | intN (c : Cond) (n : Half)
  /-- `lil $n`: cc0 = n (R208). -/
  | lilN (c : Cond) (n : Half)
  /-- `lih $n`: cc1 = n (R209). -/
  | lihN (c : Cond) (n : Half)
  /-- `ret`: dsp = *(isp); isp += 4; pc = *(isp); isp += 4 (R221). -/
  | ret (c : Cond)
  /-- `fret`: dsp = r8; pc = r9 (R222). -/
  | fret (c : Cond)
  /-- `sleep`: sr = sr | 0x1000 (halt until interrupt); system mode only (R223). -/
  | sleep (c : Cond)
  /-- `rfi`: (return from interrupt); system mode only (R224). -/
  | rfi (c : Cond)
  /-- `brk`: pc = pc; Break Trap in protected mode (R225). -/
  | brk (c : Cond)
  /-- A standard word that is no defined instruction: a reserved opcode, a reserved operand, or a
  nonzero bit where the listing draws zeros (R71, R72); the four fields are the whole word. -/
  | reserved (c : Cond) (op : BitVec 7) (vv : BitVec 2) (low : Half)
  /-- A half of a pair word that is no compact instruction: opcode byte 0x80..0x8F, or bit 15 clear
  (46_compact.md R231, R235). -/
  | reservedCompact (h : Half)
  deriving DecidableEq, Repr

end Sys2Proof
end

