-- ==== Sys2Proof/Machine/Flags.lean ====
section
/-!
DEFINITION. The flag word of a subtraction (10_state.md R30) and the truth of a condition code on a
condition register (40_conditional_execution.md R91).
-/

namespace Sys2Proof.Machine

/-- The bits that `sr` implements, `SR_MASK` of 10_state.md R25. -/
def srMask : Half := 0x1FC3

/-- Bits 8..12 of `sr`: `I`, `P`, `S`, `T`, `F` (10_state.md R24, R27). -/
def srControlMask : Half := 0x1F00

/-- The four flags `Z`, `C`, `V`, `N` (10_state.md R24, R27). -/
def srFlagMask : Half := 0x00C3

/-- The mask of `I`. -/
def srI : Half := 0x0100

/-- The mask of `P`. -/
def srP : Half := 0x0200

/-- The mask of `T`. -/
def srT : Half := 0x0800

/-- The mask of `F`. -/
def srF : Half := 0x1000

/-- A 16-bit flag word with only the four flags possibly set (R24). -/
def flagWord (z c v n : Bool) : Half :=
  (if z then 0x0001 else 0) ||| (if c then 0x0002 else 0) ||| (if v then 0x0040 else 0) |||
    (if n then 0x0080 else 0)

/-- `FLAGS_OF(a - b)` of 10_state.md R30: `C` is "no borrow", `V` says that the exact signed difference
does not fit in 32 bits. -/
def flagsOf (a b : Word) : Half :=
  let r := a - b
  flagWord (r == 0) (decide (b.toNat ≤ a.toNat)) (a.msb != b.msb && r.msb != a.msb) r.msb

/-- `Cond(cccc, ccr)` of 40_conditional_execution.md R91; `usesV` is `SIGNED_COND_USES_V`. The reserved
codes, which trap before any test (R92), count as false. -/
def condHolds (usesV : Bool) (code : CondCode) (ccr : Half) : Bool :=
  let z := ccr.getLsbD 0
  let c := ccr.getLsbD 1
  let v := ccr.getLsbD 6
  let n := ccr.getLsbD 7
  let less := if usesV then n != v else n
  match code with
  | .al => true
  | .ov => v
  | .uge => c
  | .ugt => c && !z
  | .eq => z
  | .lt => less
  | .gt => !less && !z
  | .res7 => false
  | .nv => false
  | .nov => !v
  | .ult => !c
  | .ule => !c || z
  | .ne => !z
  | .ge => !less
  | .le => less || z
  | .res15 => false

/-- The reserved condition codes 0111 and 1111 (40_conditional_execution.md R92). -/
def condReserved : CondCode → Bool
  | .res7 => true
  | .res15 => true
  | _ => false

end Sys2Proof.Machine
end

