-- ==== Sys2Proof/WellFormed.lean ====
section
/-!
DEFINITION. Which terms of `Instr` an encoding stands for (30_encoding.md R63, R71 to R73, R79;
46_compact.md R235). Registers and immediates fill their fields exactly, so the checks are: the
condition, and that a reserved word is reserved.
-/

namespace Sys2Proof

/-- With `cccc` = 0000 the bits `rr` must be zero (30_encoding.md R63, R72). The reserved codes 0111
and 1111 are well formed: such a word decodes and traps when executed (R73). -/
def Cond.wf (c : Cond) : Bool :=
  c.code != .al || c.reg == .cc0

/-- How the listing lays out bits 15:0 of the words of one opcode byte (30_encoding.md R64 to R67,
R70). -/
inductive Layout where
  /-- No defined instruction: the opcode byte is reserved (R71). -/
  | none
  /-- All bits are operands. -/
  | operands
  /-- Bits 15:12 must be zero. -/
  | regZ
  /-- Bits 15:8 must be zero. -/
  | regY
  /-- Bits 15:8 must be zero and bits 3:0 must be 13 or 15 (opcode 0x34). -/
  | contextX
  /-- Bits 15:8 must be zero and bits 7:4 must be 13 or 15 (opcode 0x35). -/
  | contextY
  /-- Bits 15:0 must be zero. -/
  | zero
  deriving DecidableEq, Repr

/-- The opcode map of 30_encoding.md R70: the layout of each opcode byte 0x00..0x7F. -/
def layoutOf (op : BitVec 7) : Layout :=
  let n := op.toNat
  if n < 0x08 then .none
  else if n < 0x0C || n == 0x0F then .zero
  else if n < 0x10 then .none
  else if n < 0x20 then
    if n == 0x12 || n == 0x13 || n == 0x19 || 0x1C ≤ n then .none else .operands
  else if n < 0x30 then .regY
  else if n < 0x32 then .operands
  else if n < 0x34 then .regY
  else if n == 0x34 then .contextX
  else if n == 0x35 then .contextY
  else if n < 0x40 then .none
  else if n < 0x50 then
    if n == 0x4C || n == 0x4D then .operands else .regZ
  else if n < 0x60 then .none
  else if n / 2 % 2 == 0 then .operands
  else .regZ

/-- The bits 15:0 that a layout admits (30_encoding.md R71, R72). -/
def Layout.admits (low : Half) : Layout → Bool
  | .none => false
  | .operands => true
  | .regZ => low.extractLsb' 12 4 == 0
  | .regY => low.extractLsb' 8 8 == 0
  | .contextX => low.extractLsb' 8 8 == 0 && (low.extractLsb' 0 4 == 13 || low.extractLsb' 0 4 == 15)
  | .contextY => low.extractLsb' 8 8 == 0 && (low.extractLsb' 4 4 == 13 || low.extractLsb' 4 4 == 15)
  | .zero => low == 0

/-- A standard word is a defined instruction when `VV` is 00, the condition fields are legal and bits
15:0 are as its opcode's row draws them (30_encoding.md R72, R79). -/
def definedWord (c : Cond) (op : BitVec 7) (vv : BitVec 2) (low : Half) : Bool :=
  vv == 0 && c.wf && (layoutOf op).admits low

/-- A half of a pair that no compact row matches because it has bit 15 clear or opcode byte
0x80..0x8F (46_compact.md R235). -/
def reservedHalf (h : Half) : Bool :=
  !h.getLsbD 15 || h.extractLsb' 12 3 == 0

/-- Well-formed instructions: those some encoding decodes to. -/
def Instr.wf : Instr → Bool
  | .addXYZ c _ _ _ => c.wf
  | .subXYZ c _ _ _ => c.wf
  | .umulXYZ c _ _ _ => c.wf
  | .smulXYZ c _ _ _ => c.wf
  | .udivXYZ c _ _ _ => c.wf
  | .sdivXYZ c _ _ _ => c.wf
  | .rotlXYZ c _ _ _ => c.wf
  | .rotrXYZ c _ _ _ => c.wf
  | .andXYZ c _ _ _ => c.wf
  | .orXYZ c _ _ _ => c.wf
  | .xorXYZ c _ _ _ => c.wf
  | .sarXYZ c _ _ _ => c.wf
  | .rotlXYN c _ _ _ => c.wf
  | .rotrXYN c _ _ _ => c.wf
  | .shlXYZ c _ _ _ => c.wf
  | .shrXYZ c _ _ _ => c.wf
  | .stbXYN c _ _ _ => c.wf
  | .stbuXYN c _ _ _ => c.wf
  | .stbiXYZ c _ _ _ => c.wf
  | .stbuiXYZ c _ _ _ => c.wf
  | .sthXYN c _ _ _ => c.wf
  | .sthuXYN c _ _ _ => c.wf
  | .sthiXYZ c _ _ _ => c.wf
  | .sthuiXYZ c _ _ _ => c.wf
  | .stwXYN c _ _ _ => c.wf
  | .stwuXYN c _ _ _ => c.wf
  | .stwiXYZ c _ _ _ => c.wf
  | .stwuiXYZ c _ _ _ => c.wf
  | .lwXYN c _ _ _ => c.wf
  | .lwuXYN c _ _ _ => c.wf
  | .lwiXYZ c _ _ _ => c.wf
  | .lwuiXYZ c _ _ _ => c.wf
  | .lzbXYN c _ _ _ => c.wf
  | .lzbuXYN c _ _ _ => c.wf
  | .lzbiXYZ c _ _ _ => c.wf
  | .lzbuiXYZ c _ _ _ => c.wf
  | .lsbXYN c _ _ _ => c.wf
  | .lsbuXYN c _ _ _ => c.wf
  | .lsbiXYZ c _ _ _ => c.wf
  | .lsbuiXYZ c _ _ _ => c.wf
  | .lzhXYN c _ _ _ => c.wf
  | .lzhuXYN c _ _ _ => c.wf
  | .lzhiXYZ c _ _ _ => c.wf
  | .lzhuiXYZ c _ _ _ => c.wf
  | .lshXYN c _ _ _ => c.wf
  | .lshuXYN c _ _ _ => c.wf
  | .lshiXYZ c _ _ _ => c.wf
  | .lshuiXYZ c _ _ _ => c.wf
  | .movXY c _ _ => c.wf
  | .swpXY c _ _ => c.wf
  | .notXY c _ _ => c.wf
  | .cmpXY c _ _ => c.wf
  | .sxbXY c _ _ => c.wf
  | .sxwXY c _ _ => c.wf
  | .zxbXY c _ _ => c.wf
  | .zxwXY c _ _ => c.wf
  | .cpr0XY c _ _ => c.wf
  | .cpr1XY c _ _ => c.wf
  | .cpr2XY c _ _ => c.wf
  | .cpr3XY c _ _ => c.wf
  | .mvhhXY c _ _ => c.wf
  | .mvhlXY c _ _ => c.wf
  | .mvlhXY c _ _ => c.wf
  | .mvllXY c _ _ => c.wf
  | .addXN c _ _ => c.wf
  | .subXN c _ _ => c.wf
  | .pushXY c _ _ => c.wf
  | .popXY c _ _ => c.wf
  | .movSspY c _ => c.wf
  | .movSpcY c _ => c.wf
  | .movXSsp c _ => c.wf
  | .movXSpc c _ => c.wf
  | .baN c _ => c.wf
  | .brN c _ => c.wf
  | .callN c _ => c.wf
  | .callrN c _ => c.wf
  | .fcallN c _ => c.wf
  | .fcallrN c _ => c.wf
  | .intN c _ => c.wf
  | .lilN c _ => c.wf
  | .lihN c _ => c.wf
  | .ret c => c.wf
  | .fret c => c.wf
  | .sleep c => c.wf
  | .rfi c => c.wf
  | .brk c => c.wf
  | .reserved c op vv low => !definedWord c op vv low
  | .reservedCompact h => reservedHalf h

end Sys2Proof
end

