-- ==== Sys2Proof/Decode.lean ====
section
/-!
DEFINITION. The decoder and the encoder (30_encoding.md R60 to R79, 46_compact.md R230 to R235).
A fetched word is one standard instruction or a pair of compact ones; every word decodes, reserved
words to `Instr.reserved` and `Instr.reservedCompact`, which trap when executed.
-/

namespace Sys2Proof

/-! ### Field values -/

/-- The register a 4-bit field names (10_state.md R12). -/
def Reg.ofBits (b : BitVec 4) : Reg :=
  match b.toNat with
  | 0 => .r0 | 1 => .r1 | 2 => .r2 | 3 => .r3 | 4 => .r4
  | 5 => .r5 | 6 => .r6 | 7 => .r7 | 8 => .r8 | 9 => .r9
  | 10 => .cc10 | 11 => .cc32 | 12 => .dsp | 13 => .isp | 14 => .sr
  | _ => .pc

/-- The number of a register (10_state.md R12). -/
def Reg.toBits : Reg → BitVec 4
  | .r0 => 0 | .r1 => 1 | .r2 => 2 | .r3 => 3 | .r4 => 4
  | .r5 => 5 | .r6 => 6 | .r7 => 7 | .r8 => 8 | .r9 => 9
  | .cc10 => 10 | .cc32 => 11 | .dsp => 12 | .isp => 13 | .sr => 14
  | .pc => 15

/-- The condition code a 4-bit field names (40_conditional_execution.md R91, R92). -/
def CondCode.ofBits (b : BitVec 4) : CondCode :=
  match b.toNat with
  | 0 => .al | 1 => .ov | 2 => .uge | 3 => .ugt | 4 => .eq | 5 => .lt | 6 => .gt | 7 => .res7
  | 8 => .nv | 9 => .nov | 10 => .ult | 11 => .ule | 12 => .ne | 13 => .ge | 14 => .le
  | _ => .res15

/-- The 4 bits of a condition code. -/
def CondCode.toBits : CondCode → BitVec 4
  | .al => 0 | .ov => 1 | .uge => 2 | .ugt => 3 | .eq => 4 | .lt => 5 | .gt => 6 | .res7 => 7
  | .nv => 8 | .nov => 9 | .ult => 10 | .ule => 11 | .ne => 12 | .ge => 13 | .le => 14
  | .res15 => 15

/-- The condition register that the bits `rr` select (R91). -/
def CcReg.ofBits (b : BitVec 2) : CcReg :=
  match b.toNat with
  | 0 => .cc0 | 1 => .cc1 | 2 => .cc2 | _ => .cc3

/-- The bits `rr` of a condition register. -/
def CcReg.toBits : CcReg → BitVec 2
  | .cc0 => 0 | .cc1 => 1 | .cc2 => 2 | .cc3 => 3

/-! ### The fields of a standard word -/

/-- The fields of a standard word below bit 31 (30_encoding.md R61): bits 30:24, 23:22, 21:20, 19:16
and the four nibbles of bits 15:0. -/
structure Fields where
  op   : BitVec 7
  vv   : BitVec 2
  rr   : BitVec 2
  cccc : BitVec 4
  h    : BitVec 4
  z    : BitVec 4
  y    : BitVec 4
  x    : BitVec 4
  deriving DecidableEq, Repr

/-- Cuts bits 30:0 of a word into its fields (R61). -/
def Fields.ofWord (w : Word) : Fields where
  op := w.extractLsb' 24 7
  vv := w.extractLsb' 22 2
  rr := w.extractLsb' 20 2
  cccc := w.extractLsb' 16 4
  h := w.extractLsb' 12 4
  z := w.extractLsb' 8 4
  y := w.extractLsb' 4 4
  x := w.extractLsb' 0 4

/-- The word with bit 31 clear and these fields (R61). -/
def Fields.toWord (f : Fields) : Word :=
  0#1 ++ f.op ++ f.vv ++ f.rr ++ f.cccc ++ f.h ++ f.z ++ f.y ++ f.x

/-- Bits 15:0, the immediate of the one-operand format (R66). -/
def Fields.n16 (f : Fields) : Half := f.h ++ f.z ++ f.y ++ f.x

/-- Bits 15:4, the immediate of `add x,$n` and `sub x,$n` (R65). -/
def Fields.n12 (f : Fields) : BitVec 12 := f.h ++ f.z ++ f.y

/-- Bits 15:8, the immediate of the three-operand format (R64). -/
def Fields.n8 (f : Fields) : Byte := f.h ++ f.z

/-- The condition that `cccc` and `rr` hold. -/
def Fields.cond (f : Fields) : Cond := ⟨CondCode.ofBits f.cccc, CcReg.ofBits f.rr⟩

/-- The instruction a reserved word decodes to: it keeps every field (R79). -/
def Fields.asReserved (f : Fields) : Instr := .reserved f.cond f.op f.vv f.n16

/-! ### Decoding -/

/-- The row of the opcode map that a word with `VV` = 00 and legal condition fields matches
(30_encoding.md R70, R79); a word that matches none is reserved. -/
def decodeRow (f : Fields) : Instr :=
  let c := f.cond
  let x := Reg.ofBits f.x
  let y := Reg.ofBits f.y
  let z := Reg.ofBits f.z
  let regZ (i : Instr) : Instr := if f.h = 0 then i else f.asReserved
  let regY (i : Instr) : Instr := if f.h = 0 ∧ f.z = 0 then i else f.asReserved
  let zero (i : Instr) : Instr :=
    if f.h = 0 ∧ f.z = 0 ∧ f.y = 0 ∧ f.x = 0 then i else f.asReserved
  match f.op.toNat with
  | 0x08 => zero (.ret c)
  | 0x09 => zero (.fret c)
  | 0x0A => zero (.sleep c)
  | 0x0B => zero (.rfi c)
  | 0x0F => zero (.brk c)
  | 0x10 => .baN c f.n16
  | 0x11 => .brN c f.n16
  | 0x14 => .callN c f.n16
  | 0x15 => .callrN c f.n16
  | 0x16 => .fcallN c f.n16
  | 0x17 => .fcallrN c f.n16
  | 0x18 => .intN c f.n16
  | 0x1A => .lilN c f.n16
  | 0x1B => .lihN c f.n16
  | 0x20 => regY (.movXY c x y)
  | 0x21 => regY (.swpXY c x y)
  | 0x22 => regY (.notXY c x y)
  | 0x23 => regY (.cmpXY c x y)
  | 0x24 => regY (.sxbXY c x y)
  | 0x25 => regY (.sxwXY c x y)
  | 0x26 => regY (.zxbXY c x y)
  | 0x27 => regY (.zxwXY c x y)
  | 0x28 => regY (.cpr0XY c x y)
  | 0x29 => regY (.cpr1XY c x y)
  | 0x2A => regY (.cpr2XY c x y)
  | 0x2B => regY (.cpr3XY c x y)
  | 0x2C => regY (.mvhhXY c x y)
  | 0x2D => regY (.mvhlXY c x y)
  | 0x2E => regY (.mvlhXY c x y)
  | 0x2F => regY (.mvllXY c x y)
  | 0x30 => .addXN c x f.n12
  | 0x31 => .subXN c x f.n12
  | 0x32 => regY (.pushXY c x y)
  | 0x33 => regY (.popXY c x y)
  | 0x34 => regY (if f.x = 13 then .movSspY c y else if f.x = 15 then .movSpcY c y else f.asReserved)
  | 0x35 => regY (if f.y = 13 then .movXSsp c x else if f.y = 15 then .movXSpc c x else f.asReserved)
  | 0x40 => regZ (.addXYZ c x y z)
  | 0x41 => regZ (.subXYZ c x y z)
  | 0x42 => regZ (.umulXYZ c x y z)
  | 0x43 => regZ (.smulXYZ c x y z)
  | 0x44 => regZ (.udivXYZ c x y z)
  | 0x45 => regZ (.sdivXYZ c x y z)
  | 0x46 => regZ (.rotlXYZ c x y z)
  | 0x47 => regZ (.rotrXYZ c x y z)
  | 0x48 => regZ (.andXYZ c x y z)
  | 0x49 => regZ (.orXYZ c x y z)
  | 0x4A => regZ (.xorXYZ c x y z)
  | 0x4B => regZ (.sarXYZ c x y z)
  | 0x4C => .rotlXYN c x y f.n8
  | 0x4D => .rotrXYN c x y f.n8
  | 0x4E => regZ (.shlXYZ c x y z)
  | 0x4F => regZ (.shrXYZ c x y z)
  | 0x60 => .stbXYN c x y f.n8
  | 0x61 => .stbuXYN c x y f.n8
  | 0x62 => regZ (.stbiXYZ c x y z)
  | 0x63 => regZ (.stbuiXYZ c x y z)
  | 0x64 => .sthXYN c x y f.n8
  | 0x65 => .sthuXYN c x y f.n8
  | 0x66 => regZ (.sthiXYZ c x y z)
  | 0x67 => regZ (.sthuiXYZ c x y z)
  | 0x68 => .stwXYN c x y f.n8
  | 0x69 => .stwuXYN c x y f.n8
  | 0x6A => regZ (.stwiXYZ c x y z)
  | 0x6B => regZ (.stwuiXYZ c x y z)
  | 0x6C => .lwXYN c x y f.n8
  | 0x6D => .lwuXYN c x y f.n8
  | 0x6E => regZ (.lwiXYZ c x y z)
  | 0x6F => regZ (.lwuiXYZ c x y z)
  | 0x70 => .lzbXYN c x y f.n8
  | 0x71 => .lzbuXYN c x y f.n8
  | 0x72 => regZ (.lzbiXYZ c x y z)
  | 0x73 => regZ (.lzbuiXYZ c x y z)
  | 0x74 => .lsbXYN c x y f.n8
  | 0x75 => .lsbuXYN c x y f.n8
  | 0x76 => regZ (.lsbiXYZ c x y z)
  | 0x77 => regZ (.lsbuiXYZ c x y z)
  | 0x78 => .lzhXYN c x y f.n8
  | 0x79 => .lzhuXYN c x y f.n8
  | 0x7A => regZ (.lzhiXYZ c x y z)
  | 0x7B => regZ (.lzhuiXYZ c x y z)
  | 0x7C => .lshXYN c x y f.n8
  | 0x7D => .lshuXYN c x y f.n8
  | 0x7E => regZ (.lshiXYZ c x y z)
  | 0x7F => regZ (.lshuiXYZ c x y z)
  | _ => f.asReserved

/-- The standard instruction of a word's fields (30_encoding.md R79): `VV` must be 00 and, with `cccc`
= 0000, `rr` must be 00; otherwise the word is reserved (R72). -/
def decodeFields (f : Fields) : Instr :=
  if f.vv = 0 ∧ (f.cccc ≠ 0 ∨ f.rr = 0) then decodeRow f else f.asReserved

/-- The instruction of a word with bit 31 clear (30_encoding.md R60, R79). -/
def decodeStandard (w : Word) : Instr := decodeFields (Fields.ofWord w)

/-- `Expand` of 46_compact.md R233: the fields of the standard word a compact half stands for, with
`VV`, `rr` and `cccc` zero; `w` is bits 3:0 and `q` bits 7:4 of the half. -/
def expandHalf (h : Half) : Fields :=
  let op := h.extractLsb' 8 7
  let q := h.extractLsb' 4 4
  let w := h.extractLsb' 0 4
  if h.getLsbD 14 then
    if h.getLsbD 13 then
      ⟨op, 0, 0, 0, 0, if h.getLsbD 9 then 8 else 0, q, w⟩
    else ⟨op, 0, 0, 0, 0, q, w, w⟩
  else ⟨op, 0, 0, 0, 0, 0, q, w⟩

/-- The instruction of one half of a pair (46_compact.md R231, R233, R235). -/
def decodeHalf (h : Half) : Instr :=
  if reservedHalf h then .reservedCompact h else decodeFields (expandHalf h)

/-- What one fetched word holds (30_encoding.md R60). -/
inductive Fetched where
  | single (i : Instr)
  | pair (first second : Instr)
  deriving DecidableEq, Repr

/-- Decodes a fetched word (R60, R79; 46_compact.md R230): bit 31 clear, a standard instruction; set,
a pair whose Instruction 1 is bits 15:0. -/
def decodeWord (w : Word) : Fetched :=
  if w.getLsbD 31 then .pair (decodeHalf (w.extractLsb' 0 16)) (decodeHalf (w.extractLsb' 16 16))
  else .single (decodeStandard w)

/-- The 32-bit word of four bytes, the first at the lowest address (20_memory.md R44). -/
def wordOfBytes (o : ByteOrder) (b0 b1 b2 b3 : Byte) : Word :=
  match o with
  | .little => b3 ++ b2 ++ b1 ++ b0
  | .big => b0 ++ b1 ++ b2 ++ b3

/-- The 16-bit value of two bytes, the first at the lower address (20_memory.md R44). -/
def halfOfBytes (o : ByteOrder) (b0 b1 : Byte) : Half :=
  match o with
  | .little => b1 ++ b0
  | .big => b0 ++ b1

/-- Why bytes are no fetched word. -/
inductive DecodeReject where
  /-- Fewer than four bytes: the fetch unit is a whole word (30_encoding.md R60). -/
  | truncated
  deriving DecidableEq, Repr

/-- Decodes the first word of a list of bytes, the first byte at the lowest address, and gives the
bytes left over. -/
def decodeBytes (o : ByteOrder) : List Byte → Except DecodeReject (Fetched × List Byte)
  | b0 :: b1 :: b2 :: b3 :: rest => .ok (decodeWord (wordOfBytes o b0 b1 b2 b3), rest)
  | _ => .error .truncated

/-! ### Encoding -/

/-- An encoding of one instruction: a standard word, or a half of a pair word. -/
inductive Code where
  | word (w : Word)
  | half (h : Half)
  deriving DecidableEq, Repr

/-- The instruction of an encoding. -/
def decode : Code → Instr
  | .word w => decodeStandard w
  | .half h => decodeHalf h

/-- Fields with opcode byte `op`, `VV` = 00, the condition `c` and the four nibbles of bits 15:0. -/
def fieldsOf (op : BitVec 7) (c : Cond) (h z y x : BitVec 4) : Fields :=
  ⟨op, 0, c.reg.toBits, c.code.toBits, h, z, y, x⟩

/-- Register form of three operands (30_encoding.md R64). -/
def fieldsXYZ (op : BitVec 7) (c : Cond) (x y z : Reg) : Fields :=
  fieldsOf op c 0 z.toBits y.toBits x.toBits

/-- Immediate form of three operands (R64). -/
def fieldsXYN (op : BitVec 7) (c : Cond) (x y : Reg) (n : Byte) : Fields :=
  fieldsOf op c (n.extractLsb' 4 4) (n.extractLsb' 0 4) y.toBits x.toBits

/-- Register form of two operands (R65). -/
def fieldsXY (op : BitVec 7) (c : Cond) (x y : Reg) : Fields :=
  fieldsOf op c 0 0 y.toBits x.toBits

/-- Immediate form of two operands (R65). -/
def fieldsXN (op : BitVec 7) (c : Cond) (x : Reg) (n : BitVec 12) : Fields :=
  fieldsOf op c (n.extractLsb' 8 4) (n.extractLsb' 4 4) (n.extractLsb' 0 4) x.toBits

/-- One immediate operand (R66). -/
def fieldsN (op : BitVec 7) (c : Cond) (n : Half) : Fields :=
  fieldsOf op c (n.extractLsb' 12 4) (n.extractLsb' 8 4) (n.extractLsb' 4 4) (n.extractLsb' 0 4)

/-- The fields of an instruction's standard word (30_encoding.md R70); `Instr.reservedCompact` has
none and gets all zeros. -/
def encodeFields : Instr → Fields
  | .addXYZ c x y z => fieldsXYZ 0x40 c x y z
  | .subXYZ c x y z => fieldsXYZ 0x41 c x y z
  | .umulXYZ c x y z => fieldsXYZ 0x42 c x y z
  | .smulXYZ c x y z => fieldsXYZ 0x43 c x y z
  | .udivXYZ c x y z => fieldsXYZ 0x44 c x y z
  | .sdivXYZ c x y z => fieldsXYZ 0x45 c x y z
  | .rotlXYZ c x y z => fieldsXYZ 0x46 c x y z
  | .rotrXYZ c x y z => fieldsXYZ 0x47 c x y z
  | .andXYZ c x y z => fieldsXYZ 0x48 c x y z
  | .orXYZ c x y z => fieldsXYZ 0x49 c x y z
  | .xorXYZ c x y z => fieldsXYZ 0x4A c x y z
  | .sarXYZ c x y z => fieldsXYZ 0x4B c x y z
  | .rotlXYN c x y n => fieldsXYN 0x4C c x y n
  | .rotrXYN c x y n => fieldsXYN 0x4D c x y n
  | .shlXYZ c x y z => fieldsXYZ 0x4E c x y z
  | .shrXYZ c x y z => fieldsXYZ 0x4F c x y z
  | .stbXYN c x y n => fieldsXYN 0x60 c x y n
  | .stbuXYN c x y n => fieldsXYN 0x61 c x y n
  | .stbiXYZ c x y z => fieldsXYZ 0x62 c x y z
  | .stbuiXYZ c x y z => fieldsXYZ 0x63 c x y z
  | .sthXYN c x y n => fieldsXYN 0x64 c x y n
  | .sthuXYN c x y n => fieldsXYN 0x65 c x y n
  | .sthiXYZ c x y z => fieldsXYZ 0x66 c x y z
  | .sthuiXYZ c x y z => fieldsXYZ 0x67 c x y z
  | .stwXYN c x y n => fieldsXYN 0x68 c x y n
  | .stwuXYN c x y n => fieldsXYN 0x69 c x y n
  | .stwiXYZ c x y z => fieldsXYZ 0x6A c x y z
  | .stwuiXYZ c x y z => fieldsXYZ 0x6B c x y z
  | .lwXYN c x y n => fieldsXYN 0x6C c x y n
  | .lwuXYN c x y n => fieldsXYN 0x6D c x y n
  | .lwiXYZ c x y z => fieldsXYZ 0x6E c x y z
  | .lwuiXYZ c x y z => fieldsXYZ 0x6F c x y z
  | .lzbXYN c x y n => fieldsXYN 0x70 c x y n
  | .lzbuXYN c x y n => fieldsXYN 0x71 c x y n
  | .lzbiXYZ c x y z => fieldsXYZ 0x72 c x y z
  | .lzbuiXYZ c x y z => fieldsXYZ 0x73 c x y z
  | .lsbXYN c x y n => fieldsXYN 0x74 c x y n
  | .lsbuXYN c x y n => fieldsXYN 0x75 c x y n
  | .lsbiXYZ c x y z => fieldsXYZ 0x76 c x y z
  | .lsbuiXYZ c x y z => fieldsXYZ 0x77 c x y z
  | .lzhXYN c x y n => fieldsXYN 0x78 c x y n
  | .lzhuXYN c x y n => fieldsXYN 0x79 c x y n
  | .lzhiXYZ c x y z => fieldsXYZ 0x7A c x y z
  | .lzhuiXYZ c x y z => fieldsXYZ 0x7B c x y z
  | .lshXYN c x y n => fieldsXYN 0x7C c x y n
  | .lshuXYN c x y n => fieldsXYN 0x7D c x y n
  | .lshiXYZ c x y z => fieldsXYZ 0x7E c x y z
  | .lshuiXYZ c x y z => fieldsXYZ 0x7F c x y z
  | .movXY c x y => fieldsXY 0x20 c x y
  | .swpXY c x y => fieldsXY 0x21 c x y
  | .notXY c x y => fieldsXY 0x22 c x y
  | .cmpXY c x y => fieldsXY 0x23 c x y
  | .sxbXY c x y => fieldsXY 0x24 c x y
  | .sxwXY c x y => fieldsXY 0x25 c x y
  | .zxbXY c x y => fieldsXY 0x26 c x y
  | .zxwXY c x y => fieldsXY 0x27 c x y
  | .cpr0XY c x y => fieldsXY 0x28 c x y
  | .cpr1XY c x y => fieldsXY 0x29 c x y
  | .cpr2XY c x y => fieldsXY 0x2A c x y
  | .cpr3XY c x y => fieldsXY 0x2B c x y
  | .mvhhXY c x y => fieldsXY 0x2C c x y
  | .mvhlXY c x y => fieldsXY 0x2D c x y
  | .mvlhXY c x y => fieldsXY 0x2E c x y
  | .mvllXY c x y => fieldsXY 0x2F c x y
  | .addXN c x n => fieldsXN 0x30 c x n
  | .subXN c x n => fieldsXN 0x31 c x n
  | .pushXY c x y => fieldsXY 0x32 c x y
  | .popXY c x y => fieldsXY 0x33 c x y
  | .movSspY c y => fieldsXY 0x34 c .isp y
  | .movSpcY c y => fieldsXY 0x34 c .pc y
  | .movXSsp c x => fieldsXY 0x35 c x .isp
  | .movXSpc c x => fieldsXY 0x35 c x .pc
  | .baN c n => fieldsN 0x10 c n
  | .brN c n => fieldsN 0x11 c n
  | .callN c n => fieldsN 0x14 c n
  | .callrN c n => fieldsN 0x15 c n
  | .fcallN c n => fieldsN 0x16 c n
  | .fcallrN c n => fieldsN 0x17 c n
  | .intN c n => fieldsN 0x18 c n
  | .lilN c n => fieldsN 0x1A c n
  | .lihN c n => fieldsN 0x1B c n
  | .ret c => fieldsOf 0x08 c 0 0 0 0
  | .fret c => fieldsOf 0x09 c 0 0 0 0
  | .sleep c => fieldsOf 0x0A c 0 0 0 0
  | .rfi c => fieldsOf 0x0B c 0 0 0 0
  | .brk c => fieldsOf 0x0F c 0 0 0 0
  | .reserved c op vv low =>
    ⟨op, vv, c.reg.toBits, c.code.toBits, low.extractLsb' 12 4, low.extractLsb' 8 4,
      low.extractLsb' 4 4, low.extractLsb' 0 4⟩
  | .reservedCompact _ => ⟨0, 0, 0, 0, 0, 0, 0, 0⟩

/-- The encoding of an instruction: its standard word (30_encoding.md R61 to R70), or the half itself
for a reserved half of a pair. -/
def encode : Instr → Code
  | .reservedCompact h => .half h
  | i => .word (encodeFields i).toWord

/-- The compact half of an instruction that has one: the half whose expansion is the instruction's
standard word (46_compact.md R233), found from the word's own fields. -/
def encodeCompact (i : Instr) : Option Half :=
  match i with
  | .reservedCompact h => some h
  | i =>
    let f := encodeFields i
    let q := if f.op.getLsbD 6 && !f.op.getLsbD 5 then f.z else f.y
    let h : Half := 1#1 ++ f.op ++ q ++ f.x
    if !reservedHalf h && expandHalf h == f then some h else none

/-- The host's question on one opcode-table row: the instruction that the decoder reads from the bits
`w` of a row of `nbits` bits. The bytes are laid out in the default byte order. A 16-bit row is a
compact half, one instruction of a pair (log entry 11). -/
def decodeTableWord (nbits w : Nat) : Option Instr :=
  let b (k : Nat) : Byte := BitVec.ofNat 8 (w / 256 ^ k)
  if nbits ≤ 16 then some (decodeHalf (halfOfBytes .little (b 0) (b 1)))
  else
    match decodeBytes .little [b 0, b 1, b 2, b 3] with
    | .ok (.single i, _) => some i
    | _ => none

end Sys2Proof
end

