-- ==== Sys2Proof/Machine/State.lean ====
section
/-!
DEFINITION. The state of the machine (10_state.md R10, R31), the reasons a step can stop, and the
state after reset (70_reset_and_hazards.md R290, R291).
-/

namespace Sys2Proof.Machine

/-- What an unlisted address reads as: the model's choice for `InitialMemory` where `State.reset`
lists nothing (log entry 1, DESIGN CHOICE). -/
def unlistedByte : Byte := 0

/-- The machine. Every register of 10_state.md R10 under its own name, memory, the parameters of
00_scope.md R6, the environment's coming inputs, and two fields that one step leaves to the next or
to itself (`inReset`, `entered`). INVENTORY.md lists each with its rule. -/
structure State where
  r0 : Word
  r1 : Word
  r2 : Word
  r3 : Word
  r4 : Word
  r5 : Word
  r6 : Word
  r7 : Word
  r8 : Word
  r9 : Word
  /-- Condition registers (R22, R23); register 10 is `cc1∥cc0`, register 11 is `cc3∥cc2`. -/
  cc0 : Half
  cc1 : Half
  cc2 : Half
  cc3 : Half
  /-- Data stack pointer, register 12 (R18). -/
  dsp : Word
  /-- Call stack pointer of the running mode, register 13 (R18, R19). -/
  isp : Word
  /-- Status register, register 14 (R24 to R26). -/
  sr : Half
  /-- Instruction pointer of the running mode, register 15 (R14, R15). -/
  pc : Word
  /-- Call stack pointer of the mode that is not running (R19). -/
  ssp : Word
  /-- Instruction pointer of the mode that is not running (R19). -/
  spc : Word
  /-- Memory (20_memory.md R40): the bytes that differ from `unlistedByte`, addresses strictly
  rising. -/
  mem : List Host.Cell
  /-- The parameters of 00_scope.md R6. -/
  cfg : Config
  /-- The environment's inputs at the coming steps, the next first; past the end no event
  (10_state.md R31, log entry 4). -/
  env : List Env
  /-- The reset line was low at the step before (70_reset_and_hazards.md R292, log entry 5). -/
  inReset : Bool
  /-- The model's own: a trap or interrupt entry has been made in this step (46_compact.md R231,
  R236, log entry 6). -/
  entered : Bool
  deriving DecidableEq, Repr

/-- An access that trap entry, interrupt entry or reset makes for itself cannot be made. The spec
gives no behaviour: 'The model refuses to continue in that case' (60_exceptions.md R265,
92_eei_decisions.md D23). Safe: the machine stops where the spec has no successor. -/
inductive Fault where
  /-- Raised by trap and interrupt entry when a push on `isp` is misaligned or fails (R265). Safe. -/
  | entryPush
  /-- Raised by trap and interrupt entry when the read of the table entry fails (R265). Safe. -/
  | vectorRead
  /-- Raised by the reset sequence when the read of the reset vector fails
  (70_reset_and_hazards.md R293). Safe. -/
  | resetVectorRead
  deriving DecidableEq, Repr

/-- A step with no meaning. -/
inductive Refusal where
  /-- Raised by `exec` for an instruction that has no meaning yet. Safe. -/
  | notModelled (mnemonic : String)
  /-- Raised by a context switch that would bring a value of `spc` with bit 0 or 1 set into `pc`
  (60_exceptions.md R264, 92_eei_decisions.md D22). Safe. -/
  | misalignedSpc
  /-- Raised by trap and interrupt entry when the table entry has bit 0 or 1 set (R264). Safe. -/
  | misalignedVector
  /-- Raised by the reset sequence when the reset vector has bit 0 or 1 set
  (70_reset_and_hazards.md R293). Safe. -/
  | misalignedResetVector
  deriving DecidableEq, Repr

/-- What an instruction, an entry or a step answers. -/
abbrev Result := Host.Outcome State Fault Refusal

/-- The machine right after reset (70_reset_and_hazards.md R290, R291): every register cleared, `I`
and `T` set in `sr`, `pc` the word at address 0, which is 0 in a memory with nothing listed (log
entry 1); the default parameters, no coming event, the reset line high. -/
def State.reset : State where
  r0 := 0
  r1 := 0
  r2 := 0
  r3 := 0
  r4 := 0
  r5 := 0
  r6 := 0
  r7 := 0
  r8 := 0
  r9 := 0
  cc0 := 0
  cc1 := 0
  cc2 := 0
  cc3 := 0
  dsp := 0
  isp := 0
  sr := 0x0900
  pc := 0
  ssp := 0
  spc := 0
  mem := []
  cfg := Config.standard
  env := []
  inReset := false
  entered := false

end Sys2Proof.Machine
end

