-- ==== Sys2Proof/Machine/Memory.lean ====
section
/-!
DEFINITION. Memory as a list of (address, byte) pairs in one canonical form, and the values of 1, 2
and 4 bytes in it under either byte order (20_memory.md R40, R42 to R45, R50).
-/

namespace Sys2Proof.Machine

/-- The canonical form, with every listed address at least `from_`: addresses strictly rising and
inside the 32-bit space, no entry equal to what an unlisted address reads as. -/
def memWfFrom : Nat → List Host.Cell → Bool
  | _, [] => true
  | from_, (a, v) :: m => decide (from_ ≤ a) && decide (a < 2 ^ 32) && v != unlistedByte && memWfFrom (a + 1) m

/-- Memory is in canonical form. -/
def Memory.wf (m : List Host.Cell) : Bool := memWfFrom 0 m

/-- The byte at an address: the listed one, or what an unlisted address reads as (log entry 1). -/
def memGet : List Host.Cell → Nat → Byte
  | [], _ => unlistedByte
  | (b, w) :: m, a => if a = b then w else memGet m a

/-- Memory with the byte at an address replaced, in canonical form again: writing the value an
unlisted address reads as removes the entry. -/
def memSet : List Host.Cell → Nat → Byte → List Host.Cell
  | [], a, v => if v = unlistedByte then [] else [(a, v)]
  | (b, w) :: m, a, v =>
    if a < b then if v = unlistedByte then (b, w) :: m else (a, v) :: (b, w) :: m
    else if a = b then if v = unlistedByte then m else (a, v) :: m
    else (b, w) :: memSet m a v

/-- The byte at a 32-bit address. -/
def byteAt (m : List Host.Cell) (a : Word) : Byte := memGet m a.toNat

/-- Memory with the byte at a 32-bit address replaced. -/
def setByte (m : List Host.Cell) (a : Word) (v : Byte) : List Host.Cell := memSet m a.toNat v

/-- The unsigned value of `n` bytes at an address (R44); byte addresses are modulo 2^32 (R50). -/
def valueAt (o : ByteOrder) (m : List Host.Cell) (a : Word) : Width → Word
  | .byte => (byteAt m a).setWidth 32
  | .half => (halfOfBytes o (byteAt m a) (byteAt m (a + 1))).setWidth 32
  | .word => wordOfBytes o (byteAt m a) (byteAt m (a + 1)) (byteAt m (a + 2)) (byteAt m (a + 3))

/-- Byte `k` of a value, `k` = 0 the least significant. -/
def byteOf (v : Word) (k : Nat) : Byte := v.extractLsb' (8 * k) 8

/-- Memory with the low `n` bytes of a value written at an address (R45). -/
def putValue (o : ByteOrder) (m : List Host.Cell) (a : Word) (v : Word) : Width → List Host.Cell
  | .byte => setByte m a (byteOf v 0)
  | .half =>
    match o with
    | .little => setByte (setByte m a (byteOf v 0)) (a + 1) (byteOf v 1)
    | .big => setByte (setByte m a (byteOf v 1)) (a + 1) (byteOf v 0)
  | .word =>
    match o with
    | .little =>
      setByte (setByte (setByte (setByte m a (byteOf v 0)) (a + 1) (byteOf v 1)) (a + 2) (byteOf v 2))
        (a + 3) (byteOf v 3)
    | .big =>
      setByte (setByte (setByte (setByte m a (byteOf v 3)) (a + 1) (byteOf v 2)) (a + 2) (byteOf v 1))
        (a + 3) (byteOf v 0)

end Sys2Proof.Machine
end

