-- ==== Sys2Proof/Machine/Operands.lean ====
section
/-!
DEFINITION. Operand values: how each immediate field becomes a 32-bit value (30_encoding.md R68, R131)
and the arithmetic of the three-operand instructions that is more than one BitVec operation
(41_three_operand_alu.md).
-/

namespace Sys2Proof.Machine

/-- The load/store displacement (30_encoding.md R68, `DISP8_SIGNED`), not scaled. -/
def disp8 (cfg : Config) (n : Byte) : Word :=
  if cfg.disp8Signed then n.signExtend 32 else n.setWidth 32

/-- The immediate of `add x,$n` and `sub x,$n` (R68, `IMM12_SIGNED`). -/
def imm12 (cfg : Config) (n : BitVec 12) : Word :=
  if cfg.imm12Signed then n.signExtend 32 else n.setWidth 32

/-- The byte offset of `br`, `callr`, `fcallr`: `n << 2` (R68, `REL16_SIGNED`). -/
def rel16 (cfg : Config) (n : Half) : Word :=
  (if cfg.rel16Signed then n.signExtend 32 else n.setWidth 32) <<< 2

/-- The byte address of `ba`, `call`, `fcall`: `n << 2` (R68, `ABS16_SIGNED`). -/
def abs16 (cfg : Config) (n : Half) : Word :=
  (if cfg.abs16Signed then n.signExtend 32 else n.setWidth 32) <<< 2

/-- The number of bytes of an access, as an address step (42_load_store.md R131). -/
def widthBytes : Width → Word
  | .byte => 1
  | .half => 2
  | .word => 4

/-- How a loaded value fills the register (20_memory.md R48). -/
inductive Extension where
  | zero
  | sign
  deriving DecidableEq, Repr

/-- The low byte of a value, sign-extended: `sext_8` (00_scope.md R7). -/
def sext8 (v : Word) : Word := (v.setWidth 8).signExtend 32

/-- The low half of a value, sign-extended: `sext_16` (00_scope.md R7). -/
def sext16 (v : Word) : Word := (v.setWidth 16).signExtend 32

/-- The low byte of a value, zero-extended: `zext_8`. -/
def zext8 (v : Word) : Word := (v.setWidth 8).setWidth 32

/-- The low half of a value, zero-extended: `zext_16`. -/
def zext16 (v : Word) : Word := (v.setWidth 16).setWidth 32

/-- The register value of a loaded value (42_load_store.md R145 to R164). -/
def extendLoaded (e : Extension) (w : Width) (v : Word) : Word :=
  match e, w with
  | .zero, _ => v
  | .sign, .byte => sext8 v
  | .sign, .half => sext16 v
  | .sign, .word => v

/-- The exact unsigned product as 64 bits (41_three_operand_alu.md R103). -/
def unsignedProduct (a b : Word) : BitVec 64 := BitVec.ofNat 64 (a.toNat * b.toNat)

/-- The exact signed product as 64 bits of two's complement (R104). -/
def signedProduct (a b : Word) : BitVec 64 := BitVec.ofInt 64 (a.toInt * b.toInt)

/-- Bits 31:0 of a product. -/
def lowWord (p : BitVec 64) : Word := p.extractLsb' 0 32

/-- Bits 63:32 of a product. -/
def highWord (p : BitVec 64) : Word := p.extractLsb' 32 32

/-- The unsigned quotient, rounded down (R105). -/
def unsignedQuotient (a b : Word) : Word := BitVec.ofNat 32 (a.toNat / b.toNat)

/-- The unsigned remainder (R105). -/
def unsignedRemainder (a b : Word) : Word := BitVec.ofNat 32 (a.toNat % b.toNat)

/-- The signed quotient, rounded toward zero, modulo 2^32 (R106, decision D10). -/
def signedQuotient (a b : Word) : Word := BitVec.ofInt 32 (a.toInt.tdiv b.toInt)

/-- The signed remainder, with the sign of the dividend (R106, decision D10). -/
def signedRemainder (a b : Word) : Word := BitVec.ofInt 32 (a.toInt.tmod b.toInt)

/-- Rotation left by a count taken modulo 32 (R107, R113, decision D8). -/
def rotl (a : Word) (count : Nat) : Word := a.rotateLeft (count % 32)

/-- Rotation right by a count taken modulo 32 (R108, R114, decision D8). -/
def rotr (a : Word) (count : Nat) : Word := a.rotateRight (count % 32)

/-- Arithmetic shift right; 32 or more leaves only sign bits (R112, decision D8). -/
def sar (a : Word) (count : Nat) : Word :=
  BitVec.ofInt 32 (a.toInt / 2 ^ (if 32 ≤ count then 31 else count))

/-- Shift left; 32 or more gives 0 (R115, decision D8). -/
def shl (a : Word) (count : Nat) : Word := if 32 ≤ count then 0 else a <<< count

/-- Logical shift right; 32 or more gives 0 (R116, decision D8). -/
def shr (a : Word) (count : Nat) : Word := if 32 ≤ count then 0 else a >>> count

/-- `(y & 0xFFFF0000) | (x & 0x0000FFFF)`: two halves of a register (43_two_operand.md R183 to R186). -/
def joinHalves (high low : Half) : Word := high ++ low

/-- Bits 31:16. -/
def highHalf (v : Word) : Half := v.extractLsb' 16 16

/-- Bits 15:0. -/
def lowHalf (v : Word) : Half := v.extractLsb' 0 16

/-- Bit 0 or bit 1 is set. -/
def misaligned4 (a : Word) : Bool := a.extractLsb' 0 2 != 0

/-- The address is misaligned for the width (20_memory.md R44). -/
def misaligned (w : Width) (a : Word) : Bool :=
  match w with
  | .byte => false
  | .half => a.getLsbD 0
  | .word => misaligned4 a

end Sys2Proof.Machine
end

