-- ==== Sys2Proof/Machine/Ops.lean ====
section
/-!
DEFINITION. The named operations over registers and memory: reading and writing a numbered register
(10_state.md R16, R20, R21, R27), memory accesses with their traps (20_memory.md R44, R45), the
stack primitives, the context switch, taking a trap or an interrupt and returning from one
(60_exceptions.md R241 to R253), and what every instruction does around its own effect
(40_conditional_execution.md R96).
-/

namespace Sys2Proof.Machine

/-! ### Traps -/

/-- The nine traps of 60_exceptions.md R256. -/
inductive Trap where
  | brk
  | invalidOpcode
  | protection
  | math
  | softwareInt
  | srWrite
  | pcAlignment
  | alignment
  | access
  deriving DecidableEq, Repr

/-- The table index of a trap (60_exceptions.md R256). -/
def Trap.index : Trap → Byte
  | .brk => 1
  | .invalidOpcode => 2
  | .protection => 3
  | .math => 4
  | .softwareInt => 5
  | .srWrite => 6
  | .pcAlignment => 7
  | .alignment => 8
  | .access => 9

/-- The two modes (60_exceptions.md R240). -/
inductive Mode where
  | system
  | protected_
  deriving DecidableEq, Repr

/-! ### Plain updates, one per register or field -/

/-- Replaces `pc`, with no check. -/
def State.setPc (s : State) (v : Word) : State := { s with pc := v }

/-- Replaces `sr`, with no check. -/
def State.setSr (s : State) (v : Half) : State := { s with sr := v }

/-- Replaces `dsp`. -/
def State.setDsp (s : State) (v : Word) : State := { s with dsp := v }

/-- Replaces `isp`. -/
def State.setIsp (s : State) (v : Word) : State := { s with isp := v }

/-- Replaces `ssp`. -/
def State.setSsp (s : State) (v : Word) : State := { s with ssp := v }

/-- Replaces `spc`. -/
def State.setSpc (s : State) (v : Word) : State := { s with spc := v }

/-- Replaces `cc0`. -/
def State.setCc0 (s : State) (v : Half) : State := { s with cc0 := v }

/-- Replaces `cc1`. -/
def State.setCc1 (s : State) (v : Half) : State := { s with cc1 := v }

/-- Replaces `cc2`. -/
def State.setCc2 (s : State) (v : Half) : State := { s with cc2 := v }

/-- Replaces `cc3`. -/
def State.setCc3 (s : State) (v : Half) : State := { s with cc3 := v }

/-- Replaces memory. -/
def State.setMem (s : State) (m : List Host.Cell) : State := { s with mem := m }

/-- Replaces the coming inputs. -/
def State.setEnv (s : State) (e : List Env) : State := { s with env := e }

/-- Records whether the reset line is held low. -/
def State.setInReset (s : State) (b : Bool) : State := { s with inReset := b }

/-- Records whether an entry has been made in this step. -/
def State.setEntered (s : State) (b : Bool) : State := { s with entered := b }

/-- `isp` ↔ `ssp` and `pc` ↔ `spc` (60_exceptions.md R241). -/
def State.exchange (s : State) : State :=
  { s with isp := s.ssp, ssp := s.isp, pc := s.spc, spc := s.pc }

/-! ### Registers -/

/-- `x[i]`, the read of a numbered register (10_state.md R20). -/
def State.reg (s : State) : Reg → Word
  | .r0 => s.r0
  | .r1 => s.r1
  | .r2 => s.r2
  | .r3 => s.r3
  | .r4 => s.r4
  | .r5 => s.r5
  | .r6 => s.r6
  | .r7 => s.r7
  | .r8 => s.r8
  | .r9 => s.r9
  | .cc10 => s.cc1 ++ s.cc0
  | .cc32 => s.cc3 ++ s.cc2
  | .dsp => s.dsp
  | .isp => s.isp
  | .sr => s.sr.setWidth 32
  | .pc => s.pc

/-- The storing part of a register write (10_state.md R21): what register `i` holds, with no check;
register 14 keeps the implemented bits (R26). -/
def State.setReg (s : State) (i : Reg) (v : Word) : State :=
  match i with
  | .r0 => { s with r0 := v }
  | .r1 => { s with r1 := v }
  | .r2 => { s with r2 := v }
  | .r3 => { s with r3 := v }
  | .r4 => { s with r4 := v }
  | .r5 => { s with r5 := v }
  | .r6 => { s with r6 := v }
  | .r7 => { s with r7 := v }
  | .r8 => { s with r8 := v }
  | .r9 => { s with r9 := v }
  | .cc10 => { s with cc0 := lowHalf v, cc1 := highHalf v }
  | .cc32 => { s with cc2 := lowHalf v, cc3 := highHalf v }
  | .dsp => { s with dsp := v }
  | .isp => { s with isp := v }
  | .sr => { s with sr := lowHalf v &&& srMask }
  | .pc => { s with pc := v }

/-- `sr.I` (10_state.md R24). -/
def State.flagI (s : State) : Bool := s.sr.getLsbD 8

/-- `sr.P`: protected mode (60_exceptions.md R240). -/
def State.flagP (s : State) : Bool := s.sr.getLsbD 9

/-- `sr.S`. -/
def State.flagS (s : State) : Bool := s.sr.getLsbD 10

/-- `sr.T`. -/
def State.flagT (s : State) : Bool := s.sr.getLsbD 11

/-- `sr.F`: halted (60_exceptions.md R270). -/
def State.flagF (s : State) : Bool := s.sr.getLsbD 12

/-- The condition register that `rr` selects (40_conditional_execution.md R91). -/
def State.ccReg (s : State) : CcReg → Half
  | .cc0 => s.cc0
  | .cc1 => s.cc1
  | .cc2 => s.cc2
  | .cc3 => s.cc3

/-- `WritePC` (10_state.md R16): the pc alignment Trap, or `pc` takes the value. -/
def writePc (v : Word) (s : State) : Except Trap State :=
  if misaligned4 v then .error .pcAlignment else .ok (s.setPc v)

/-- `WriteSR` (10_state.md R27) but for the context switch, which is the last action of the
instruction (60_exceptions.md R243; `complete`, log entry 9). -/
def writeSr (v : Word) (s : State) : Except Trap State :=
  let new := lowHalf v &&& srMask
  if s.flagP then
    if new &&& srControlMask ≠ s.sr &&& srControlMask ∧ s.flagS then .error .srWrite
    else .ok (s.setSr ((s.sr &&& srControlMask) ||| (new &&& srFlagMask)))
  else .ok (s.setSr new)

/-- `x[i] <- v`, the write of a numbered register (10_state.md R21). -/
def writeReg (i : Reg) (v : Word) (s : State) : Except Trap State :=
  match i with
  | .sr => writeSr v s
  | .pc => writePc v s
  | i => .ok (s.setReg i v)

/-! ### Memory accesses -/

/-- `AccessOK(addr, n, kind)` of 00_scope.md R6. -/
def accessOk (cfg : Config) (k : AccessKind) (w : Width) (a : Word) : Bool :=
  !cfg.noAccess.any fun e =>
    decide (e.first.toNat ≤ a.toNat) && decide (a.toNat ≤ e.last.toNat) && e.width == w && e.kind == k

/-- The checks of an access: alignment first, then the access itself (20_memory.md R44 to R47). -/
def checkAccess (s : State) (k : AccessKind) (w : Width) (a : Word) : Except Trap Unit :=
  if misaligned w a then .error .alignment
  else if accessOk s.cfg k w a then .ok ()
  else .error .access

/-- `MemRead` (20_memory.md R44). -/
def memRead (s : State) (k : AccessKind) (w : Width) (a : Word) : Except Trap Word :=
  match checkAccess s k w a with
  | .error t => .error t
  | .ok _ => .ok (valueAt s.cfg.byteOrder s.mem a w)

/-- Memory after `MemWrite` has passed its checks (20_memory.md R45). -/
def State.store (s : State) (w : Width) (a v : Word) : State :=
  s.setMem (putValue s.cfg.byteOrder s.mem a v w)

/-- `MemWrite` (20_memory.md R45). -/
def memWrite (w : Width) (a v : Word) (s : State) : Except Trap State :=
  match checkAccess s .write w a with
  | .error t => .error t
  | .ok _ => .ok (s.store w a v)

/-- `push32` (60_exceptions.md R244). -/
def push32 (v : Word) (s : State) : Except Trap State :=
  memWrite .word (s.isp - 4) v (s.setIsp (s.isp - 4))

/-! ### Modes, entry and return -/

/-- `pc` or `spc` has bit 0 or 1 set. -/
def State.spcMisaligned (s : State) : Bool := misaligned4 s.spc

/-- `ContextSwitch(m)` (60_exceptions.md R241). A value of `spc` with bit 0 or 1 set has no defined
behaviour (R264): the model refuses (log entry 7). -/
def contextSwitch (m : Mode) (s : State) : Result :=
  if s.spcMisaligned then .refused .misalignedSpc
  else
    match m with
    | .system => .next (s.exchange.setSr (s.sr &&& ~~~srP))
    | .protected_ => .next (s.exchange.setSr (s.sr ||| srP))

/-- Goes on with a next state; a fault or a refusal stands. -/
def andThen (r : Result) (k : State → Result) : Result :=
  match r with
  | .next s => k s
  | .fault f => .fault f
  | .refused f => .refused f

/-- Step 1 of an entry: the context switch to system mode if needed (60_exceptions.md R249, R250). -/
def toSystem (s : State) : Result :=
  if s.flagP then contextSwitch .system s else .next s

/-- The `sr` word an entry pushes (60_exceptions.md R249, R250): `sr` zero-extended, with bit 9 as it was
before the entry if `ENTRY_PUSHES_OLD_P`. -/
def frameSr (before now : State) : Word :=
  (if now.cfg.entryPushesOldP && before.flagP then now.sr ||| srP else now.sr).setWidth 32

/-- The address of a table entry (60_exceptions.md R245, 20_memory.md R51). -/
def vectorAddress (index : Byte) : Word := index.setWidth 32 <<< 2

/-- The last step of an entry: `pc <- Vector(i)` (60_exceptions.md R245, R249, R250). -/
def jumpToVector (index : Byte) (s : State) : Result :=
  match memRead s .read .word (vectorAddress index) with
  | .error _ => .fault .vectorRead
  | .ok v => if misaligned4 v then .refused .misalignedVector else .next ((s.setPc v).setEntered true)

/-- The two pushes of an entry: `pc`, then an `sr` word (60_exceptions.md R249, R250). -/
def pushFrame (word : Word) (s : State) : Except Trap State :=
  match push32 s.pc s with
  | .error t => .error t
  | .ok s1 => push32 word s1

/-- Taking an exception, for traps and interrupts alike (60_exceptions.md R249, R250): the switch to
system mode, the bits `clear` of `sr` cleared, `pc` and `sr` pushed, the bits `set` of `sr` set, `pc`
from the table. -/
def enter (index : Byte) (clear set : Half) (s : State) : Result :=
  andThen (toSystem s) fun s1 =>
    let s2 := s1.setSr (s1.sr &&& ~~~clear)
    match pushFrame (frameSr s s2) s2 with
    | .error _ => .fault .entryPush
    | .ok s3 => jumpToVector index (s3.setSr (s3.sr ||| set))

/-- `InterruptEntry(i)` (60_exceptions.md R249). -/
def interruptEntry (index : Byte) (s : State) : Result := enter index srF srI s

/-- The halt of a trap raised while `T` = 1 and `P` = 0 (60_exceptions.md R251). -/
def trapHalt (s : State) : State := (s.setSr (s.sr ||| srF)).setEntered true

/-- `TrapEntry(i)` (60_exceptions.md R250, R251): `s` is the state the trapping instruction started
from, with `pc` advanced. -/
def trapEntry (t : Trap) (s : State) : Result :=
  if s.flagT && !s.flagP then .next (trapHalt s) else enter t.index 0 srT s

/-- The register and memory part of a return from an exception (45_zero_operand.md R224): pops `sr`, then
`pc`, from `isp`; every implemented bit of `sr` takes the popped value. -/
def returnFromEntry (s : State) : Except Trap State :=
  match memRead s .read .word s.isp with
  | .error t => .error t
  | .ok w =>
    match memRead s .read .word (s.isp + 4) with
    | .error t => .error t
    | .ok p => writePc p ((s.setIsp (s.isp + 8)).setSr (lowHalf w &&& srMask))

/-! ### Around an instruction's effect -/

/-- The end of an instruction that started from `s` (with `pc` advanced): a trap is taken from `s`, so
that nothing the instruction did stands (60_exceptions.md R255); otherwise its writes stand, and if
they set `P` in system mode the context switch follows (R243, log entry 9). -/
def complete (s : State) (effect : Except Trap State) : Result :=
  match effect with
  | .error t => trapEntry t s
  | .ok s1 => if !s.flagP && s1.flagP then contextSwitch .protected_ s1 else .next s1

/-- The condition of a standard instruction holds (40_conditional_execution.md R91, R95). -/
def condTrue (c : Cond) (s : State) : Bool :=
  condHolds s.cfg.signedCondUsesV c.code (s.ccReg c.reg)

/-- Steps 1 and 2 of `ExecStandard` (40_conditional_execution.md R96): a reserved condition code traps, a
false condition ends the instruction with no effect, otherwise the instruction runs. -/
def conditionally (c : Cond) (s : State) (run : Result) : Result :=
  if condReserved c.code then trapEntry .invalidOpcode s
  else if condTrue c s then run
  else .next s

/-- Step 3 of `ExecStandard` for a system mode instruction (R96): in protected mode the trap `t`. -/
def systemOnly (t : Trap) (s : State) (run : Result) : Result :=
  if s.flagP then trapEntry t s else run

/-! ### The step boundary -/

/-- The environment's inputs at this step (log entry 4). -/
def State.inputs (s : State) : Env :=
  match s.env with
  | [] => Env.quiet
  | e :: _ => e

/-- The state with this step's inputs taken and no entry made in it yet. -/
def State.beginStep (s : State) : State := (s.setEnv s.env.tail).setEntered false

/-- The fetch of the word at `pc` (40_conditional_execution.md R90, 20_memory.md R44). -/
def fetch (s : State) : Except Trap Word := memRead s .fetch .word s.pc

/-- `pc <- pc + 4` (R90, 10_state.md R15, R17). -/
def State.advance (s : State) : State := s.setPc (s.pc + 4)

/-- The registers of `Reset()` but for `pc` (70_reset_and_hazards.md R290); memory, the parameters and the
coming inputs stay. -/
def State.cleared (s : State) : State :=
  { State.reset with mem := s.mem, cfg := s.cfg, env := s.env, pc := s.pc }

/-- `Reset()` (70_reset_and_hazards.md R290, R293): every register cleared, `sr` = 0x0900, `pc` from table
entry 0. -/
def resetSequence (s : State) : Result :=
  match memRead s .read .word 0 with
  | .error _ => .fault .resetVectorRead
  | .ok v => if misaligned4 v then .refused .misalignedResetVector else .next (s.cleared.setPc v)

/-- The word that an encoding of `nbits` bits fills: a 16-bit compact instruction is Instruction 1 of a pair
whose Instruction 2 is `mov r0,r0`, the spec's own padding (46_compact.md R230, log entry 11). -/
def tableWord (nbits w : Nat) : Word :=
  if nbits ≤ 16 then BitVec.ofNat 32 (0xA0000000 + w % 2 ^ 16) else BitVec.ofNat 32 w

/-- The state with a word stored where the next step fetches. -/
def State.placeWord (s : State) (w : Word) : State := s.store .word s.pc w

end Sys2Proof.Machine
end

