-- ==== Sys2Proof/Machine/OneOperand.lean ====
section
/-!
DEFINITION. The one-operand instructions: branches, calls, the software interrupt and the loads of `cc0` and `cc1`
(44_one_operand.md R200 to R209).
-/

namespace Sys2Proof.Machine

/-- The target of an absolute branch or call: `n << 2` (R200). -/
def absTarget (n : Half) (s : State) : Word := abs16 s.cfg n

/-- The target of a relative branch or call, from the advanced `pc` (R200). -/
def relTarget (n : Half) (s : State) : Word := s.pc + rel16 s.cfg n

/-- A branch (R201, R202). -/
def branchTo (c : Cond) (target : Word) (s : State) : Result :=
  conditionally c s (complete s (writePc target s))

/-- A call through the call stack (R203, R204): pushes the advanced `pc`, then `dsp`, and jumps. -/
def callEffect (target : Word) (s : State) : Except Trap State :=
  match push32 s.pc s with
  | .error t => .error t
  | .ok s1 =>
    match push32 s.dsp s1 with
    | .error t => .error t
    | .ok s2 => writePc target s2

/-- A call through registers (R205, R206): `r8` takes `dsp`, `r9` the advanced `pc`. -/
def fastCallEffect (target : Word) (s : State) : Except Trap State :=
  writePc target ((s.setReg .r8 s.dsp).setReg .r9 s.pc)

/-- `ba $n`: branch absolute (R201). -/
def execBaN (c : Cond) (n : Half) (s : State) : Result :=
  branchTo c (absTarget n s) s

/-- `br $n`: branch relative (R202). -/
def execBrN (c : Cond) (n : Half) (s : State) : Result :=
  branchTo c (relTarget n s) s

/-- `call $n`: call absolute (R203). -/
def execCallN (c : Cond) (n : Half) (s : State) : Result :=
  conditionally c s (complete s (callEffect (absTarget n s) s))

/-- `callr $n`: call relative (R204). -/
def execCallrN (c : Cond) (n : Half) (s : State) : Result :=
  conditionally c s (complete s (callEffect (relTarget n s) s))

/-- `fcall $n`: fast call absolute (R205). -/
def execFcallN (c : Cond) (n : Half) (s : State) : Result :=
  conditionally c s (complete s (fastCallEffect (absTarget n s) s))

/-- `fcallr $n`: fast call relative (R206). -/
def execFcallrN (c : Cond) (n : Half) (s : State) : Result :=
  conditionally c s (complete s (fastCallEffect (relTarget n s) s))

/-- `int $n`: interrupt entry at the index `n[7:0]`, or the Software int Trap when `I` is set (R207). -/
def execIntN (c : Cond) (n : Half) (s : State) : Result :=
  conditionally c s (if s.flagI then trapEntry .softwareInt s else interruptEntry (n.setWidth 8) s)

/-- `lil $n`: `cc0 = n` (R208). -/
def execLilN (c : Cond) (n : Half) (s : State) : Result :=
  conditionally c s (.next (s.setCc0 n))

/-- `lih $n`: `cc1 = n` (R209). -/
def execLihN (c : Cond) (n : Half) (s : State) : Result :=
  conditionally c s (.next (s.setCc1 n))

end Sys2Proof.Machine
end

