-- ==== Sys2Proof/Machine/Reserved.lean ====
section
/-!
DEFINITION. The reserved encodings (30_encoding.md R71 to R73; 46_compact.md R235).
-/

namespace Sys2Proof.Machine

/-- The trap of step 3 of `ExecStandard` for an opcode byte, if it has one (40_conditional_execution.md
R96): decided in protected mode by the opcode byte alone. -/
def privilegeTrap (op : BitVec 7) : Option Trap :=
  if op = 0x0F then some .brk
  else if op = 0x0A ∨ op = 0x0B ∨ op = 0x34 ∨ op = 0x35 then some .protection
  else none

/-- A reserved standard word (R71, R72, R96): after the condition, in protected mode the trap of its
opcode byte, otherwise the Invalid Opcode Trap. `VV` and bits 15:0 do not matter once the word is
reserved. -/
def execReserved (c : Cond) (op : BitVec 7) (_vv : BitVec 2) (_low : Half) (s : State) : Result :=
  conditionally c s
    (match s.flagP, privilegeTrap op with
    | true, some t => trapEntry t s
    | _, _ => trapEntry .invalidOpcode s)

/-- A reserved half of a pair: the Invalid Opcode Trap in both modes, whatever its bits
(46_compact.md R235). -/
def execReservedCompact (_h : Half) (s : State) : Result := trapEntry .invalidOpcode s

end Sys2Proof.Machine
end

