-- ==== Sys2Proof/Machine/LoadStore.lean ====
section
/-!
DEFINITION. Loads and stores (42_load_store.md R130 to R168): one shared operation each, over the width, the
extension, the offset and whether the base is updated.
-/

namespace Sys2Proof.Machine

/-- The update of a base register by the access width (R131), after the access. -/
def updateBase (update : Bool) (base : Reg) (w : Width) (s : State) : Except Trap State :=
  if update then writeReg base (s.reg base + widthBytes w) s else .ok s

/-- A store (R131 to R144): base `x`, data `y`; address and data are read first, memory is written, then
the base is updated (R165). -/
def storeEffect (w : Width) (update : Bool) (x y : Reg) (off : Word) (s : State) : Except Trap State :=
  match memWrite w (s.reg x + off) (s.reg y) s with
  | .error t => .error t
  | .ok s1 => updateBase update x w s1

/-- A load (R131, R132, R145 to R164): destination `x`, base `y`; the destination is written, then the
base is updated as it then is (R165). -/
def loadEffect (w : Width) (e : Extension) (update : Bool) (x y : Reg) (off : Word) (s : State) :
    Except Trap State :=
  match memRead s .read w (s.reg y + off) with
  | .error t => .error t
  | .ok v =>
    match writeReg x (extendLoaded e w v) s with
    | .error t => .error t
    | .ok s1 => updateBase update y w s1

/-- A conditional store instruction. -/
def storeInstr (c : Cond) (w : Width) (update : Bool) (x y : Reg) (off : Word) (s : State) : Result :=
  conditionally c s (complete s (storeEffect w update x y off s))

/-- A conditional load instruction. -/
def loadInstr (c : Cond) (w : Width) (e : Extension) (update : Bool) (x y : Reg) (off : Word)
    (s : State) : Result :=
  conditionally c s (complete s (loadEffect w e update x y off s))

/-- `stb x,y,$n`: stores 8 bits (R133). -/
def execStbXYN (c : Cond) (x y : Reg) (n : Byte) (s : State) : Result :=
  storeInstr c .byte false x y (disp8 s.cfg n) s

/-- `stbu x,y,$n`: stores 8 bits, base updated (R134). -/
def execStbuXYN (c : Cond) (x y : Reg) (n : Byte) (s : State) : Result :=
  storeInstr c .byte true x y (disp8 s.cfg n) s

/-- `stbi x,y,z`: stores 8 bits, indexed (R135). -/
def execStbiXYZ (c : Cond) (x y z : Reg) (s : State) : Result :=
  storeInstr c .byte false x y (s.reg z) s

/-- `stbui x,y,z`: stores 8 bits, indexed, base updated (R136). -/
def execStbuiXYZ (c : Cond) (x y z : Reg) (s : State) : Result :=
  storeInstr c .byte true x y (s.reg z) s

/-- `sth x,y,$n`: stores 16 bits (R137). -/
def execSthXYN (c : Cond) (x y : Reg) (n : Byte) (s : State) : Result :=
  storeInstr c .half false x y (disp8 s.cfg n) s

/-- `sthu x,y,$n`: stores 16 bits, base updated (R138). -/
def execSthuXYN (c : Cond) (x y : Reg) (n : Byte) (s : State) : Result :=
  storeInstr c .half true x y (disp8 s.cfg n) s

/-- `sthi x,y,z`: stores 16 bits, indexed (R139). -/
def execSthiXYZ (c : Cond) (x y z : Reg) (s : State) : Result :=
  storeInstr c .half false x y (s.reg z) s

/-- `sthui x,y,z`: stores 16 bits, indexed, base updated (R140). -/
def execSthuiXYZ (c : Cond) (x y z : Reg) (s : State) : Result :=
  storeInstr c .half true x y (s.reg z) s

/-- `stw x,y,$n`: stores 32 bits (R141). -/
def execStwXYN (c : Cond) (x y : Reg) (n : Byte) (s : State) : Result :=
  storeInstr c .word false x y (disp8 s.cfg n) s

/-- `stwu x,y,$n`: stores 32 bits, base updated (R142). -/
def execStwuXYN (c : Cond) (x y : Reg) (n : Byte) (s : State) : Result :=
  storeInstr c .word true x y (disp8 s.cfg n) s

/-- `stwi x,y,z`: stores 32 bits, indexed (R143). -/
def execStwiXYZ (c : Cond) (x y z : Reg) (s : State) : Result :=
  storeInstr c .word false x y (s.reg z) s

/-- `stwui x,y,z`: stores 32 bits, indexed, base updated (R144). -/
def execStwuiXYZ (c : Cond) (x y z : Reg) (s : State) : Result :=
  storeInstr c .word true x y (s.reg z) s

/-- `lw x,y,$n`: loads 32 bits (R145). -/
def execLwXYN (c : Cond) (x y : Reg) (n : Byte) (s : State) : Result :=
  loadInstr c .word .zero false x y (disp8 s.cfg n) s

/-- `lwu x,y,$n`: loads 32 bits, base updated (R146). -/
def execLwuXYN (c : Cond) (x y : Reg) (n : Byte) (s : State) : Result :=
  loadInstr c .word .zero true x y (disp8 s.cfg n) s

/-- `lwi x,y,z`: loads 32 bits, indexed (R147). -/
def execLwiXYZ (c : Cond) (x y z : Reg) (s : State) : Result :=
  loadInstr c .word .zero false x y (s.reg z) s

/-- `lwui x,y,z`: loads 32 bits, indexed, base updated (R148). -/
def execLwuiXYZ (c : Cond) (x y z : Reg) (s : State) : Result :=
  loadInstr c .word .zero true x y (s.reg z) s

/-- `lzb x,y,$n`: loads 8 bits, zero-extended (R149). -/
def execLzbXYN (c : Cond) (x y : Reg) (n : Byte) (s : State) : Result :=
  loadInstr c .byte .zero false x y (disp8 s.cfg n) s

/-- `lzbu x,y,$n`: loads 8 bits, zero-extended, base updated (R150). -/
def execLzbuXYN (c : Cond) (x y : Reg) (n : Byte) (s : State) : Result :=
  loadInstr c .byte .zero true x y (disp8 s.cfg n) s

/-- `lzbi x,y,z`: loads 8 bits, zero-extended, indexed (R151). -/
def execLzbiXYZ (c : Cond) (x y z : Reg) (s : State) : Result :=
  loadInstr c .byte .zero false x y (s.reg z) s

/-- `lzbui x,y,z`: loads 8 bits, zero-extended, indexed, base updated (R152). -/
def execLzbuiXYZ (c : Cond) (x y z : Reg) (s : State) : Result :=
  loadInstr c .byte .zero true x y (s.reg z) s

/-- `lsb x,y,$n`: loads 8 bits, sign-extended (R153). -/
def execLsbXYN (c : Cond) (x y : Reg) (n : Byte) (s : State) : Result :=
  loadInstr c .byte .sign false x y (disp8 s.cfg n) s

/-- `lsbu x,y,$n`: loads 8 bits, sign-extended, base updated (R154). -/
def execLsbuXYN (c : Cond) (x y : Reg) (n : Byte) (s : State) : Result :=
  loadInstr c .byte .sign true x y (disp8 s.cfg n) s

/-- `lsbi x,y,z`: loads 8 bits, sign-extended, indexed (R155). -/
def execLsbiXYZ (c : Cond) (x y z : Reg) (s : State) : Result :=
  loadInstr c .byte .sign false x y (s.reg z) s

/-- `lsbui x,y,z`: loads 8 bits, sign-extended, indexed, base updated (R156). -/
def execLsbuiXYZ (c : Cond) (x y z : Reg) (s : State) : Result :=
  loadInstr c .byte .sign true x y (s.reg z) s

/-- `lzh x,y,$n`: loads 16 bits, zero-extended (R157). -/
def execLzhXYN (c : Cond) (x y : Reg) (n : Byte) (s : State) : Result :=
  loadInstr c .half .zero false x y (disp8 s.cfg n) s

/-- `lzhu x,y,$n`: loads 16 bits, zero-extended, base updated (R158). -/
def execLzhuXYN (c : Cond) (x y : Reg) (n : Byte) (s : State) : Result :=
  loadInstr c .half .zero true x y (disp8 s.cfg n) s

/-- `lzhi x,y,z`: loads 16 bits, zero-extended, indexed (R159). -/
def execLzhiXYZ (c : Cond) (x y z : Reg) (s : State) : Result :=
  loadInstr c .half .zero false x y (s.reg z) s

/-- `lzhui x,y,z`: loads 16 bits, zero-extended, indexed, base updated (R160). -/
def execLzhuiXYZ (c : Cond) (x y z : Reg) (s : State) : Result :=
  loadInstr c .half .zero true x y (s.reg z) s

/-- `lsh x,y,$n`: loads 16 bits, sign-extended (R161). -/
def execLshXYN (c : Cond) (x y : Reg) (n : Byte) (s : State) : Result :=
  loadInstr c .half .sign false x y (disp8 s.cfg n) s

/-- `lshu x,y,$n`: loads 16 bits, sign-extended, base updated (R162). -/
def execLshuXYN (c : Cond) (x y : Reg) (n : Byte) (s : State) : Result :=
  loadInstr c .half .sign true x y (disp8 s.cfg n) s

/-- `lshi x,y,z`: loads 16 bits, sign-extended, indexed (R163). -/
def execLshiXYZ (c : Cond) (x y z : Reg) (s : State) : Result :=
  loadInstr c .half .sign false x y (s.reg z) s

/-- `lshui x,y,z`: loads 16 bits, sign-extended, indexed, base updated (R164). -/
def execLshuiXYZ (c : Cond) (x y z : Reg) (s : State) : Result :=
  loadInstr c .half .sign true x y (s.reg z) s

end Sys2Proof.Machine
end

