-- ==== Sys2Proof/Machine/ThreeOperand.lean ====
section
/-!
DEFINITION. The three-operand arithmetic, logic, shift and rotate instructions (41_three_operand_alu.md R100 to
R116). None writes a flag (R100, decision D3) unless its destination is register 14, 10 or 11.
-/

namespace Sys2Proof.Machine

/-- The write of one result: all sources are read before it (R100). -/
def writeResult (c : Cond) (x : Reg) (v : Word) (s : State) : Result :=
  conditionally c s (complete s (writeReg x v s))

/-- The write of two results, `x` first and register 10 last (R103 to R106, decision D13). -/
def writePair (x : Reg) (first second : Word) (s : State) : Except Trap State :=
  match writeReg x first s with
  | .error t => .error t
  | .ok s1 => writeReg .cc10 second s1

/-- `r10:x` takes a 64-bit product (R103, R104). -/
def writeProduct (c : Cond) (x : Reg) (p : BitVec 64) (s : State) : Result :=
  conditionally c s (complete s (writePair x (lowWord p) (highWord p) s))

/-- `x` takes a quotient and register 10 a remainder, or the Math Trap when the divisor is 0 (R105,
R106). -/
def writeDivision (c : Cond) (x : Reg) (divisor q r : Word) (s : State) : Result :=
  conditionally c s (complete s (if divisor = 0 then .error .math else writePair x q r s))

/-- The amount of `sar`, `shl`, `shr` (R112, R115, R116): the whole value of register `Z`, or with
`SHIFT_BY_REGISTER` false the 4-bit field itself (90_conflicts.md C3). -/
def shiftAmount (z : Reg) (s : State) : Nat :=
  if s.cfg.shiftByRegister then (s.reg z).toNat else z.toBits.toNat

/-- `add x,y,z`: `x = y + z` modulo 2^32 (R101). -/
def execAddXYZ (c : Cond) (x y z : Reg) (s : State) : Result :=
  writeResult c x (s.reg y + s.reg z) s

/-- `sub x,y,z`: `x = y - z` modulo 2^32 (R102). -/
def execSubXYZ (c : Cond) (x y z : Reg) (s : State) : Result :=
  writeResult c x (s.reg y - s.reg z) s

/-- `umul x,y,z`: the unsigned 64-bit product (R103). -/
def execUmulXYZ (c : Cond) (x y z : Reg) (s : State) : Result :=
  writeProduct c x (unsignedProduct (s.reg y) (s.reg z)) s

/-- `smul x,y,z`: the signed 64-bit product (R104). -/
def execSmulXYZ (c : Cond) (x y z : Reg) (s : State) : Result :=
  writeProduct c x (signedProduct (s.reg y) (s.reg z)) s

/-- `udiv x,y,z`: unsigned quotient and remainder (R105). -/
def execUdivXYZ (c : Cond) (x y z : Reg) (s : State) : Result :=
  writeDivision c x (s.reg z) (unsignedQuotient (s.reg y) (s.reg z)) (unsignedRemainder (s.reg y) (s.reg z)) s

/-- `sdiv x,y,z`: signed quotient and remainder (R106). -/
def execSdivXYZ (c : Cond) (x y z : Reg) (s : State) : Result :=
  writeDivision c x (s.reg z) (signedQuotient (s.reg y) (s.reg z)) (signedRemainder (s.reg y) (s.reg z)) s

/-- `rotl x,y,z`: rotation left by register `z` (R107). -/
def execRotlXYZ (c : Cond) (x y z : Reg) (s : State) : Result :=
  writeResult c x (rotl (s.reg y) (s.reg z).toNat) s

/-- `rotr x,y,z`: rotation right by register `z` (R108). -/
def execRotrXYZ (c : Cond) (x y z : Reg) (s : State) : Result :=
  writeResult c x (rotr (s.reg y) (s.reg z).toNat) s

/-- `and x,y,z`: `x = y & z` (R109). -/
def execAndXYZ (c : Cond) (x y z : Reg) (s : State) : Result :=
  writeResult c x (s.reg y &&& s.reg z) s

/-- `or x,y,z`: `x = y | z` (R110). -/
def execOrXYZ (c : Cond) (x y z : Reg) (s : State) : Result :=
  writeResult c x (s.reg y ||| s.reg z) s

/-- `xor x,y,z`: `x = y ^ z` (R111). -/
def execXorXYZ (c : Cond) (x y z : Reg) (s : State) : Result :=
  writeResult c x (s.reg y ^^^ s.reg z) s

/-- `sar x,y,z`: arithmetic shift right (R112). -/
def execSarXYZ (c : Cond) (x y z : Reg) (s : State) : Result :=
  writeResult c x (sar (s.reg y) (shiftAmount z s)) s

/-- `rotl x,y,$n`: rotation left by a constant (R113). -/
def execRotlXYN (c : Cond) (x y : Reg) (n : Byte) (s : State) : Result :=
  writeResult c x (rotl (s.reg y) n.toNat) s

/-- `rotr x,y,$n`: rotation right by a constant (R114). -/
def execRotrXYN (c : Cond) (x y : Reg) (n : Byte) (s : State) : Result :=
  writeResult c x (rotr (s.reg y) n.toNat) s

/-- `shl x,y,z`: shift left; `sal` is another name (R115). -/
def execShlXYZ (c : Cond) (x y z : Reg) (s : State) : Result :=
  writeResult c x (shl (s.reg y) (shiftAmount z s)) s

/-- `shr x,y,z`: logical shift right (R116). -/
def execShrXYZ (c : Cond) (x y z : Reg) (s : State) : Result :=
  writeResult c x (shr (s.reg y) (shiftAmount z s)) s

end Sys2Proof.Machine
end

