-- ==== Sys2Proof/Machine/TwoOperand.lean ====
section
/-!
DEFINITION. The two-operand instructions (43_two_operand.md R170 to R195).
-/

namespace Sys2Proof.Machine

/-- The exchange of two registers, both read first (R172). -/
def swapEffect (x y : Reg) (s : State) : Except Trap State :=
  match writeReg x (s.reg y) s with
  | .error t => .error t
  | .ok s1 => writeReg y (s.reg x) s1

/-- A push on register `x` (R189): the access is checked, `x` is decremented, then `y` is read and stored
(decision D13). -/
def pushEffect (x y : Reg) (s : State) : Except Trap State :=
  match checkAccess s .write .word (s.reg x - 4) with
  | .error t => .error t
  | .ok _ =>
    match writeReg x (s.reg x - 4) s with
    | .error t => .error t
    | .ok s1 => memWrite .word (s.reg x - 4) (s1.reg y) s1

/-- `sr` after `cmp` (R174): `I`, `P`, `S`, `T`, `F` keep their values. -/
def compareSr (a b : Word) (s : State) : Half := (s.sr &&& srControlMask) ||| flagsOf a b

/-- `mov x,y`: `x = y` (R171). -/
def execMovXY (c : Cond) (x y : Reg) (s : State) : Result :=
  writeResult c x (s.reg y) s

/-- `swp x,y`: `x` and `y` exchanged (R172). -/
def execSwpXY (c : Cond) (x y : Reg) (s : State) : Result :=
  conditionally c s (complete s (swapEffect x y s))

/-- `not x,y`: the bitwise complement (decision D9) (R173). -/
def execNotXY (c : Cond) (x y : Reg) (s : State) : Result :=
  writeResult c x (~~~(s.reg y)) s

/-- `cmp x,y`: the flags of `x - y` into `sr` (R174). -/
def execCmpXY (c : Cond) (x y : Reg) (s : State) : Result :=
  conditionally c s (.next (s.setSr (compareSr (s.reg x) (s.reg y) s)))

/-- `sxb x,y`: sign-extends 8 bits (R175). -/
def execSxbXY (c : Cond) (x y : Reg) (s : State) : Result :=
  writeResult c x (sext8 (s.reg y)) s

/-- `sxw x,y`: sign-extends 16 bits (R176). -/
def execSxwXY (c : Cond) (x y : Reg) (s : State) : Result :=
  writeResult c x (sext16 (s.reg y)) s

/-- `zxb x,y`: zero-extends 8 bits (R177). -/
def execZxbXY (c : Cond) (x y : Reg) (s : State) : Result :=
  writeResult c x (zext8 (s.reg y)) s

/-- `zxw x,y`: zero-extends 16 bits (R178). -/
def execZxwXY (c : Cond) (x y : Reg) (s : State) : Result :=
  writeResult c x (zext16 (s.reg y)) s

/-- `cpr0 x,y`: the flags of `x - y` into `cc0`, all 16 bits (R179). -/
def execCpr0XY (c : Cond) (x y : Reg) (s : State) : Result :=
  conditionally c s (.next (s.setCc0 (flagsOf (s.reg x) (s.reg y))))

/-- `cpr1 x,y`: the flags of `x - y` into `cc1`, all 16 bits (R180). -/
def execCpr1XY (c : Cond) (x y : Reg) (s : State) : Result :=
  conditionally c s (.next (s.setCc1 (flagsOf (s.reg x) (s.reg y))))

/-- `cpr2 x,y`: the flags of `x - y` into `cc2`, all 16 bits (R181). -/
def execCpr2XY (c : Cond) (x y : Reg) (s : State) : Result :=
  conditionally c s (.next (s.setCc2 (flagsOf (s.reg x) (s.reg y))))

/-- `cpr3 x,y`: the flags of `x - y` into `cc3`, all 16 bits (R182). -/
def execCpr3XY (c : Cond) (x y : Reg) (s : State) : Result :=
  conditionally c s (.next (s.setCc3 (flagsOf (s.reg x) (s.reg y))))

/-- `mvhh x,y`: high half of `y` to high half of `x` (R183). -/
def execMvhhXY (c : Cond) (x y : Reg) (s : State) : Result :=
  writeResult c x (joinHalves (highHalf (s.reg y)) (lowHalf (s.reg x))) s

/-- `mvhl x,y`: high half of `y` to low half of `x` (R184). -/
def execMvhlXY (c : Cond) (x y : Reg) (s : State) : Result :=
  writeResult c x (joinHalves (highHalf (s.reg x)) (highHalf (s.reg y))) s

/-- `mvlh x,y`: low half of `y` to high half of `x` (R185). -/
def execMvlhXY (c : Cond) (x y : Reg) (s : State) : Result :=
  writeResult c x (joinHalves (lowHalf (s.reg y)) (lowHalf (s.reg x))) s

/-- `mvll x,y`: low half of `y` to low half of `x` (R186). -/
def execMvllXY (c : Cond) (x y : Reg) (s : State) : Result :=
  writeResult c x (joinHalves (highHalf (s.reg x)) (lowHalf (s.reg y))) s

/-- `add x,$n`: `x = x + n` modulo 2^32 (R187). -/
def execAddXN (c : Cond) (x : Reg) (n : BitVec 12) (s : State) : Result :=
  writeResult c x (s.reg x + imm12 s.cfg n) s

/-- `sub x,$n`: `x = x - n` modulo 2^32 (R188). -/
def execSubXN (c : Cond) (x : Reg) (n : BitVec 12) (s : State) : Result :=
  writeResult c x (s.reg x - imm12 s.cfg n) s

/-- `push x,y`: `x -= 4; *(x) = y` (R189). -/
def execPushXY (c : Cond) (x y : Reg) (s : State) : Result :=
  conditionally c s (complete s (pushEffect x y s))

/-- `pop x,y`: `x = *(y); y += 4`, the operation of `lwu x,y,$0` (R190). -/
def execPopXY (c : Cond) (x y : Reg) (s : State) : Result :=
  loadInstr c .word .zero true x y 0 s

/-- `mov ssp,y`: `ssp = y`, system mode only (R191). -/
def execMovSspY (c : Cond) (y : Reg) (s : State) : Result :=
  conditionally c s (systemOnly .protection s (.next (s.setSsp (s.reg y))))

/-- `mov spc,y`: `spc = y`, system mode only, no alignment check (R192). -/
def execMovSpcY (c : Cond) (y : Reg) (s : State) : Result :=
  conditionally c s (systemOnly .protection s (.next (s.setSpc (s.reg y))))

/-- `mov x,ssp`: `x = ssp`, system mode only (R193). -/
def execMovXSsp (c : Cond) (x : Reg) (s : State) : Result :=
  conditionally c s (systemOnly .protection s (complete s (writeReg x s.ssp s)))

/-- `mov x,spc`: `x = spc`, system mode only (R194). -/
def execMovXSpc (c : Cond) (x : Reg) (s : State) : Result :=
  conditionally c s (systemOnly .protection s (complete s (writeReg x s.spc s)))

end Sys2Proof.Machine
end

