-- ==== Sys2Proof/Machine/ZeroOperand.lean ====
section
/-!
DEFINITION. The zero-operand instructions (45_zero_operand.md R220 to R225).
-/

namespace Sys2Proof.Machine

/-- The return of a stack call (R221): pops `dsp`, then `pc`. -/
def returnEffect (s : State) : Except Trap State :=
  match memRead s .read .word s.isp with
  | .error t => .error t
  | .ok d =>
    match memRead s .read .word (s.isp + 4) with
    | .error t => .error t
    | .ok t => writePc t ((s.setDsp d).setIsp (s.isp + 8))

/-- The return of a fast call (R222): `dsp` from `r8`, `pc` from `r9`. -/
def fastReturnEffect (s : State) : Except Trap State := writePc s.r9 (s.setDsp s.r8)

/-- `ret`: pops `dsp`, then `pc` (R221). -/
def execRet (c : Cond) (s : State) : Result :=
  conditionally c s (complete s (returnEffect s))

/-- `fret`: `dsp = r8; pc = r9` (R222). -/
def execFret (c : Cond) (s : State) : Result :=
  conditionally c s (complete s (fastReturnEffect s))

/-- `sleep`: sets `F`, system mode only (R223). -/
def execSleep (c : Cond) (s : State) : Result :=
  conditionally c s (systemOnly .protection s (.next (s.setSr (s.sr ||| srF))))

/-- `rfi`: return from interrupt, system mode only (R224). -/
def execRfi (c : Cond) (s : State) : Result :=
  conditionally c s (systemOnly .protection s (complete s (returnFromEntry s)))

/-- `brk`: no effect in system mode (decision D24), the Break Trap in protected mode (R225). -/
def execBrk (c : Cond) (s : State) : Result :=
  conditionally c s (systemOnly .brk s (.next s))

end Sys2Proof.Machine
end

