-- ==== Sys2Proof/Machine/Dispatch.lean ====
section
/-! DEFINITION. One arm per instruction: each a direct call of its meaning. `s` has `pc` advanced past the
word (40_conditional_execution.md R90). -/

namespace Sys2Proof.Machine

def exec (i : Instr) (s : State) : Host.Outcome State Fault Refusal :=
  match i with
  | .addXYZ c x y z => Sys2Proof.Machine.execAddXYZ c x y z s
  | .subXYZ c x y z => Sys2Proof.Machine.execSubXYZ c x y z s
  | .umulXYZ c x y z => Sys2Proof.Machine.execUmulXYZ c x y z s
  | .smulXYZ c x y z => Sys2Proof.Machine.execSmulXYZ c x y z s
  | .udivXYZ c x y z => Sys2Proof.Machine.execUdivXYZ c x y z s
  | .sdivXYZ c x y z => Sys2Proof.Machine.execSdivXYZ c x y z s
  | .rotlXYZ c x y z => Sys2Proof.Machine.execRotlXYZ c x y z s
  | .rotrXYZ c x y z => Sys2Proof.Machine.execRotrXYZ c x y z s
  | .andXYZ c x y z => Sys2Proof.Machine.execAndXYZ c x y z s
  | .orXYZ c x y z => Sys2Proof.Machine.execOrXYZ c x y z s
  | .xorXYZ c x y z => Sys2Proof.Machine.execXorXYZ c x y z s
  | .sarXYZ c x y z => Sys2Proof.Machine.execSarXYZ c x y z s
  | .rotlXYN c x y n => Sys2Proof.Machine.execRotlXYN c x y n s
  | .rotrXYN c x y n => Sys2Proof.Machine.execRotrXYN c x y n s
  | .shlXYZ c x y z => Sys2Proof.Machine.execShlXYZ c x y z s
  | .shrXYZ c x y z => Sys2Proof.Machine.execShrXYZ c x y z s
  | .stbXYN c x y n => Sys2Proof.Machine.execStbXYN c x y n s
  | .stbuXYN c x y n => Sys2Proof.Machine.execStbuXYN c x y n s
  | .stbiXYZ c x y z => Sys2Proof.Machine.execStbiXYZ c x y z s
  | .stbuiXYZ c x y z => Sys2Proof.Machine.execStbuiXYZ c x y z s
  | .sthXYN c x y n => Sys2Proof.Machine.execSthXYN c x y n s
  | .sthuXYN c x y n => Sys2Proof.Machine.execSthuXYN c x y n s
  | .sthiXYZ c x y z => Sys2Proof.Machine.execSthiXYZ c x y z s
  | .sthuiXYZ c x y z => Sys2Proof.Machine.execSthuiXYZ c x y z s
  | .stwXYN c x y n => Sys2Proof.Machine.execStwXYN c x y n s
  | .stwuXYN c x y n => Sys2Proof.Machine.execStwuXYN c x y n s
  | .stwiXYZ c x y z => Sys2Proof.Machine.execStwiXYZ c x y z s
  | .stwuiXYZ c x y z => Sys2Proof.Machine.execStwuiXYZ c x y z s
  | .lwXYN c x y n => Sys2Proof.Machine.execLwXYN c x y n s
  | .lwuXYN c x y n => Sys2Proof.Machine.execLwuXYN c x y n s
  | .lwiXYZ c x y z => Sys2Proof.Machine.execLwiXYZ c x y z s
  | .lwuiXYZ c x y z => Sys2Proof.Machine.execLwuiXYZ c x y z s
  | .lzbXYN c x y n => Sys2Proof.Machine.execLzbXYN c x y n s
  | .lzbuXYN c x y n => Sys2Proof.Machine.execLzbuXYN c x y n s
  | .lzbiXYZ c x y z => Sys2Proof.Machine.execLzbiXYZ c x y z s
  | .lzbuiXYZ c x y z => Sys2Proof.Machine.execLzbuiXYZ c x y z s
  | .lsbXYN c x y n => Sys2Proof.Machine.execLsbXYN c x y n s
  | .lsbuXYN c x y n => Sys2Proof.Machine.execLsbuXYN c x y n s
  | .lsbiXYZ c x y z => Sys2Proof.Machine.execLsbiXYZ c x y z s
  | .lsbuiXYZ c x y z => Sys2Proof.Machine.execLsbuiXYZ c x y z s
  | .lzhXYN c x y n => Sys2Proof.Machine.execLzhXYN c x y n s
  | .lzhuXYN c x y n => Sys2Proof.Machine.execLzhuXYN c x y n s
  | .lzhiXYZ c x y z => Sys2Proof.Machine.execLzhiXYZ c x y z s
  | .lzhuiXYZ c x y z => Sys2Proof.Machine.execLzhuiXYZ c x y z s
  | .lshXYN c x y n => Sys2Proof.Machine.execLshXYN c x y n s
  | .lshuXYN c x y n => Sys2Proof.Machine.execLshuXYN c x y n s
  | .lshiXYZ c x y z => Sys2Proof.Machine.execLshiXYZ c x y z s
  | .lshuiXYZ c x y z => Sys2Proof.Machine.execLshuiXYZ c x y z s
  | .movXY c x y => Sys2Proof.Machine.execMovXY c x y s
  | .swpXY c x y => Sys2Proof.Machine.execSwpXY c x y s
  | .notXY c x y => Sys2Proof.Machine.execNotXY c x y s
  | .cmpXY c x y => Sys2Proof.Machine.execCmpXY c x y s
  | .sxbXY c x y => Sys2Proof.Machine.execSxbXY c x y s
  | .sxwXY c x y => Sys2Proof.Machine.execSxwXY c x y s
  | .zxbXY c x y => Sys2Proof.Machine.execZxbXY c x y s
  | .zxwXY c x y => Sys2Proof.Machine.execZxwXY c x y s
  | .cpr0XY c x y => Sys2Proof.Machine.execCpr0XY c x y s
  | .cpr1XY c x y => Sys2Proof.Machine.execCpr1XY c x y s
  | .cpr2XY c x y => Sys2Proof.Machine.execCpr2XY c x y s
  | .cpr3XY c x y => Sys2Proof.Machine.execCpr3XY c x y s
  | .mvhhXY c x y => Sys2Proof.Machine.execMvhhXY c x y s
  | .mvhlXY c x y => Sys2Proof.Machine.execMvhlXY c x y s
  | .mvlhXY c x y => Sys2Proof.Machine.execMvlhXY c x y s
  | .mvllXY c x y => Sys2Proof.Machine.execMvllXY c x y s
  | .addXN c x n => Sys2Proof.Machine.execAddXN c x n s
  | .subXN c x n => Sys2Proof.Machine.execSubXN c x n s
  | .pushXY c x y => Sys2Proof.Machine.execPushXY c x y s
  | .popXY c x y => Sys2Proof.Machine.execPopXY c x y s
  | .movSspY c y => Sys2Proof.Machine.execMovSspY c y s
  | .movSpcY c y => Sys2Proof.Machine.execMovSpcY c y s
  | .movXSsp c x => Sys2Proof.Machine.execMovXSsp c x s
  | .movXSpc c x => Sys2Proof.Machine.execMovXSpc c x s
  | .baN c n => Sys2Proof.Machine.execBaN c n s
  | .brN c n => Sys2Proof.Machine.execBrN c n s
  | .callN c n => Sys2Proof.Machine.execCallN c n s
  | .callrN c n => Sys2Proof.Machine.execCallrN c n s
  | .fcallN c n => Sys2Proof.Machine.execFcallN c n s
  | .fcallrN c n => Sys2Proof.Machine.execFcallrN c n s
  | .intN c n => Sys2Proof.Machine.execIntN c n s
  | .lilN c n => Sys2Proof.Machine.execLilN c n s
  | .lihN c n => Sys2Proof.Machine.execLihN c n s
  | .ret c => Sys2Proof.Machine.execRet c s
  | .fret c => Sys2Proof.Machine.execFret c s
  | .sleep c => Sys2Proof.Machine.execSleep c s
  | .rfi c => Sys2Proof.Machine.execRfi c s
  | .brk c => Sys2Proof.Machine.execBrk c s
  | .reserved c op vv low => Sys2Proof.Machine.execReserved c op vv low s
  | .reservedCompact h => Sys2Proof.Machine.execReservedCompact h s

end Sys2Proof.Machine
end

