-- ==== Sys2Proof/Machine/Cycle.lean ====
section
/-!
DEFINITION. The instruction cycle (40_conditional_execution.md R90): the events of the step boundary in
their order of priority (60_exceptions.md R268), then one fetched word, a standard instruction or a
compact pair (46_compact.md R231).
-/

namespace Sys2Proof.Machine

/-- Runs what a fetched word holds, `pc` being advanced. Instruction 2 of a pair sees every effect of
Instruction 1 and is not reached if Instruction 1 trapped or entered an interrupt (46_compact.md
R231, R236). -/
def execFetched (f : Fetched) (s : State) : Result :=
  match f with
  | .single i => exec i s
  | .pair i1 i2 => andThen (exec i1 s) fun s1 => if s1.entered then .next s1 else exec i2 s1

/-- The halted check, the fetch, the advance of `pc` and the execution (R90); a failed fetch traps with
`pc` advanced (20_memory.md R47). -/
def runWord (s : State) : Result :=
  if s.flagF then .next s
  else
    match fetch s with
    | .error t => trapEntry t s.advance
    | .ok w => execFetched (decodeWord w) s.advance

/-- One step under the inputs `e` (R90): the reset line (70_reset_and_hazards.md R292), the NMI, a hardware
interrupt if `I` = 0, otherwise one word. -/
def cycleUnder (e : Env) (s : State) : Result :=
  if !e.resetN then .next (s.setInReset true)
  else if s.inReset then resetSequence s
  else if e.nmi then interruptEntry s.cfg.nmiIndex s
  else
    match e.irq with
    | some i => if s.flagI then runWord s else interruptEntry i s
    | none => runWord s

/-- One step: the next inputs are taken from the list; the record of an entry ends with the step. -/
def cycle (s : State) : Result :=
  andThen (cycleUnder s.inputs s.beginStep) fun s1 => .next (s1.setEntered false)

end Sys2Proof.Machine
end

