-- ==== Sys2Proof/Machine/Step.lean ====
section
/-! DEFINITION. One step of the machine, and the placing of one instruction where it fetches. -/

namespace Sys2Proof.Machine

/-- One step (40_conditional_execution.md R90). -/
def step (s : State) : Host.Outcome State Fault Refusal := cycle s

/-- The state with an encoding of `nbits` bits stored at `pc` (a 16-bit one completed to a pair, log entry
11), so that the next step runs it when no event is due and the machine is not halted. -/
def State.withFetchWord (s : State) (nbits w : Nat) : State := s.placeWord (tableWord nbits w)

end Sys2Proof.Machine
end

