-- ==== Sys2Proof/Safety.lean ====
section
/-!
DEFINITION. What the claims call a good state and a good step: the invariant of the registers and memory
that the rules promise, what an instruction leaves unchanged, when the shared operations complete and how, and
tables that name, for the instructions of one shape, the registers and the memory they write.
-/

namespace Sys2Proof

/-- A register whose write neither traps nor changes the mode: every number but 14 and 15
(10_state.md R21). -/
def Reg.plain : Reg → Bool
  | .sr => false
  | .pc => false
  | _ => true

/-- The condition in an instruction's own word; a reserved half of a pair has none
(40_conditional_execution.md R96, R97). -/
def condOf : Instr → Option Cond
  | .reservedCompact _ => none
  | i => some (encodeFields i).cond

end Sys2Proof

namespace Sys2Proof.Machine

/-! ### Good states -/

/-- Bits 1:0 of `pc` are zero (10_state.md R14). -/
def State.pcAligned (s : State) : Prop := misaligned4 s.pc = false

/-- The bits of `sr` that are hardwired to zero are zero (10_state.md R26). -/
def State.srLegal (s : State) : Prop := s.sr &&& ~~~srMask = 0

/-- Memory is in canonical form. -/
def State.memCanonical (s : State) : Prop := Memory.wf s.mem = true

/-- The invariant of every state a run reaches: `pc` aligned, the hardwired bits of `sr` zero, memory
canonical, no entry pending at a step boundary. -/
structure State.Inv (s : State) : Prop where
  pcAligned : s.pcAligned
  srLegal : s.srLegal
  memCanonical : s.memCanonical
  notEntered : s.entered = false

/-- No event is due at the coming step: the reset line is and was high, no NMI, and no hardware interrupt
that `I` lets through (40_conditional_execution.md R90). -/
def State.NoEvent (s : State) : Prop :=
  s.inputs.resetN = true ∧ s.inReset = false ∧ s.inputs.nmi = false ∧
    (s.inputs.irq = none ∨ s.flagI = true)

/-- The condition is legal and holds, so that the instruction's own effect is reached
(40_conditional_execution.md R96). -/
def State.Runs (s : State) (c : Cond) : Prop :=
  condReserved c.code = false ∧ condTrue c s = true

/-! ### Frames -/

/-- Everything but the numbered registers of `D`, and memory, is as before. -/
structure KeepsRegs (D : List Reg) (s t : State) : Prop where
  regs : ∀ j, j ∉ D → t.reg j = s.reg j
  ssp : t.ssp = s.ssp
  spc : t.spc = s.spc
  cfg : t.cfg = s.cfg
  env : t.env = s.env
  inReset : t.inReset = s.inReset
  entered : t.entered = s.entered

/-- Every byte of memory reads as before. -/
def KeepsMem (s t : State) : Prop := ∀ b, byteAt t.mem b = byteAt s.mem b

/-- Every byte outside the `n` bytes from address `a` (modulo 2^32) reads as before. -/
def KeepsMemOutside (a n : Word) (s t : State) : Prop :=
  ∀ b, n ≤ b - a → byteAt t.mem b = byteAt s.mem b

/-- Only the numbered registers of `D` may differ. -/
def Changes (D : List Reg) (s t : State) : Prop := KeepsRegs D s t ∧ KeepsMem s t

/-- The word at an address, in the machine's byte order. -/
def State.wordAt (s : State) (a : Word) : Word := valueAt s.cfg.byteOrder s.mem a .word

/-! ### Values -/

/-- The low 8, 16 or 32 bits of a value: `LOWER_8`, `LOWER_16`, all (20_memory.md R48). -/
def lowerBits (w : Width) (v : Word) : Word :=
  match w with
  | .byte => v &&& 0xFF
  | .half => v &&& 0xFFFF
  | .word => v

/-- `v` is what a load of this width and extension makes of the bytes from address `a`
(20_memory.md R44, R48). -/
def LoadedFrom (s : State) (e : Extension) (w : Width) (a v : Word) : Prop :=
  match w, e with
  | .byte, .zero => v.toNat = (byteAt s.mem a).toNat
  | .byte, .sign => v.toInt = (byteAt s.mem a).toInt
  | .half, .zero => v.toNat = (halfOfBytes s.cfg.byteOrder (byteAt s.mem a) (byteAt s.mem (a + 1))).toNat
  | .half, .sign => v.toInt = (halfOfBytes s.cfg.byteOrder (byteAt s.mem a) (byteAt s.mem (a + 1))).toInt
  | .word, _ => v = s.wordAt a

/-- The offset of the immediate forms of loads and stores: the 8-bit field, signed if `DISP8_SIGNED`, not
scaled (30_encoding.md R68, 42_load_store.md R131). -/
def displacement (s : State) (n : Byte) : Word :=
  BitVec.ofInt 32 (if s.cfg.disp8Signed then n.toInt else (n.toNat : Int))

/-- The target of `ba`, `call`, `fcall`: 4 times the immediate (44_one_operand.md R200). -/
def absoluteTo (s : State) (n : Half) : Word :=
  BitVec.ofInt 32 (4 * (if s.cfg.abs16Signed then n.toInt else (n.toNat : Int)))

/-- The target of `br`, `callr`, `fcallr`: 4 times the immediate from the advanced `pc` (R200). -/
def relativeTo (s : State) (n : Half) : Word :=
  s.pc + BitVec.ofInt 32 (4 * (if s.cfg.rel16Signed then n.toInt else (n.toNat : Int)))

/-! ### Entries -/

/-- The call stack pointer an entry pushes on: the system mode's (60_exceptions.md R244). -/
def entryIsp (s : State) : Word := if s.flagP then s.ssp else s.isp

/-- The `pc` an entry pushes: the one after the switch to system mode (60_exceptions.md R249, R250). -/
def entryPc (s : State) : Word := if s.flagP then s.spc else s.pc

/-- `sr` after the switch to system mode, with the bits `clear` cleared. -/
def entrySr (clear : Half) (s : State) : Half :=
  (if s.flagP then s.sr &&& 0xFDFF else s.sr) &&& ~~~clear

/-- The `sr` word of the frame, with bit 9 as it was if `ENTRY_PUSHES_OLD_P` (R249). -/
def entryWord (clear : Half) (s : State) : Word :=
  (if s.cfg.entryPushesOldP && s.flagP then entrySr clear s ||| 0x0200 else entrySr clear s).setWidth 32

/-- Memory after the two pushes of an entry (R249, R250). -/
def entryMem (clear : Half) (s : State) : List Host.Cell :=
  putValue s.cfg.byteOrder (putValue s.cfg.byteOrder s.mem (entryIsp s - 4) (entryPc s) .word)
    (entryIsp s - 8) (entryWord clear s) .word

/-- The table entry an entry reads, after its pushes (R245). -/
def entryVector (index : Byte) (clear : Half) (s : State) : Word :=
  valueAt s.cfg.byteOrder (entryMem clear s) (BitVec.ofNat 32 (4 * index.toNat)) .word

/-- The two pushes of an entry can be made (60_exceptions.md R265). -/
def EntryPushable (s : State) : Prop :=
  misaligned4 (entryIsp s) = false ∧ accessOk s.cfg .write .word (entryIsp s - 4) = true ∧
    accessOk s.cfg .write .word (entryIsp s - 8) = true

/-- The switch to system mode, if one is needed, brings an aligned `spc` into `pc` (R264). -/
def EntrySwitchable (s : State) : Prop := s.flagP = true → misaligned4 s.spc = false

/-- An entry at a table index can be made (R264, R265). -/
structure EntryReady (index : Byte) (clear : Half) (s : State) : Prop where
  switchable : EntrySwitchable s
  pushable : EntryPushable s
  readable : accessOk s.cfg .read .word (BitVec.ofNat 32 (4 * index.toNat)) = true
  aligned : misaligned4 (entryVector index clear s) = false

/-- `t` is `s` after an entry at a table index that cleared the bits `clear` of `sr` before the pushes and
set the bits `set` after them (R249, R250). -/
structure EntryTo (index : Byte) (clear set : Half) (s t : State) : Prop where
  pc : t.pc = entryVector index clear s
  isp : t.isp = entryIsp s - 8
  sr : t.sr = entrySr clear s ||| set
  ssp : t.ssp = if s.flagP then s.isp else s.ssp
  spc : t.spc = if s.flagP then s.pc else s.spc
  framePc : t.wordAt (entryIsp s - 4) = entryPc s
  frameSr : t.wordAt (entryIsp s - 8) = entryWord clear s
  mem : KeepsMemOutside (entryIsp s - 8) 8 s t
  regs : ∀ j, j ∉ [Reg.pc, Reg.isp, Reg.sr] → t.reg j = s.reg j
  cfg : t.cfg = s.cfg
  env : t.env = s.env
  inReset : t.inReset = s.inReset
  entered : t.entered = true

/-- `t` is `s` with `isp` ↔ `ssp`, `pc` ↔ `spc` exchanged and `sr` = `v` (60_exceptions.md R241). -/
structure Switched (v : Half) (s t : State) : Prop where
  sr : t.sr = v
  isp : t.isp = s.ssp
  ssp : t.ssp = s.isp
  pc : t.pc = s.spc
  spc : t.spc = s.pc
  regs : ∀ j, j ∉ [Reg.pc, Reg.isp, Reg.sr] → t.reg j = s.reg j
  mem : KeepsMem s t
  cfg : t.cfg = s.cfg
  env : t.env = s.env
  inReset : t.inReset = s.inReset
  entered : t.entered = s.entered

/-! ### The end of an instruction -/

/-- `r` is how an instruction that started from `s` ends, given the traps or the writes of its effect: a
trap is taken from `s`; otherwise the writes stand, unless they set `P` in system mode, when the context
switch follows them, refused if `spc` is misaligned (60_exceptions.md R243, R255, R264; decisions D11,
D22, D25; log entries 7 and 9). -/
structure EndsAs (s : State) (effect : Except Trap State) (r : Result) : Prop where
  traps : ∀ t, effect = .error t → r = trapEntry t s
  stays : ∀ u, effect = .ok u → s.flagP = true ∨ u.flagP = false → r = .next u
  switches : ∀ u, effect = .ok u → s.flagP = false → u.flagP = true → misaligned4 u.spc = false →
    ∃ t, r = .next t ∧ Switched u.sr u t
  refused : ∀ u, effect = .ok u → s.flagP = false → u.flagP = true → misaligned4 u.spc = true →
    r = .refused .misalignedSpc

/-! ### Tables of the instructions of one shape -/

/-- The register writes, in order, of the instructions that touch no memory and end in register writes
only (41_three_operand_alu.md, 43_two_operand.md, 44_one_operand.md, 45_zero_operand.md): a division by
zero and a context move in protected mode write nothing and have no row. -/
def registerWrites (i : Instr) (s : State) : Option (Cond × List (Reg × Word)) :=
  match i with
  | .addXYZ c x y z => some (c, [(x, s.reg y + s.reg z)])
  | .subXYZ c x y z => some (c, [(x, s.reg y - s.reg z)])
  | .umulXYZ c x y z =>
    let p := unsignedProduct (s.reg y) (s.reg z)
    some (c, [(x, lowWord p), (.cc10, highWord p)])
  | .smulXYZ c x y z =>
    let p := signedProduct (s.reg y) (s.reg z)
    some (c, [(x, lowWord p), (.cc10, highWord p)])
  | .udivXYZ c x y z =>
    if s.reg z = 0 then none
    else some (c, [(x, unsignedQuotient (s.reg y) (s.reg z)), (.cc10, unsignedRemainder (s.reg y) (s.reg z))])
  | .sdivXYZ c x y z =>
    if s.reg z = 0 then none
    else some (c, [(x, signedQuotient (s.reg y) (s.reg z)), (.cc10, signedRemainder (s.reg y) (s.reg z))])
  | .rotlXYZ c x y z => some (c, [(x, rotl (s.reg y) (s.reg z).toNat)])
  | .rotrXYZ c x y z => some (c, [(x, rotr (s.reg y) (s.reg z).toNat)])
  | .andXYZ c x y z => some (c, [(x, s.reg y &&& s.reg z)])
  | .orXYZ c x y z => some (c, [(x, s.reg y ||| s.reg z)])
  | .xorXYZ c x y z => some (c, [(x, s.reg y ^^^ s.reg z)])
  | .sarXYZ c x y z => some (c, [(x, sar (s.reg y) (shiftAmount z s))])
  | .rotlXYN c x y n => some (c, [(x, rotl (s.reg y) n.toNat)])
  | .rotrXYN c x y n => some (c, [(x, rotr (s.reg y) n.toNat)])
  | .shlXYZ c x y z => some (c, [(x, shl (s.reg y) (shiftAmount z s))])
  | .shrXYZ c x y z => some (c, [(x, shr (s.reg y) (shiftAmount z s))])
  | .movXY c x y => some (c, [(x, s.reg y)])
  | .swpXY c x y => some (c, [(x, s.reg y), (y, s.reg x)])
  | .notXY c x y => some (c, [(x, ~~~(s.reg y))])
  | .sxbXY c x y => some (c, [(x, sext8 (s.reg y))])
  | .sxwXY c x y => some (c, [(x, sext16 (s.reg y))])
  | .zxbXY c x y => some (c, [(x, zext8 (s.reg y))])
  | .zxwXY c x y => some (c, [(x, zext16 (s.reg y))])
  | .mvhhXY c x y => some (c, [(x, joinHalves (highHalf (s.reg y)) (lowHalf (s.reg x)))])
  | .mvhlXY c x y => some (c, [(x, joinHalves (highHalf (s.reg x)) (highHalf (s.reg y)))])
  | .mvlhXY c x y => some (c, [(x, joinHalves (lowHalf (s.reg y)) (lowHalf (s.reg x)))])
  | .mvllXY c x y => some (c, [(x, joinHalves (highHalf (s.reg x)) (lowHalf (s.reg y)))])
  | .addXN c x n => some (c, [(x, s.reg x + imm12 s.cfg n)])
  | .subXN c x n => some (c, [(x, s.reg x - imm12 s.cfg n)])
  | .movXSsp c x => if s.flagP then none else some (c, [(x, s.ssp)])
  | .movXSpc c x => if s.flagP then none else some (c, [(x, s.spc)])
  | .baN c n => some (c, [(.pc, absTarget n s)])
  | .brN c n => some (c, [(.pc, relTarget n s)])
  | .fcallN c n => some (c, [(.r8, s.dsp), (.r9, s.pc), (.pc, absTarget n s)])
  | .fcallrN c n => some (c, [(.r8, s.dsp), (.r9, s.pc), (.pc, relTarget n s)])
  | .fret c => some (c, [(.dsp, s.r8), (.pc, s.r9)])
  | _ => none

/-- Register writes one after the other; the first that traps ends them (10_state.md R21). -/
def writeAll : List (Reg × Word) → State → Except Trap State
  | [], s => .ok s
  | (x, v) :: ws, s =>
    match writeReg x v s with
    | .error t => .error t
    | .ok s1 => writeAll ws s1

/-- A store: condition, width, update, base, data and offset (42_load_store.md R131 to R144). -/
def storeParts (i : Instr) (s : State) : Option (Cond × Width × Bool × Reg × Reg × Word) :=
  match i with
  | .stbXYN c x y n => some (c, .byte, false, x, y, displacement s n)
  | .stbuXYN c x y n => some (c, .byte, true, x, y, displacement s n)
  | .stbiXYZ c x y z => some (c, .byte, false, x, y, s.reg z)
  | .stbuiXYZ c x y z => some (c, .byte, true, x, y, s.reg z)
  | .sthXYN c x y n => some (c, .half, false, x, y, displacement s n)
  | .sthuXYN c x y n => some (c, .half, true, x, y, displacement s n)
  | .sthiXYZ c x y z => some (c, .half, false, x, y, s.reg z)
  | .sthuiXYZ c x y z => some (c, .half, true, x, y, s.reg z)
  | .stwXYN c x y n => some (c, .word, false, x, y, displacement s n)
  | .stwuXYN c x y n => some (c, .word, true, x, y, displacement s n)
  | .stwiXYZ c x y z => some (c, .word, false, x, y, s.reg z)
  | .stwuiXYZ c x y z => some (c, .word, true, x, y, s.reg z)
  | _ => none

/-- A load: condition, width, extension, update, destination, base and offset (42_load_store.md R131,
R145 to R164); `pop` is one of them (43_two_operand.md R190). -/
def loadParts (i : Instr) (s : State) :
    Option (Cond × Width × Extension × Bool × Reg × Reg × Word) :=
  match i with
  | .lwXYN c x y n => some (c, .word, .zero, false, x, y, displacement s n)
  | .lwuXYN c x y n => some (c, .word, .zero, true, x, y, displacement s n)
  | .lwiXYZ c x y z => some (c, .word, .zero, false, x, y, s.reg z)
  | .lwuiXYZ c x y z => some (c, .word, .zero, true, x, y, s.reg z)
  | .lzbXYN c x y n => some (c, .byte, .zero, false, x, y, displacement s n)
  | .lzbuXYN c x y n => some (c, .byte, .zero, true, x, y, displacement s n)
  | .lzbiXYZ c x y z => some (c, .byte, .zero, false, x, y, s.reg z)
  | .lzbuiXYZ c x y z => some (c, .byte, .zero, true, x, y, s.reg z)
  | .lsbXYN c x y n => some (c, .byte, .sign, false, x, y, displacement s n)
  | .lsbuXYN c x y n => some (c, .byte, .sign, true, x, y, displacement s n)
  | .lsbiXYZ c x y z => some (c, .byte, .sign, false, x, y, s.reg z)
  | .lsbuiXYZ c x y z => some (c, .byte, .sign, true, x, y, s.reg z)
  | .lzhXYN c x y n => some (c, .half, .zero, false, x, y, displacement s n)
  | .lzhuXYN c x y n => some (c, .half, .zero, true, x, y, displacement s n)
  | .lzhiXYZ c x y z => some (c, .half, .zero, false, x, y, s.reg z)
  | .lzhuiXYZ c x y z => some (c, .half, .zero, true, x, y, s.reg z)
  | .lshXYN c x y n => some (c, .half, .sign, false, x, y, displacement s n)
  | .lshuXYN c x y n => some (c, .half, .sign, true, x, y, displacement s n)
  | .lshiXYZ c x y z => some (c, .half, .sign, false, x, y, s.reg z)
  | .lshuiXYZ c x y z => some (c, .half, .sign, true, x, y, s.reg z)
  | .popXY c x y => some (c, .word, .zero, true, x, y, 0)
  | _ => none

end Sys2Proof.Machine
end

