-- ==== Sys2Proof/Certificates/Slice0/Obligations.lean ====
section
/-!
DEFINITION. The statements about the model. Where a statement rests on a choice of the spec's own
(a decision D<n>) or of the model (a log entry), its docstring says so. `s` is always the state an
instruction starts from, with `pc` already past the fetched word (10_state.md R15).
-/

section Statements

open Sys2Proof Sys2Proof.Machine

/-! ### Encoding -/

/-- Words written out bit by bit from 30_encoding.md and 46_compact.md decode to the instructions they
stand for (that a reserved word has a constructor which carries its bits is log entry 12). -/
def Obligations.SpecWordsDecode : Prop :=
  decodeStandard 0x40000210 = .addXYZ .always .r0 .r1 .r2 ∧
  decodeStandard 0x4C00FF10 = .rotlXYN .always .r0 .r1 255 ∧
  decodeStandard 0x69000011 = .stwuXYN .always .r1 .r1 0 ∧
  decodeStandard 0x7F000310 = .lshuiXYZ .always .r0 .r1 .r3 ∧
  decodeStandard 0x330000CC = .popXY .always .dsp .dsp ∧
  decodeStandard 0x30007FF1 = .addXN .always .r1 0x7FF ∧
  decodeStandard 0x3400002F = .movSpcY .always .r2 ∧
  decodeStandard 0x11240003 = .brN ⟨.eq, .cc2⟩ 3 ∧
  decodeStandard 0x0B000000 = .rfi .always ∧
  decodeStandard 0x34000021 = .reserved .always 0x34 0 0x0021 ∧
  decodeWord 0xCE21C021 = .pair (.addXYZ .always .r1 .r1 .r2) (.shlXYZ .always .r1 .r1 .r2) ∧
  decodeWord 0xE323E013 = .pair (.stbXYN .always .r3 .r1 0) (.stbuiXYZ .always .r3 .r2 .r8)

/-- Decoding the encoding of a well-formed instruction gives it back, for every instruction and every
value of every operand (the reserved words and halves among them: log entry 12). -/
def Obligations.DecodeEncodeWellFormed : Prop :=
  ∀ i : Instr, i.wf = true → decode (encode i) = i

/-- Every standard word decodes to a well-formed instruction, and encoding that gives the word back: no
bit of a word is lost, reserved words included (log entry 12). -/
def Obligations.EncodeDecodeStandardWord : Prop :=
  ∀ w : Word, w.getLsbD 31 = false →
    (decodeStandard w).wf = true ∧ encode (decodeStandard w) = .word w

/-- Every half of a pair decodes to a well-formed instruction whose compact encoding is that half (log
entry 11 for the shared constructors, 12 for the reserved halves). -/
def Obligations.CompactHalfRoundTrip : Prop :=
  ∀ h : Half, (decodeHalf h).wf = true ∧ encodeCompact (decodeHalf h) = some h

/-- A compact half means the standard word that 46_compact.md's table gives it, class by class (the
placing of the immediates is the spec's decision D7). That the halves 0x80.. to 0x8F.. and the halves with
bit 15 clear are reserved, the latter as Instruction 1 of a pair, is the spec's decision D21; the
constructor that carries a reserved half is log entry 12. -/
def Obligations.CompactHalfMeansStandardWord : Prop :=
  (∀ (o : BitVec 5) (q w : BitVec 4),
    decodeHalf (0b110#3 ++ o ++ q ++ w) = decodeStandard (0b010#3 ++ o ++ 0#8 ++ 0#4 ++ q ++ w ++ w)) ∧
  (∀ (k : BitVec 3) (u : BitVec 1) (q w : BitVec 4),
    decodeHalf (0b111#3 ++ k ++ 0#1 ++ u ++ q ++ w) =
      decodeStandard (0b011#3 ++ k ++ 0#1 ++ u ++ 0#8 ++ 0#4 ++ 0#4 ++ q ++ w)) ∧
  (∀ (k : BitVec 3) (u : BitVec 1) (q w : BitVec 4),
    decodeHalf (0b111#3 ++ k ++ 1#1 ++ u ++ q ++ w) =
      decodeStandard (0b011#3 ++ k ++ 1#1 ++ u ++ 0#8 ++ 0#4 ++ 8#4 ++ q ++ w)) ∧
  (∀ (o : BitVec 5) (q w : BitVec 4),
    decodeHalf (0b101#3 ++ o ++ q ++ w) = decodeStandard (0b001#3 ++ o ++ 0#16 ++ q ++ w)) ∧
  (∀ (o : BitVec 4) (q w : BitVec 4),
    decodeHalf (0b1001#4 ++ o ++ q ++ w) = decodeStandard (0b0001#4 ++ o ++ 0#16 ++ q ++ w)) ∧
  (∀ r : BitVec 12, decodeHalf (0b1000#4 ++ r) = .reservedCompact (0b1000#4 ++ r)) ∧
  (∀ r : BitVec 15, decodeHalf (0#1 ++ r) = .reservedCompact (0#1 ++ r))

/-! ### The step -/

/-- A step runs the decoded instruction: when no event is due, the machine is not halted, and the word at
an aligned, accessible `pc` is a standard instruction `i`, the step is `exec i` on the state with this
step's inputs taken (log entry 4) and `pc` past the word, which for a standard instruction is the spec's
decision D2; at its end the record of an entry is dropped (log entry 6). -/
def Obligations.StepRunsStandardWord : Prop :=
  ∀ (s : State) (w : Word) (i : Instr), s.NoEvent → s.flagF = false → s.pcAligned →
    accessOk s.cfg .fetch .word s.pc = true → s.wordAt s.pc = w → decodeWord w = .single i →
    s.beginStep.advance = { s with env := s.env.tail, entered := false, pc := s.pc + 4 } ∧
    step s = andThen (exec i s.beginStep.advance) fun t => .next (t.setEntered false)

/-- A step runs a pair in sequence: Instruction 2 starts from the state Instruction 1 left, and is not
reached if Instruction 1 trapped or entered an interrupt (decision D21; log entries 4 and 6 for the inputs
and the record of an entry). -/
def Obligations.StepRunsPair : Prop :=
  ∀ (s s1 : State) (w : Word) (i1 i2 : Instr), s.NoEvent → s.flagF = false → s.pcAligned →
    accessOk s.cfg .fetch .word s.pc = true → s.wordAt s.pc = w → decodeWord w = .pair i1 i2 →
    exec i1 s.beginStep.advance = .next s1 →
    (s1.entered = true → step s = .next (s1.setEntered false)) ∧
    (s1.entered = false → step s = andThen (exec i2 s1) fun t => .next (t.setEntered false))

/-- A fetch that the platform fails takes the access Trap with `pc` advanced (decision D20; log entries 4
and 6 for the inputs and the record of an entry). -/
def Obligations.FailedFetchTraps : Prop :=
  ∀ s : State, s.NoEvent → s.flagF = false → s.pcAligned →
    accessOk s.cfg .fetch .word s.pc = false →
    step s = andThen (trapEntry .access s.beginStep.advance) fun t => .next (t.setEntered false)

/-- At a step boundary with the reset line high: an NMI first, then a hardware interrupt if `I` = 0, then
the halted check; a halted machine changes nothing but the inputs it has used up (decision D18 for the
order, D26 for the halted state, log entries 4 and 6 for the inputs and the record of an entry). -/
def Obligations.EventsAtStepBoundary : Prop :=
  ∀ s : State, s.inputs.resetN = true → s.inReset = false →
    (s.inputs.nmi = true →
      step s = andThen (interruptEntry s.cfg.nmiIndex s.beginStep) fun t => .next (t.setEntered false)) ∧
    (∀ k, s.inputs.nmi = false → s.inputs.irq = some k → s.flagI = false →
      step s = andThen (interruptEntry k s.beginStep) fun t => .next (t.setEntered false)) ∧
    (s.inputs.nmi = false → s.inputs.irq = none ∨ s.flagI = true → s.flagF = true →
      step s = .next ((s.setEnv s.env.tail).setEntered false))

/-- While the reset line is low a step does nothing, whatever else is pending; at the first step where it
is high again the registers take their reset values and `pc` the word at address 0, memory and the
parameters stay (decisions D16, D31; log entries 4, 5, 6 for the inputs and the two records). An
inaccessible or misaligned reset vector stops the model (decisions D22, D23; log entry 8). -/
def Obligations.ResetLine : Prop :=
  (∀ s : State, s.inputs.resetN = false →
    step s = .next (((s.setEnv s.env.tail).setEntered false).setInReset true)) ∧
  (∀ s : State, s.inputs.resetN = true → s.inReset = true →
    (accessOk s.cfg .read .word 0 = true → misaligned4 (s.wordAt 0) = false →
      ∃ t, step s = .next t ∧ t.pc = s.wordAt 0 ∧ t.sr = 0x0900 ∧
        (∀ j, j ≠ .pc → j ≠ .sr → t.reg j = 0) ∧ t.ssp = 0 ∧ t.spc = 0 ∧ KeepsMem s t ∧
        t.cfg = s.cfg ∧ t.env = s.env.tail ∧ t.inReset = false ∧ t.entered = false) ∧
    (accessOk s.cfg .read .word 0 = false → step s = .fault .resetVectorRead) ∧
    (accessOk s.cfg .read .word 0 = true → misaligned4 (s.wordAt 0) = true →
      step s = .refused .misalignedResetVector))

/-- The state after reset: every register 0 but `sr`, which has `I` and `T` set, and `pc`, which is the
word at address 0; that `pc` is that word and that `ssp` and `spc` are 0 too are the spec's decision D16.
That memory lists nothing and reads 0, the default parameters, and that no event is coming and the reset
line was not low at the step before, are the model's choice (log entries 1, 2, 3, 4, 5). -/
def Obligations.ResetState : Prop :=
  (∀ j, j ≠ .pc → j ≠ .sr → State.reset.reg j = 0) ∧ State.reset.sr = 0x0900 ∧
  State.reset.pc = State.reset.wordAt 0 ∧ State.reset.ssp = 0 ∧ State.reset.spc = 0 ∧
  State.reset.flagP = false ∧ State.reset.flagF = false ∧ State.reset.flagI = true ∧
  State.reset.flagT = true ∧ (∀ a, byteAt State.reset.mem a = 0) ∧
  State.reset.cfg = Config.standard ∧ State.reset.NoEvent

/-- The state after reset meets the invariant: `pc` is the word at address 0 (decision D16), which reads 0
(log entry 1), the hardwired bits of `sr` are 0 (decision D14), memory is canonical (log entry 16) and no
entry is pending (log entry 6). -/
def Obligations.ResetMeetsInvariant : Prop := State.reset.Inv

/-- Every step keeps the invariant: `pc` stays aligned (a misaligned table entry or `spc` is refused:
decision D22), the hardwired bits of `sr` stay 0 (decision D14), memory stays canonical (log entry 16),
and the record of an entry is dropped (log entry 6). -/
def Obligations.StepKeepsInvariant : Prop :=
  ∀ s t : State, s.Inv → step s = .next t → t.Inv

/-- A step leaves the parameters alone, uses up one input, and remembers exactly the level of the reset
line (log entries 2, 4, 5). -/
def Obligations.StepKeepsParameters : Prop :=
  ∀ s t : State, step s = .next t →
    t.cfg = s.cfg ∧ t.env = s.env.tail ∧ t.inReset = !s.inputs.resetN

/-- In protected mode no instruction touches the context registers or bits 8 to 12 of `sr`, unless it
leaves the mode; and an instruction that leaves the mode has made an entry (the model's record of one is
log entry 6), with the protected program's `isp` and `pc` kept in `ssp` and `spc` (decisions D12, D15). -/
def Obligations.ProtectedModeIsConfined : Prop :=
  ∀ (i : Instr) (s t : State), s.flagP = true → exec i s = .next t →
    (t.flagP = true → t.ssp = s.ssp ∧ t.spc = s.spc ∧ t.sr &&& 0x1F00 = s.sr &&& 0x1F00) ∧
    (t.flagP = false → t.entered = true ∧ t.ssp = s.isp ∧ t.spc = s.pc)

/-- An interrupt taken in system mode and its `rfi` resume the interrupted program, whatever else the
handler did: if it comes to its `rfi` in system mode with `isp` and the two words of the frame as the
entry left them, then `pc`, `isp` and `sr` are those of the interrupted program, but for `F`, which the
entry clears, and `rfi` changes nothing else (decisions D12, D14). -/
def Obligations.InterruptThenRfiResumes : Prop :=
  ∀ (k : Byte) (s t u : State) (c : Cond), s.Inv → s.flagP = false → interruptEntry k s = .next t →
    u.isp = t.isp → u.wordAt u.isp = t.wordAt t.isp → u.wordAt (u.isp + 4) = t.wordAt (t.isp + 4) →
    u.flagP = false → u.Runs c →
    accessOk u.cfg .read .word u.isp = true → accessOk u.cfg .read .word (u.isp + 4) = true →
    ∃ v, exec (.rfi c) u = .next v ∧ v.pc = s.pc ∧ v.isp = s.isp ∧ v.sr = s.sr &&& 0xEFFF ∧
      Changes [.sr, .isp, .pc] u v

/-- A stack call and its `ret` return, whatever else the callee did: if it comes to `ret` with `isp` and
the two pushed words as the call left them, then `pc` is the word after the call (decision D2), `dsp` and
`isp` are the caller's, and `ret` changes nothing else. -/
def Obligations.CallThenRetReturns : Prop :=
  ∀ (n : Half) (s t u : State) (c d : Cond), s.Inv → s.Runs c →
    (exec (.callN c n) s = .next t ∨ exec (.callrN c n) s = .next t) → t.entered = false →
    u.isp = t.isp → u.wordAt u.isp = t.wordAt t.isp → u.wordAt (u.isp + 4) = t.wordAt (t.isp + 4) →
    u.Runs d →
    accessOk u.cfg .read .word u.isp = true → accessOk u.cfg .read .word (u.isp + 4) = true →
    ∃ v, exec (.ret d) u = .next v ∧ v.pc = s.pc ∧ v.dsp = s.dsp ∧ v.isp = s.isp ∧
      Changes [.dsp, .isp, .pc] u v

/-! ### Registers and flags -/

/-- What each register number reads, in either mode (10_state.md R20). -/
def Obligations.ReadRegisterNumbers : Prop :=
  ∀ s : State,
    s.reg (Reg.ofBits 0) = s.r0 ∧ s.reg (Reg.ofBits 1) = s.r1 ∧ s.reg (Reg.ofBits 2) = s.r2 ∧
    s.reg (Reg.ofBits 3) = s.r3 ∧ s.reg (Reg.ofBits 4) = s.r4 ∧ s.reg (Reg.ofBits 5) = s.r5 ∧
    s.reg (Reg.ofBits 6) = s.r6 ∧ s.reg (Reg.ofBits 7) = s.r7 ∧ s.reg (Reg.ofBits 8) = s.r8 ∧
    s.reg (Reg.ofBits 9) = s.r9 ∧ s.reg (Reg.ofBits 10) = s.cc1 ++ s.cc0 ∧
    s.reg (Reg.ofBits 11) = s.cc3 ++ s.cc2 ∧ s.reg (Reg.ofBits 12) = s.dsp ∧
    s.reg (Reg.ofBits 13) = s.isp ∧ s.reg (Reg.ofBits 14) = 0#16 ++ s.sr ∧
    s.reg (Reg.ofBits 15) = s.pc

/-- A register write (10_state.md R21): a plain register takes the value and nothing else changes;
register 15 takes an aligned value and traps on another; register 14 in system mode takes the
implemented bits, in protected mode only the flags, trapping if `S` is set and bits 8 to 12 would change
(decisions D14, D15; the context switch on `P` is the last action of the instruction, log entry 9). -/
def Obligations.RegisterWriteRule : Prop :=
  ∀ (s : State) (v : Word),
    (∀ x : Reg, x.plain = true → ∃ t, writeReg x v s = .ok t ∧ t.reg x = v ∧ Changes [x] s t) ∧
    (misaligned4 v = false → ∃ t, writeReg .pc v s = .ok t ∧ t.pc = v ∧ Changes [.pc] s t) ∧
    (misaligned4 v = true → writeReg .pc v s = .error .pcAlignment) ∧
    (s.flagP = false →
      ∃ t, writeReg .sr v s = .ok t ∧ t.sr = v.setWidth 16 &&& 0x1FC3 ∧ Changes [.sr] s t) ∧
    (s.flagP = true → s.flagS = true → v.extractLsb' 8 5 ≠ s.sr.extractLsb' 8 5 →
      writeReg .sr v s = .error .srWrite) ∧
    (s.flagP = true → s.flagS = false ∨ v.extractLsb' 8 5 = s.sr.extractLsb' 8 5 →
      ∃ t, writeReg .sr v s = .ok t ∧ t.sr &&& 0x1F00 = s.sr &&& 0x1F00 ∧
        t.sr &&& 0xE0FF = v.setWidth 16 &&& 0x00C3 ∧ Changes [.sr] s t)

/-- The flag word of a subtraction: `Z` is equality, `C` is unsigned "greater or equal", `V` is that the
exact signed difference does not fit, `N` is the sign of the 32-bit difference; every other bit is 0
(the bit formulas are the spec's own inference from the flag texts). -/
def Obligations.FlagsOfSubtraction : Prop :=
  ∀ a b : Word,
    (flagsOf a b).getLsbD 0 = decide (a = b) ∧
    (flagsOf a b).getLsbD 1 = decide (b.toNat ≤ a.toNat) ∧
    (flagsOf a b).getLsbD 6 = decide (a.toInt - b.toInt < -2 ^ 31 ∨ 2 ^ 31 ≤ a.toInt - b.toInt) ∧
    (flagsOf a b).getLsbD 7 = (a - b).msb ∧
    flagsOf a b &&& 0xFF3C = 0

/-- After a comparison of `a` with `b`, each condition code says what its name says: the unsigned ones
exactly, and the signed ones exactly when `SIGNED_COND_USES_V` is true; when it is false (decision D4)
they test the sign of the 32-bit difference. -/
def Obligations.ConditionsAfterCompare : Prop :=
  ∀ (a b : Word) (usesV : Bool),
    (condHolds usesV .al (flagsOf a b) = true ∧ condHolds usesV .nv (flagsOf a b) = false) ∧
    (condHolds usesV .eq (flagsOf a b) = true ↔ a = b) ∧
    (condHolds usesV .ne (flagsOf a b) = true ↔ a ≠ b) ∧
    (condHolds usesV .uge (flagsOf a b) = true ↔ b.toNat ≤ a.toNat) ∧
    (condHolds usesV .ugt (flagsOf a b) = true ↔ b.toNat < a.toNat) ∧
    (condHolds usesV .ult (flagsOf a b) = true ↔ a.toNat < b.toNat) ∧
    (condHolds usesV .ule (flagsOf a b) = true ↔ a.toNat ≤ b.toNat) ∧
    (condHolds usesV .ov (flagsOf a b) = true ↔ (a - b).toInt ≠ a.toInt - b.toInt) ∧
    (condHolds usesV .nov (flagsOf a b) = true ↔ (a - b).toInt = a.toInt - b.toInt) ∧
    (condHolds true .lt (flagsOf a b) = true ↔ a.toInt < b.toInt) ∧
    (condHolds true .ge (flagsOf a b) = true ↔ b.toInt ≤ a.toInt) ∧
    (condHolds true .gt (flagsOf a b) = true ↔ b.toInt < a.toInt) ∧
    (condHolds true .le (flagsOf a b) = true ↔ a.toInt ≤ b.toInt) ∧
    (condHolds false .lt (flagsOf a b) = true ↔ (a - b).toInt < 0) ∧
    (condHolds false .ge (flagsOf a b) = true ↔ 0 ≤ (a - b).toInt) ∧
    (condHolds false .gt (flagsOf a b) = true ↔ 0 < (a - b).toInt) ∧
    (condHolds false .le (flagsOf a b) = true ↔ (a - b).toInt ≤ 0)

/-- Every standard instruction: a reserved condition code takes the Invalid Opcode Trap (decision D5);
a legal condition that is false leaves everything as it was. -/
def Obligations.ConditionBeforeExecution : Prop :=
  ∀ (i : Instr) (s : State) (c : Cond), condOf i = some c →
    (condReserved c.code = true → exec i s = trapEntry .invalidOpcode s) ∧
    (condReserved c.code = false → condTrue c s = false → exec i s = .next s)

/-! ### Three-operand instructions, plain destination -/

/-- `add` and `sub`, with a register or a 12-bit immediate: the sum and the difference modulo 2^32; no
flag is written (decision D3); the immediate is extended as `IMM12_SIGNED` says (decision D7). -/
def Obligations.AddSubtractResults : Prop :=
  ∀ (s : State) (c : Cond) (x y z : Reg) (n : BitVec 12), s.Runs c → x.plain = true →
    (∃ t, exec (.addXYZ c x y z) s = .next t ∧
      (t.reg x).toNat = ((s.reg y).toNat + (s.reg z).toNat) % 2 ^ 32 ∧ Changes [x] s t) ∧
    (∃ t, exec (.subXYZ c x y z) s = .next t ∧
      ((t.reg x).toNat : Int) = ((s.reg y).toNat - (s.reg z).toNat : Int) % 2 ^ 32 ∧ Changes [x] s t) ∧
    (∃ t, exec (.addXN c x n) s = .next t ∧
      ((t.reg x).toNat : Int) =
        ((s.reg x).toNat + (if s.cfg.imm12Signed then n.toInt else n.toNat) : Int) % 2 ^ 32 ∧
      Changes [x] s t) ∧
    (∃ t, exec (.subXN c x n) s = .next t ∧
      ((t.reg x).toNat : Int) =
        ((s.reg x).toNat - (if s.cfg.imm12Signed then n.toInt else n.toNat) : Int) % 2 ^ 32 ∧
      Changes [x] s t)

/-- `and`, `or`, `xor`, and `not` (bitwise, decision D9), bit by bit; no flag is written (decision D3). -/
def Obligations.LogicResults : Prop :=
  ∀ (s : State) (c : Cond) (x y z : Reg), s.Runs c → x.plain = true →
    (∃ t, exec (.andXYZ c x y z) s = .next t ∧ Changes [x] s t ∧
      ∀ k < 32, (t.reg x).getLsbD k = ((s.reg y).getLsbD k && (s.reg z).getLsbD k)) ∧
    (∃ t, exec (.orXYZ c x y z) s = .next t ∧ Changes [x] s t ∧
      ∀ k < 32, (t.reg x).getLsbD k = ((s.reg y).getLsbD k || (s.reg z).getLsbD k)) ∧
    (∃ t, exec (.xorXYZ c x y z) s = .next t ∧ Changes [x] s t ∧
      ∀ k < 32, (t.reg x).getLsbD k = ((s.reg y).getLsbD k != (s.reg z).getLsbD k)) ∧
    (∃ t, exec (.notXY c x y) s = .next t ∧ Changes [x] s t ∧
      ∀ k < 32, (t.reg x).getLsbD k = !(s.reg y).getLsbD k)

/-- The rotations move bit `k` to bit `k + n` (left) or from bit `k + n` (right), modulo 32, for every
count `n`, a register or an 8-bit constant (decision D8); no flag is written (decision D3). -/
def Obligations.RotateResults : Prop :=
  ∀ (s : State) (c : Cond) (x y z : Reg) (n : Byte), s.Runs c → x.plain = true →
    (∃ t, exec (.rotlXYZ c x y z) s = .next t ∧ Changes [x] s t ∧
      ∀ k < 32, (t.reg x).getLsbD ((k + (s.reg z).toNat) % 32) = (s.reg y).getLsbD k) ∧
    (∃ t, exec (.rotrXYZ c x y z) s = .next t ∧ Changes [x] s t ∧
      ∀ k < 32, (t.reg x).getLsbD k = (s.reg y).getLsbD ((k + (s.reg z).toNat) % 32)) ∧
    (∃ t, exec (.rotlXYN c x y n) s = .next t ∧ Changes [x] s t ∧
      ∀ k < 32, (t.reg x).getLsbD ((k + n.toNat) % 32) = (s.reg y).getLsbD k) ∧
    (∃ t, exec (.rotrXYN c x y n) s = .next t ∧ Changes [x] s t ∧
      ∀ k < 32, (t.reg x).getLsbD k = (s.reg y).getLsbD ((k + n.toNat) % 32))

/-- The shifts multiply or divide by 2^k for every amount k, 32 and more included (decision D8): `sar`
rounds the signed value down, `shl` keeps 32 bits, `shr` rounds the unsigned value down. The amount is
the value of register `z`, or with `SHIFT_BY_REGISTER` false the register field itself
(90_conflicts.md C3). No flag is written (decision D3). -/
def Obligations.ShiftResults : Prop :=
  ∀ (s : State) (c : Cond) (x y z : Reg) (k : Nat), s.Runs c → x.plain = true →
    k = (if s.cfg.shiftByRegister then (s.reg z).toNat else z.toBits.toNat) →
    (∃ t, exec (.sarXYZ c x y z) s = .next t ∧ (t.reg x).toInt = (s.reg y).toInt / 2 ^ k ∧
      Changes [x] s t) ∧
    (∃ t, exec (.shlXYZ c x y z) s = .next t ∧
      (t.reg x).toNat = ((s.reg y).toNat * 2 ^ k) % 2 ^ 32 ∧ Changes [x] s t) ∧
    (∃ t, exec (.shrXYZ c x y z) s = .next t ∧ (t.reg x).toNat = (s.reg y).toNat / 2 ^ k ∧
      Changes [x] s t)

/-- `umul` and `smul`: the exact 64-bit product, its low word in `x` and its high word in register 10,
which wins if `x` is register 10 (decision D13); no flag is written (decision D3). -/
def Obligations.MultiplyResults : Prop :=
  ∀ (s : State) (c : Cond) (x y z : Reg), s.Runs c → x.plain = true →
    (∃ t, exec (.umulXYZ c x y z) s = .next t ∧ Changes [x, .cc10] s t ∧
      (t.reg .cc10).toNat = (s.reg y).toNat * (s.reg z).toNat / 2 ^ 32 ∧
      (x ≠ .cc10 → (t.reg x).toNat = (s.reg y).toNat * (s.reg z).toNat % 2 ^ 32)) ∧
    (∃ t, exec (.smulXYZ c x y z) s = .next t ∧ Changes [x, .cc10] s t ∧
      (t.reg .cc10).toInt = (s.reg y).toInt * (s.reg z).toInt / 2 ^ 32 ∧
      (x ≠ .cc10 → ((t.reg x).toNat : Int) = (s.reg y).toInt * (s.reg z).toInt % 2 ^ 32))

/-- `udiv` and `sdiv` with a nonzero divisor: the quotient in `x`, the remainder in register 10, which
wins if `x` is register 10 (decision D13). The signed quotient is rounded toward zero, the remainder
has the sign of the dividend, and the quotient 2^31 wraps (decision D10). No flag is written
(decision D3). -/
def Obligations.DivideResults : Prop :=
  ∀ (s : State) (c : Cond) (x y z : Reg), s.Runs c → x.plain = true → s.reg z ≠ 0 →
    (∃ t, exec (.udivXYZ c x y z) s = .next t ∧ Changes [x, .cc10] s t ∧
      (t.reg .cc10).toNat = (s.reg y).toNat % (s.reg z).toNat ∧
      (x ≠ .cc10 → (t.reg x).toNat = (s.reg y).toNat / (s.reg z).toNat)) ∧
    (∃ (t : State) (q r : Int), exec (.sdivXYZ c x y z) s = .next t ∧ Changes [x, .cc10] s t ∧
      (s.reg y).toInt = q * (s.reg z).toInt + r ∧ |r| < |(s.reg z).toInt| ∧
      (r = 0 ∨ (0 < r ↔ 0 < (s.reg y).toInt)) ∧ (t.reg .cc10).toInt = r ∧
      (x ≠ .cc10 → t.reg x = BitVec.ofInt 32 q))

/-- A divisor of 0 takes the Math Trap, in both modes, and nothing is written before it (decision D11). -/
def Obligations.DivideByZeroTraps : Prop :=
  ∀ (s : State) (c : Cond) (x y z : Reg), s.Runs c → s.reg z = 0 →
    exec (.udivXYZ c x y z) s = trapEntry .math s ∧ exec (.sdivXYZ c x y z) s = trapEntry .math s

/-! ### Two-operand instructions -/

/-- `mov` copies; `sxb`, `sxw` keep the signed value of the low 8 or 16 bits, `zxb`, `zxw` the unsigned;
no flag is written (decision D3). -/
def Obligations.MoveAndExtendResults : Prop :=
  ∀ (s : State) (c : Cond) (x y : Reg), s.Runs c → x.plain = true →
    (∃ t, exec (.movXY c x y) s = .next t ∧ t.reg x = s.reg y ∧ Changes [x] s t) ∧
    (∃ t, exec (.sxbXY c x y) s = .next t ∧
      (t.reg x).toInt = ((s.reg y).extractLsb' 0 8).toInt ∧ Changes [x] s t) ∧
    (∃ t, exec (.sxwXY c x y) s = .next t ∧
      (t.reg x).toInt = ((s.reg y).extractLsb' 0 16).toInt ∧ Changes [x] s t) ∧
    (∃ t, exec (.zxbXY c x y) s = .next t ∧
      (t.reg x).toNat = (s.reg y).toNat % 2 ^ 8 ∧ Changes [x] s t) ∧
    (∃ t, exec (.zxwXY c x y) s = .next t ∧
      (t.reg x).toNat = (s.reg y).toNat % 2 ^ 16 ∧ Changes [x] s t)

/-- The half-register moves: the first letter is the half of `y` that is read, the second the half of `x`
that is written; the other half of `x` stays; no flag is written (decision D3). -/
def Obligations.HalfMoveResults : Prop :=
  ∀ (s : State) (c : Cond) (x y : Reg), s.Runs c → x.plain = true →
    (∃ t, exec (.mvhhXY c x y) s = .next t ∧ Changes [x] s t ∧
      (t.reg x).toNat / 2 ^ 16 = (s.reg y).toNat / 2 ^ 16 ∧
      (t.reg x).toNat % 2 ^ 16 = (s.reg x).toNat % 2 ^ 16) ∧
    (∃ t, exec (.mvhlXY c x y) s = .next t ∧ Changes [x] s t ∧
      (t.reg x).toNat / 2 ^ 16 = (s.reg x).toNat / 2 ^ 16 ∧
      (t.reg x).toNat % 2 ^ 16 = (s.reg y).toNat / 2 ^ 16) ∧
    (∃ t, exec (.mvlhXY c x y) s = .next t ∧ Changes [x] s t ∧
      (t.reg x).toNat / 2 ^ 16 = (s.reg y).toNat % 2 ^ 16 ∧
      (t.reg x).toNat % 2 ^ 16 = (s.reg x).toNat % 2 ^ 16) ∧
    (∃ t, exec (.mvllXY c x y) s = .next t ∧ Changes [x] s t ∧
      (t.reg x).toNat / 2 ^ 16 = (s.reg x).toNat / 2 ^ 16 ∧
      (t.reg x).toNat % 2 ^ 16 = (s.reg y).toNat % 2 ^ 16)

/-- `swp` exchanges two registers; with `pc` as one operand it is an exchange-jump, which traps on a
misaligned target before anything is written (decision D11); a register exchanged with itself changes
nothing; no flag is written (decision D3). -/
def Obligations.SwapExchanges : Prop :=
  ∀ (s : State) (c : Cond) (x y : Reg), s.Runs c →
    (x.plain = true → y.plain = true →
      ∃ t, exec (.swpXY c x y) s = .next t ∧ t.reg x = s.reg y ∧ t.reg y = s.reg x ∧
        Changes [x, y] s t) ∧
    (y.plain = true → misaligned4 (s.reg y) = false →
      (∃ t, exec (.swpXY c .pc y) s = .next t ∧ t.pc = s.reg y ∧ t.reg y = s.pc ∧
        Changes [.pc, y] s t) ∧
      (∃ t, exec (.swpXY c y .pc) s = .next t ∧ t.pc = s.reg y ∧ t.reg y = s.pc ∧
        Changes [.pc, y] s t)) ∧
    (y.plain = true → misaligned4 (s.reg y) = true →
      exec (.swpXY c .pc y) s = trapEntry .pcAlignment s ∧
      exec (.swpXY c y .pc) s = trapEntry .pcAlignment s) ∧
    (s.Inv → exec (.swpXY c x x) s = .next s)

/-- `cmp` writes the four flags of `sr` and nothing else, in both modes; `cpr0` to `cpr3` write the whole
of their condition register and nothing else (decision D14). -/
def Obligations.CompareWritesFlags : Prop :=
  ∀ (s : State) (c : Cond) (x y : Reg), s.Runs c →
    (s.srLegal → ∃ t, exec (.cmpXY c x y) s = .next t ∧
      t.sr &&& 0x00C3 = flagsOf (s.reg x) (s.reg y) ∧ t.sr &&& 0xFF3C = s.sr &&& 0xFF3C ∧
      Changes [.sr] s t) ∧
    (∃ t, exec (.cpr0XY c x y) s = .next t ∧ t.cc0 = flagsOf (s.reg x) (s.reg y) ∧ t.cc1 = s.cc1 ∧
      Changes [.cc10] s t) ∧
    (∃ t, exec (.cpr1XY c x y) s = .next t ∧ t.cc1 = flagsOf (s.reg x) (s.reg y) ∧ t.cc0 = s.cc0 ∧
      Changes [.cc10] s t) ∧
    (∃ t, exec (.cpr2XY c x y) s = .next t ∧ t.cc2 = flagsOf (s.reg x) (s.reg y) ∧ t.cc3 = s.cc3 ∧
      Changes [.cc32] s t) ∧
    (∃ t, exec (.cpr3XY c x y) s = .next t ∧ t.cc3 = flagsOf (s.reg x) (s.reg y) ∧ t.cc2 = s.cc2 ∧
      Changes [.cc32] s t)

/-! ### Destinations 14 and 15 -/

/-- Every instruction that ends in register writes makes exactly the writes of its row, in order, each by
the rule of its register (decision D13), and ends as the rules of traps and mode changes say: the first
write that traps undoes the instruction (decision D11), writes that set `P` in system mode are followed by
the context switch (decision D25, log entry 9), refused if `spc` is misaligned (decision D22, log entry
7), and otherwise the writes stand. Any destination, 14 and 15 included. -/
def Obligations.RegisterWritesInOrder : Prop :=
  ∀ (i : Instr) (s : State) (c : Cond) (ws : List (Reg × Word)),
    registerWrites i s = some (c, ws) → s.Runs c → EndsAs s (writeAll ws s) (exec i s)

/-- A result written to register 15 is a jump, or the pc alignment Trap, with nothing written (decision
D11), if bit 0 or 1 of it is set. -/
def Obligations.PcDestination : Prop :=
  ∀ (i : Instr) (s : State) (c : Cond) (v : Word),
    registerWrites i s = some (c, [(.pc, v)]) → s.Runs c →
    (misaligned4 v = false → ∃ t, exec i s = .next t ∧ t.pc = v ∧ Changes [.pc] s t) ∧
    (misaligned4 v = true → exec i s = trapEntry .pcAlignment s)

/-- A result written to register 14: in system mode the implemented bits are written, and if `P` becomes 1
the context switch follows (decisions D14, D25, log entry 9), which is refused if it would bring a
misaligned `spc` into `pc` (decision D22, log entry 7); in protected mode only the flags are written, or
the SR Write Trap is taken with nothing written (decisions D11, D15). -/
def Obligations.SrDestination : Prop :=
  ∀ (i : Instr) (s : State) (c : Cond) (v : Word),
    registerWrites i s = some (c, [(.sr, v)]) → s.Runs c →
    (s.flagP = false → v.getLsbD 9 = false →
      ∃ t, exec i s = .next t ∧ t.sr = v.setWidth 16 &&& 0x1FC3 ∧ Changes [.sr] s t) ∧
    (s.flagP = false → v.getLsbD 9 = true → misaligned4 s.spc = false →
      ∃ t, exec i s = .next t ∧ Switched (v.setWidth 16 &&& 0x1FC3) s t) ∧
    (s.flagP = false → v.getLsbD 9 = true → misaligned4 s.spc = true →
      exec i s = .refused .misalignedSpc) ∧
    (s.flagP = true → s.flagS = true → v.extractLsb' 8 5 ≠ s.sr.extractLsb' 8 5 →
      exec i s = trapEntry .srWrite s) ∧
    (s.flagP = true → s.flagS = false ∨ v.extractLsb' 8 5 = s.sr.extractLsb' 8 5 →
      ∃ t, exec i s = .next t ∧ t.sr &&& 0x1F00 = s.sr &&& 0x1F00 ∧
        t.sr &&& 0xE0FF = v.setWidth 16 &&& 0x00C3 ∧ Changes [.sr] s t)

/-! ### Memory -/

/-- A write keeps the canonical form (log entry 16), leaves every other byte alone (decision D28), and
reads back; the bytes of a word, and the two bytes of a half, lie in the byte order (decision D1, a
parameter), and addresses wrap at 2^32 (decision D29). -/
def Obligations.MemoryReadsLastWrite : Prop :=
  ∀ (m : List Host.Cell) (o : ByteOrder) (w : Width) (a v : Word), Memory.wf m = true →
    Memory.wf (putValue o m a v w) = true ∧
    (∀ b, widthBytes w ≤ b - a → byteAt (putValue o m a v w) b = byteAt m b) ∧
    valueAt o (putValue o m a v w) a w = lowerBits w v ∧
    (∀ k < 4, byteAt (putValue .little m a v .word) (a + BitVec.ofNat 32 k) = v.extractLsb' (8 * k) 8) ∧
    (∀ k < 4, byteAt (putValue .big m a v .word) (a + BitVec.ofNat 32 k) = v.extractLsb' (8 * (3 - k)) 8) ∧
    (∀ k < 2, byteAt (putValue .little m a v .half) (a + BitVec.ofNat 32 k) = v.extractLsb' (8 * k) 8) ∧
    (∀ k < 2, byteAt (putValue .big m a v .half) (a + BitVec.ofNat 32 k) = v.extractLsb' (8 * (1 - k)) 8)

/-- Every store whose access is aligned and accepted, with a plain base if it updates it: memory takes the
low bits of the data at the effective address and nowhere else, the base grows by the width if the form
updates it, and nothing else changes. The offset of an immediate form is its field, signed if
`DISP8_SIGNED` (`displacement`; decision D7, a parameter); with update and `x` = `y` the data stored is
the old base (decision D13); addresses wrap at 2^32 (decision D29). -/
def Obligations.StoresComplete : Prop :=
  ∀ (i : Instr) (s : State) (c : Cond) (w : Width) (u : Bool) (x y : Reg) (off : Word),
    storeParts i s = some (c, w, u, x, y, off) → s.Runs c → s.memCanonical →
    misaligned w (s.reg x + off) = false → accessOk s.cfg .write w (s.reg x + off) = true →
    (u = true → x.plain = true) →
    ∃ t, exec i s = .next t ∧
      valueAt s.cfg.byteOrder t.mem (s.reg x + off) w = lowerBits w (s.reg y) ∧
      KeepsMemOutside (s.reg x + off) (widthBytes w) s t ∧
      (u = true → t.reg x = s.reg x + widthBytes w) ∧
      KeepsRegs (if u then [x] else []) s t

/-- Every load, and `pop`, whose access is aligned and accepted, with plain registers written: the
destination takes the extended value, then the base, as it then is, grows by the width if the form
updates it (decision D13 when both are one register), and nothing else changes. The offset of an
immediate form is its field, signed if `DISP8_SIGNED` (`displacement`; decision D7, a parameter);
addresses wrap at 2^32 (decision D29). -/
def Obligations.LoadsComplete : Prop :=
  ∀ (i : Instr) (s : State) (c : Cond) (w : Width) (e : Extension) (u : Bool) (x y : Reg) (off : Word),
    loadParts i s = some (c, w, e, u, x, y, off) → s.Runs c →
    misaligned w (s.reg y + off) = false → accessOk s.cfg .read w (s.reg y + off) = true →
    x.plain = true → (u = true → y.plain = true) →
    ∃ (t : State) (v : Word), exec i s = .next t ∧ LoadedFrom s e w (s.reg y + off) v ∧
      t.reg x = (if u = true ∧ x = y then v + widthBytes w else v) ∧
      (u = true → x ≠ y → t.reg y = s.reg y + widthBytes w) ∧
      Changes (if u then [x, y] else [x]) s t

/-- A misaligned access of a load, a store, `push`, `call`, `callr` or `ret` takes the alignment Trap, an
aligned one that the platform fails takes the access Trap, and nothing is written before either
(decisions D11, D17; D7 for the offset of an immediate form). -/
def Obligations.FailedAccessTraps : Prop :=
  (∀ (i : Instr) (s : State) (c : Cond) (w : Width) (u : Bool) (x y : Reg) (off : Word),
    storeParts i s = some (c, w, u, x, y, off) → s.Runs c →
    (misaligned w (s.reg x + off) = true → exec i s = trapEntry .alignment s) ∧
    (misaligned w (s.reg x + off) = false → accessOk s.cfg .write w (s.reg x + off) = false →
      exec i s = trapEntry .access s)) ∧
  (∀ (i : Instr) (s : State) (c : Cond) (w : Width) (e : Extension) (u : Bool) (x y : Reg) (off : Word),
    loadParts i s = some (c, w, e, u, x, y, off) → s.Runs c →
    (misaligned w (s.reg y + off) = true → exec i s = trapEntry .alignment s) ∧
    (misaligned w (s.reg y + off) = false → accessOk s.cfg .read w (s.reg y + off) = false →
      exec i s = trapEntry .access s)) ∧
  (∀ (s : State) (c : Cond) (x y : Reg), s.Runs c →
    (misaligned4 (s.reg x - 4) = true → exec (.pushXY c x y) s = trapEntry .alignment s) ∧
    (misaligned4 (s.reg x - 4) = false → accessOk s.cfg .write .word (s.reg x - 4) = false →
      exec (.pushXY c x y) s = trapEntry .access s)) ∧
  (∀ (s : State) (c : Cond) (n : Half), s.Runs c →
    (misaligned4 s.isp = true → exec (.callN c n) s = trapEntry .alignment s ∧
      exec (.callrN c n) s = trapEntry .alignment s ∧ exec (.ret c) s = trapEntry .alignment s) ∧
    (misaligned4 s.isp = false →
      accessOk s.cfg .write .word (s.isp - 4) = false ∨ accessOk s.cfg .write .word (s.isp - 8) = false →
      exec (.callN c n) s = trapEntry .access s ∧ exec (.callrN c n) s = trapEntry .access s) ∧
    (misaligned4 s.isp = false →
      accessOk s.cfg .read .word s.isp = false ∨ accessOk s.cfg .read .word (s.isp + 4) = false →
      exec (.ret c) s = trapEntry .access s))

/-- Loads, stores and `push` with any register, 14 and 15 included: after the access is accepted, their
register writes go by the rules of register writes, in the order of the listing (decision D13), and the
instruction ends as in `RegisterWritesInOrder` (decisions D11, D22, D25, log entries 7 and 9); the first
write that traps undoes the instruction, its store included. D7 for the offset of an immediate form. -/
def Obligations.MemoryFormsOnAnyRegister : Prop :=
  (∀ (i : Instr) (s : State) (c : Cond) (w : Width) (u : Bool) (x y : Reg) (off : Word),
    storeParts i s = some (c, w, u, x, y, off) → s.Runs c →
    misaligned w (s.reg x + off) = false → accessOk s.cfg .write w (s.reg x + off) = true →
    EndsAs s (writeAll (if u then [(x, s.reg x + widthBytes w)] else [])
      { s with mem := putValue s.cfg.byteOrder s.mem (s.reg x + off) (s.reg y) w }) (exec i s)) ∧
  (∀ (i : Instr) (s : State) (c : Cond) (w : Width) (e : Extension) (u : Bool) (x y : Reg) (off v : Word),
    loadParts i s = some (c, w, e, u, x, y, off) → s.Runs c →
    misaligned w (s.reg y + off) = false → accessOk s.cfg .read w (s.reg y + off) = true →
    LoadedFrom s e w (s.reg y + off) v →
    (∀ t, writeReg x v s = .error t → exec i s = trapEntry t s) ∧
    (∀ s1, writeReg x v s = .ok s1 →
      EndsAs s (writeAll (if u then [(y, s1.reg y + widthBytes w)] else []) s1) (exec i s))) ∧
  (∀ (s : State) (c : Cond) (x y : Reg), s.Runs c →
    misaligned4 (s.reg x - 4) = false → accessOk s.cfg .write .word (s.reg x - 4) = true →
    (∀ t, writeReg x (s.reg x - 4) s = .error t → exec (.pushXY c x y) s = trapEntry t s) ∧
    (∀ s1, writeReg x (s.reg x - 4) s = .ok s1 →
      EndsAs s (.ok { s1 with mem := putValue s.cfg.byteOrder s.mem (s.reg x - 4) (s1.reg y) .word })
        (exec (.pushXY c x y) s)))

/-- `push x,y` with any `x` but `sr`: the pointer drops by 4 and `y` is stored at it; `push x,x` stores
the decremented pointer (decision D13). -/
def Obligations.PushCompletes : Prop :=
  ∀ (s : State) (c : Cond) (x y : Reg), s.Runs c → s.memCanonical → x ≠ .sr →
    misaligned4 (s.reg x - 4) = false → accessOk s.cfg .write .word (s.reg x - 4) = true →
    ∃ t, exec (.pushXY c x y) s = .next t ∧ t.reg x = s.reg x - 4 ∧
      t.wordAt (s.reg x - 4) = (if y = x then s.reg x - 4 else s.reg y) ∧
      KeepsMemOutside (s.reg x - 4) 4 s t ∧ KeepsRegs [x] s t

/-! ### One-operand instructions -/

/-- `ba` and `br` jump to 4 times the immediate, `br` counting from the next word (decision D2); they never
take the pc alignment Trap (the extension of the immediate is decision D7, a parameter). -/
def Obligations.BranchesJump : Prop :=
  ∀ (s : State) (c : Cond) (n : Half), s.Runs c → s.pcAligned →
    (∃ t, exec (.baN c n) s = .next t ∧ t.pc = absoluteTo s n ∧ Changes [.pc] s t) ∧
    (∃ t, exec (.brN c n) s = .next t ∧ t.pc = relativeTo s n ∧ Changes [.pc] s t)

/-- `call` and `callr` push the address of the next word (decision D2), then `dsp`, and jump; 8 bytes of
memory, `isp` and `pc` change and nothing else (the extension of the immediate is decision D7, a
parameter; the stack wraps at 2^32, decision D29). -/
def Obligations.CallsPushAndJump : Prop :=
  ∀ (s : State) (c : Cond) (n : Half), s.Runs c → s.pcAligned → s.memCanonical →
    misaligned4 s.isp = false → accessOk s.cfg .write .word (s.isp - 4) = true →
    accessOk s.cfg .write .word (s.isp - 8) = true →
    (∃ t, exec (.callN c n) s = .next t ∧ t.pc = absoluteTo s n ∧ t.isp = s.isp - 8 ∧
      t.wordAt (s.isp - 4) = s.pc ∧ t.wordAt (s.isp - 8) = s.dsp ∧
      KeepsMemOutside (s.isp - 8) 8 s t ∧ KeepsRegs [.isp, .pc] s t) ∧
    (∃ t, exec (.callrN c n) s = .next t ∧ t.pc = relativeTo s n ∧ t.isp = s.isp - 8 ∧
      t.wordAt (s.isp - 4) = s.pc ∧ t.wordAt (s.isp - 8) = s.dsp ∧
      KeepsMemOutside (s.isp - 8) 8 s t ∧ KeepsRegs [.isp, .pc] s t)

/-- `fcall` and `fcallr` save `dsp` in `r8` and the address of the next word (decision D2) in `r9`, and
jump (the extension of the immediate is decision D7, a parameter). -/
def Obligations.FastCallsLinkAndJump : Prop :=
  ∀ (s : State) (c : Cond) (n : Half), s.Runs c → s.pcAligned →
    (∃ t, exec (.fcallN c n) s = .next t ∧ t.pc = absoluteTo s n ∧ t.r8 = s.dsp ∧ t.r9 = s.pc ∧
      Changes [.r8, .r9, .pc] s t) ∧
    (∃ t, exec (.fcallrN c n) s = .next t ∧ t.pc = relativeTo s n ∧ t.r8 = s.dsp ∧ t.r9 = s.pc ∧
      Changes [.r8, .r9, .pc] s t)

/-- `lil` loads all 16 bits of `cc0` and keeps `cc1`; `lih` loads `cc1` and keeps `cc0`; the condition is
tested on the old value; their words (44_one_operand.md R208, R209). -/
def Obligations.LoadConditionLiterals : Prop :=
  (∀ (s : State) (c : Cond) (n : Half), s.Runs c →
    (∃ t, exec (.lilN c n) s = .next t ∧ t.cc0 = n ∧ t.cc1 = s.cc1 ∧ Changes [.cc10] s t) ∧
    (∃ t, exec (.lihN c n) s = .next t ∧ t.cc1 = n ∧ t.cc0 = s.cc0 ∧ Changes [.cc10] s t)) ∧
  (∀ (c : Cond) (n : Half), c.wf = true →
    decodeStandard (0x1A#8 ++ 0#2 ++ c.reg.toBits ++ c.code.toBits ++ n) = .lilN c n ∧
    decodeStandard (0x1B#8 ++ 0#2 ++ c.reg.toBits ++ c.code.toBits ++ n) = .lihN c n)

/-- `int $n` with `I` = 0, in either mode, makes the interrupt entry at the index `n[7:0]`: `F` cleared
before the pushes, `I` set after them (the order of the steps is decision D12). -/
def Obligations.SoftwareInterruptEnters : Prop :=
  ∀ (s : State) (c : Cond) (n : Half), s.Runs c → s.flagI = false → s.memCanonical →
    EntryReady (n.extractLsb' 0 8) 0x1000 s →
    ∃ t, exec (.intN c n) s = .next t ∧ EntryTo (n.extractLsb' 0 8) 0x1000 0x0100 s t

/-- `int` with `I` = 1 takes the Software int Trap, index 5, in either mode, whatever its operand; so does
its compact form, which decodes to the same instruction (60_exceptions.md R261). -/
def Obligations.SoftwareInterruptTraps : Prop :=
  (∀ (s : State) (c : Cond) (n : Half), s.Runs c → s.flagI = true →
    exec (.intN c n) s = trapEntry .softwareInt s) ∧
  Trap.softwareInt.index = 5 ∧
  (∀ (c : Cond) (n : Half), c.wf = true →
    decodeStandard (0x18#8 ++ 0#2 ++ c.reg.toBits ++ c.code.toBits ++ n) = .intN c n) ∧
  (∀ q : Byte, decodeHalf (0x98#8 ++ q) = .intN .always (0#8 ++ q))

/-! ### Zero-operand instructions -/

/-- `ret` pops `dsp`, then `pc`; a misaligned return address takes the pc alignment Trap, with nothing
written (decision D11). -/
def Obligations.RetPops : Prop :=
  ∀ (s : State) (c : Cond), s.Runs c → misaligned4 s.isp = false →
    accessOk s.cfg .read .word s.isp = true → accessOk s.cfg .read .word (s.isp + 4) = true →
    (misaligned4 (s.wordAt (s.isp + 4)) = false →
      ∃ t, exec (.ret c) s = .next t ∧ t.dsp = s.wordAt s.isp ∧ t.pc = s.wordAt (s.isp + 4) ∧
        t.isp = s.isp + 8 ∧ Changes [.dsp, .isp, .pc] s t) ∧
    (misaligned4 (s.wordAt (s.isp + 4)) = true → exec (.ret c) s = trapEntry .pcAlignment s)

/-- `fret`: `dsp` from `r8` and `pc` from `r9`, which keep their values; a misaligned `r9` takes the pc
alignment Trap before `dsp` is written; its words (45_zero_operand.md R222). -/
def Obligations.FretRestores : Prop :=
  (∀ (s : State) (c : Cond), s.Runs c →
    (misaligned4 s.r9 = false →
      ∃ t, exec (.fret c) s = .next t ∧ t.dsp = s.r8 ∧ t.pc = s.r9 ∧ Changes [.dsp, .pc] s t) ∧
    (misaligned4 s.r9 = true → exec (.fret c) s = trapEntry .pcAlignment s)) ∧
  (∀ c : Cond, c.wf = true →
    decodeStandard (0x09#8 ++ 0#2 ++ c.reg.toBits ++ c.code.toBits ++ 0#16) = .fret c)

/-- In system mode `sleep` sets `F` and nothing else (the halt is of the coming steps, decision D26), and
`brk` has no effect (decision D24). -/
def Obligations.SleepAndBreakInSystemMode : Prop :=
  ∀ (s : State) (c : Cond), s.Runs c → s.flagP = false →
    (∃ t, exec (.sleep c) s = .next t ∧ t.sr = s.sr ||| 0x1000 ∧ Changes [.sr] s t) ∧
    exec (.brk c) s = .next s

/-- `rfi` in system mode pops `sr`, then `pc`: with `P` = 0 in the popped word it returns in system mode,
with `P` = 1 it switches to protected mode after the pops, so that the popped `pc` goes to `spc`
(refused if `spc` is misaligned, decision D22, log entry 7); a misaligned popped `pc` takes the pc
alignment Trap, a misaligned `isp` the alignment Trap, a failed read the access Trap, with nothing
written (decision D11); the hardwired bits of the popped word are dropped (decision D14). -/
def Obligations.RfiPops : Prop :=
  ∀ (s : State) (c : Cond), s.Runs c → s.flagP = false →
    (misaligned4 s.isp = true → exec (.rfi c) s = trapEntry .alignment s) ∧
    (misaligned4 s.isp = false →
      accessOk s.cfg .read .word s.isp = false ∨ accessOk s.cfg .read .word (s.isp + 4) = false →
      exec (.rfi c) s = trapEntry .access s) ∧
    (misaligned4 s.isp = false → accessOk s.cfg .read .word s.isp = true →
      accessOk s.cfg .read .word (s.isp + 4) = true →
      (misaligned4 (s.wordAt (s.isp + 4)) = true → exec (.rfi c) s = trapEntry .pcAlignment s) ∧
      (misaligned4 (s.wordAt (s.isp + 4)) = false → (s.wordAt s.isp).getLsbD 9 = false →
        ∃ t, exec (.rfi c) s = .next t ∧ t.sr = (s.wordAt s.isp).setWidth 16 &&& 0x1FC3 ∧
          t.pc = s.wordAt (s.isp + 4) ∧ t.isp = s.isp + 8 ∧ Changes [.sr, .isp, .pc] s t) ∧
      (misaligned4 (s.wordAt (s.isp + 4)) = false → (s.wordAt s.isp).getLsbD 9 = true →
        misaligned4 s.spc = false →
        ∃ t, exec (.rfi c) s = .next t ∧
          Switched ((s.wordAt s.isp).setWidth 16 &&& 0x1FC3)
            ((s.setIsp (s.isp + 8)).setPc (s.wordAt (s.isp + 4))) t) ∧
      (misaligned4 (s.wordAt (s.isp + 4)) = false → (s.wordAt s.isp).getLsbD 9 = true →
        misaligned4 s.spc = true → exec (.rfi c) s = .refused .misalignedSpc))

/-! ### Context registers and privilege -/

/-- `mov ssp,y` and `mov spc,y`: in system mode the context register takes the value, with no alignment
check, and nothing else changes; in protected mode the Protection Trap; their words (43_two_operand.md
R191, R192). -/
def Obligations.ContextRegisterWrites : Prop :=
  (∀ (s : State) (c : Cond) (y : Reg), s.Runs c →
    (s.flagP = false →
      exec (.movSspY c y) s = .next { s with ssp := s.reg y } ∧
      exec (.movSpcY c y) s = .next { s with spc := s.reg y }) ∧
    (s.flagP = true →
      exec (.movSspY c y) s = trapEntry .protection s ∧ exec (.movSpcY c y) s = trapEntry .protection s)) ∧
  (∀ (c : Cond) (y : Reg), c.wf = true →
    decodeStandard (0x34#8 ++ 0#2 ++ c.reg.toBits ++ c.code.toBits ++ 0#8 ++ y.toBits ++ 13#4) = .movSspY c y ∧
    decodeStandard (0x34#8 ++ 0#2 ++ c.reg.toBits ++ c.code.toBits ++ 0#8 ++ y.toBits ++ 15#4) = .movSpcY c y)

/-- `mov x,ssp` and `mov x,spc` in system mode, plain destination. -/
def Obligations.ContextRegisterReads : Prop :=
  ∀ (s : State) (c : Cond) (x : Reg), s.Runs c → s.flagP = false → x.plain = true →
    (∃ t, exec (.movXSsp c x) s = .next t ∧ t.reg x = s.ssp ∧ Changes [x] s t) ∧
    (∃ t, exec (.movXSpc c x) s = .next t ∧ t.reg x = s.spc ∧ Changes [x] s t)

/-- In protected mode the system mode instructions trap: the Protection Trap, and for `brk` the Break
Trap; reserved words of their opcode bytes trap the same way (decision D30). -/
def Obligations.PrivilegedInstructionsTrap : Prop :=
  ∀ (s : State) (c : Cond) (x : Reg) (vv : BitVec 2) (low : Half), s.Runs c → s.flagP = true →
    exec (.sleep c) s = trapEntry .protection s ∧ exec (.rfi c) s = trapEntry .protection s ∧
    exec (.movXSsp c x) s = trapEntry .protection s ∧ exec (.movXSpc c x) s = trapEntry .protection s ∧
    exec (.brk c) s = trapEntry .brk s ∧
    exec (.reserved c 0x0F vv low) s = trapEntry .brk s ∧
    (∀ op, op ∈ [0x0A#7, 0x0B#7, 0x34#7, 0x35#7] →
      exec (.reserved c op vv low) s = trapEntry .protection s)

/-- The table index of the trap a reserved word takes: in protected mode the Break or Protection Trap of
its opcode byte, otherwise the Invalid Opcode Trap (40_conditional_execution.md R96). -/
def reservedIndex (s : State) (op : BitVec 7) : Byte :=
  if s.flagP = false then 2
  else if op = 0x0F then 1
  else if op = 0x0A ∨ op = 0x0B ∨ op = 0x34 ∨ op = 0x35 then 3
  else 2

/-- Reserved encodings take their trap, in both modes: the entry at its table index, or with `T` = 1 in
system mode the halt with `F` set. A reserved half of a pair always takes the Invalid Opcode Trap
(decisions D6, D21, D26, D30; D11 and D12 for the entry; log entries 6 and 12 for the record of an entry
and the constructors). -/
def Obligations.ReservedEncodingsTrap : Prop :=
  ∀ (s : State) (c : Cond) (op : BitVec 7) (vv : BitVec 2) (low h : Half), s.Runs c →
    (s.flagT = true → s.flagP = false →
      exec (.reserved c op vv low) s = .next { s with sr := s.sr ||| 0x1000, entered := true } ∧
      exec (.reservedCompact h) s = .next { s with sr := s.sr ||| 0x1000, entered := true }) ∧
    (s.flagT = false ∨ s.flagP = true → s.memCanonical →
      (EntryReady (reservedIndex s op) 0 s →
        ∃ t, exec (.reserved c op vv low) s = .next t ∧ EntryTo (reservedIndex s op) 0 0x0800 s t) ∧
      (EntryReady 2 0 s →
        ∃ t, exec (.reservedCompact h) s = .next t ∧ EntryTo 2 0 0x0800 s t))

/-! ### Taking a trap or an interrupt -/

/-- Table entry `i` is the word at address `4*i`, and each trap has the index of the spec's table. -/
def Obligations.TrapTableIndexes : Prop :=
  (∀ i : Byte, (vectorAddress i).toNat = 4 * i.toNat) ∧
  Trap.brk.index = 1 ∧ Trap.invalidOpcode.index = 2 ∧ Trap.protection.index = 3 ∧ Trap.math.index = 4 ∧
  Trap.softwareInt.index = 5 ∧ Trap.srWrite.index = 6 ∧ Trap.pcAlignment.index = 7 ∧
  Trap.alignment.index = 8 ∧ Trap.access.index = 9

/-- Taking a trap: from system mode with `T` = 0, or from protected mode, the frame is pushed on the
system mode's stack, `T` is set and `pc` comes from the table (decisions D11, D12); from system mode with
`T` = 1 the machine halts with `F` set and nothing else changed (decision D26; the record of an entry is
log entry 6). -/
def Obligations.TrapEntryState : Prop :=
  ∀ (s : State) (t : Trap),
    (s.flagT = true → s.flagP = false →
      trapEntry t s = .next { s with sr := s.sr ||| 0x1000, entered := true }) ∧
    (s.flagT = false ∨ s.flagP = true → s.memCanonical → EntryReady t.index 0 s →
      ∃ u, trapEntry t s = .next u ∧ EntryTo t.index 0 0x0800 s u)

/-- Taking an interrupt at any index, in either mode: `F` is cleared, the frame is pushed on the system
mode's stack, `I` is set, `T` stays, and `pc` comes from the table (decision D12; the record of an entry
is log entry 6). -/
def Obligations.InterruptEntryState : Prop :=
  ∀ (s : State) (k : Byte), s.memCanonical → EntryReady k 0x1000 s →
    ∃ t, interruptEntry k s = .next t ∧ EntryTo k 0x1000 0x0100 s t

/-- When an entry itself stops, a trap's (but for the halt of `T` = 1 in system mode) as an interrupt's: a
misaligned `spc` at the switch or a misaligned table entry is refused, a push (on a misaligned `isp`, or
failing) or a table read that cannot be made is a fault, in the order in which they are met (decisions
D22, D23; log entries 7 and 8). -/
def Obligations.EntryStops : Prop :=
  (∀ (s : State) (k : Byte),
    (¬ EntrySwitchable s → interruptEntry k s = .refused .misalignedSpc) ∧
    (EntrySwitchable s → ¬ EntryPushable s → interruptEntry k s = .fault .entryPush) ∧
    (EntrySwitchable s → EntryPushable s →
      accessOk s.cfg .read .word (BitVec.ofNat 32 (4 * k.toNat)) = false →
      interruptEntry k s = .fault .vectorRead) ∧
    (EntrySwitchable s → EntryPushable s →
      accessOk s.cfg .read .word (BitVec.ofNat 32 (4 * k.toNat)) = true →
      misaligned4 (entryVector k 0x1000 s) = true →
      interruptEntry k s = .refused .misalignedVector)) ∧
  (∀ (s : State) (t : Trap), s.flagT = false ∨ s.flagP = true →
    (¬ EntrySwitchable s → trapEntry t s = .refused .misalignedSpc) ∧
    (EntrySwitchable s → ¬ EntryPushable s → trapEntry t s = .fault .entryPush) ∧
    (EntrySwitchable s → EntryPushable s →
      accessOk s.cfg .read .word (BitVec.ofNat 32 (4 * t.index.toNat)) = false →
      trapEntry t s = .fault .vectorRead) ∧
    (EntrySwitchable s → EntryPushable s →
      accessOk s.cfg .read .word (BitVec.ofNat 32 (4 * t.index.toNat)) = true →
      misaligned4 (entryVector t.index 0 s) = true →
      trapEntry t s = .refused .misalignedVector))

end Statements
end

