-- ==== Sys2Proof/Laws/Decode.lean ====
section
/-!
SUPPORT. The field conversions of the decoder and the encoder undo each other (30_encoding.md R61, R64 to
R67).
-/

namespace Sys2Proof

@[simp] theorem Reg.ofBits_toBits (r : Reg) : Reg.ofBits r.toBits = r := by cases r <;> rfl

@[simp] theorem Reg.toBits_ofBits (b : BitVec 4) : (Reg.ofBits b).toBits = b := by
  revert b; decide

@[simp] theorem CondCode.ofBits_toBits (c : CondCode) : CondCode.ofBits c.toBits = c := by
  cases c <;> rfl

@[simp] theorem CondCode.toBits_ofBits (b : BitVec 4) : (CondCode.ofBits b).toBits = b := by
  revert b; decide

@[simp] theorem CcReg.ofBits_toBits (c : CcReg) : CcReg.ofBits c.toBits = c := by cases c <;> rfl

@[simp] theorem CcReg.toBits_ofBits (b : BitVec 2) : (CcReg.ofBits b).toBits = b := by
  revert b; decide

/-- Cutting the word of some fields gives the fields. -/
@[simp] theorem Fields.ofWord_toWord (f : Fields) : Fields.ofWord f.toWord = f := by
  rcases f with ⟨op, vv, rr, cccc, h, z, y, x⟩
  simp only [Fields.ofWord, Fields.toWord, Fields.mk.injEq]
  refine ⟨?_, ?_, ?_, ?_, ?_, ?_, ?_, ?_⟩ <;>
    (ext i hi; simp only [BitVec.getElem_extractLsb', BitVec.getLsbD_append]; grind)

/-- The word of the fields of a word with bit 31 clear is that word. -/
theorem Fields.toWord_ofWord (w : Word) (hw : w.getLsbD 31 = false) :
    (Fields.ofWord w).toWord = w := by
  ext i hi
  simp only [Fields.ofWord, Fields.toWord, BitVec.getElem_eq_testBit_toNat, BitVec.testBit_toNat, BitVec.getLsbD_append, BitVec.getLsbD_extractLsb']
  grind

/-- The word of any fields has bit 31 clear. -/
@[simp] theorem Fields.toWord_bit31 (f : Fields) : f.toWord.getLsbD 31 = false := by
  simp only [Fields.toWord, BitVec.getLsbD_append]
  grind

/-- The nibbles of a 16-bit immediate, joined again. -/
theorem nibbles16 (n : Half) :
    n.extractLsb' 12 4 ++ n.extractLsb' 8 4 ++ n.extractLsb' 4 4 ++ n.extractLsb' 0 4 = n := by
  ext i hi
  simp only [BitVec.getElem_eq_testBit_toNat, BitVec.testBit_toNat, BitVec.getLsbD_append, BitVec.getLsbD_extractLsb']
  grind

/-- The nibbles of a 12-bit immediate, joined again. -/
theorem nibbles12 (n : BitVec 12) :
    n.extractLsb' 8 4 ++ n.extractLsb' 4 4 ++ n.extractLsb' 0 4 = n := by
  ext i hi
  simp only [BitVec.getElem_eq_testBit_toNat, BitVec.testBit_toNat, BitVec.getLsbD_append, BitVec.getLsbD_extractLsb']
  grind

/-- The nibbles of an 8-bit immediate, joined again. -/
theorem nibbles8 (n : Byte) : n.extractLsb' 4 4 ++ n.extractLsb' 0 4 = n := by
  ext i hi
  simp only [BitVec.getElem_eq_testBit_toNat, BitVec.testBit_toNat, BitVec.getLsbD_append, BitVec.getLsbD_extractLsb']
  grind

end Sys2Proof
end

