-- ==== Sys2Proof/Laws/Memory.lean ====
section
/-!
SUPPORT. What a write to memory does: the byte written reads back, every other byte stays, the canonical
form is kept; then the same for values of 1, 2 and 4 bytes (20_memory.md R43 to R45).
-/

namespace Sys2Proof.Machine

/-! ### One byte -/

theorem memWfFrom_mono {lo hi : Nat} {m : List Host.Cell} (h : lo ≤ hi) (hm : memWfFrom hi m = true) :
    memWfFrom lo m = true := by
  cases m with
  | nil => rfl
  | cons e m =>
    rcases e with ⟨a, v⟩
    simp only [memWfFrom, Bool.and_eq_true, decide_eq_true_eq] at hm ⊢
    exact ⟨⟨⟨by omega, hm.1.1.2⟩, hm.1.2⟩, hm.2⟩

/-- Below the first listed address every byte is unlisted. -/
theorem memGet_below {lo : Nat} {m : List Host.Cell} (hm : memWfFrom lo m = true) {a : Nat} (h : a < lo) :
    memGet m a = unlistedByte := by
  induction m generalizing lo with
  | nil => rfl
  | cons e m ih =>
    rcases e with ⟨b, w⟩
    simp only [memWfFrom, Bool.and_eq_true, decide_eq_true_eq] at hm
    rw [memGet, if_neg (by omega)]
    exact ih hm.2 (by omega)

/-- A byte written reads back. -/
theorem memGet_memSet_same {lo : Nat} {m : List Host.Cell} (hm : memWfFrom lo m = true) (a : Nat) (v : Byte) :
    memGet (memSet m a v) a = v := by
  induction m generalizing lo with
  | nil =>
    simp only [memSet]
    split
    · next h => simp [memGet, h]
    · simp [memGet]
  | cons e m ih =>
    rcases e with ⟨b, w⟩
    have hm' := hm
    simp only [memWfFrom, Bool.and_eq_true, decide_eq_true_eq] at hm'
    simp only [memSet]
    split
    · split
      · next h1 h2 =>
        rw [memGet, if_neg (by omega), h2]
        exact memGet_below hm'.2 (by omega)
      · simp [memGet]
    · split
      · split
        · next h1 h2 h3 =>
          rw [h3]
          exact memGet_below hm'.2 (by omega)
        · simp [memGet]
      · next h1 h2 =>
        rw [memGet, if_neg (by omega)]
        exact ih hm'.2

/-- A write of one byte leaves every other byte alone. -/
theorem memGet_memSet_ne (m : List Host.Cell) {a b : Nat} (v : Byte) (h : b ≠ a) :
    memGet (memSet m a v) b = memGet m b := by
  induction m with
  | nil =>
    simp only [memSet]
    split <;> simp [memGet, h]
  | cons e m ih =>
    rcases e with ⟨c, w⟩
    simp only [memSet]
    split
    · split <;> simp [memGet, h]
    · split
      · next h1 h2 =>
        subst h2
        split <;> simp [memGet, h]
      · simp only [memGet, ih]

/-- A write of one byte keeps the canonical form. -/
theorem memSet_wf {lo : Nat} {m : List Host.Cell} (hm : memWfFrom lo m = true) {a : Nat} (v : Byte)
    (hlo : lo ≤ a) (ha : a < 2 ^ 32) : memWfFrom lo (memSet m a v) = true := by
  induction m generalizing lo with
  | nil =>
    simp only [memSet]
    split
    · rfl
    · next h => simpa [memWfFrom, hlo, h] using ha
  | cons e m ih =>
    rcases e with ⟨b, w⟩
    have hm' := hm
    simp only [memWfFrom, Bool.and_eq_true, decide_eq_true_eq] at hm'
    simp only [memSet]
    split
    · split
      · exact hm
      · next h1 h2 =>
        simp only [memWfFrom, Bool.and_eq_true, decide_eq_true_eq]
        exact ⟨⟨⟨hlo, ha⟩, by simpa using h2⟩, ⟨⟨by omega, hm'.1.1.2⟩, hm'.1.2⟩, hm'.2⟩
    · split
      · next h1 h2 =>
        split
        · exact memWfFrom_mono (by omega) hm'.2
        · next h3 =>
          simp only [memWfFrom, Bool.and_eq_true, decide_eq_true_eq]
          exact ⟨⟨⟨hlo, ha⟩, by simpa using h3⟩, by subst h2; exact hm'.2⟩
      · next h1 h2 =>
        simp only [memWfFrom, Bool.and_eq_true, decide_eq_true_eq]
        exact ⟨hm'.1, ih hm'.2 (by omega)⟩

theorem byteAt_setByte_same {m : List Host.Cell} (hm : Memory.wf m = true) (a : Word) (v : Byte) :
    byteAt (setByte m a v) a = v :=
  memGet_memSet_same hm a.toNat v

theorem byteAt_setByte_ne (m : List Host.Cell) {a b : Word} (v : Byte) (h : b ≠ a) :
    byteAt (setByte m a v) b = byteAt m b :=
  memGet_memSet_ne m v fun e => h (BitVec.eq_of_toNat_eq e)

theorem setByte_wf {m : List Host.Cell} (hm : Memory.wf m = true) (a : Word) (v : Byte) :
    Memory.wf (setByte m a v) = true :=
  memSet_wf hm v (Nat.zero_le _) a.isLt

/-- What a byte reads after a write of one byte. -/
theorem byteAt_setByte {m : List Host.Cell} (hm : Memory.wf m = true) (a b : Word) (v : Byte) :
    byteAt (setByte m a v) b = if b = a then v else byteAt m b := by
  split
  · next h => rw [h, byteAt_setByte_same hm]
  · next h => exact byteAt_setByte_ne m v h

/-! ### Values of 1, 2 and 4 bytes -/

/-- A write of a value keeps the canonical form. -/
theorem putValue_wf {m : List Host.Cell} (hm : Memory.wf m = true) (o : ByteOrder) (a v : Word) (w : Width) :
    Memory.wf (putValue o m a v w) = true := by
  cases w <;> cases o <;> simp only [putValue] <;> (repeat first | exact hm | apply setByte_wf)

/-- A write of `n` bytes leaves every byte outside them alone. -/
theorem byteAt_putValue_outside (m : List Host.Cell) (o : ByteOrder) {a b : Word} (v : Word) (w : Width)
    (h : widthBytes w ≤ b - a) : byteAt (putValue o m a v w) b = byteAt m b := by
  cases w <;> cases o <;> simp only [putValue, widthBytes] at * <;>
    (repeat rw [byteAt_setByte_ne _ _ (by bv_omega)])

/-- The four bytes after a write of a word, little-endian. -/
theorem byteAt_putValue_little {m : List Host.Cell} (hm : Memory.wf m = true) (a v : Word) {k : Nat}
    (hk : k < 4) :
    byteAt (putValue .little m a v .word) (a + BitVec.ofNat 32 k) = v.extractLsb' (8 * k) 8 := by
  have h1 := setByte_wf hm a (byteOf v 0)
  have h2 := setByte_wf h1 (a + 1) (byteOf v 1)
  have h3 := setByte_wf h2 (a + 2) (byteOf v 2)
  match k, hk with
  | 0, _ =>
    simp only [putValue]
    rw [byteAt_setByte_ne _ _ (by bv_omega), byteAt_setByte_ne _ _ (by bv_omega),
      byteAt_setByte_ne _ _ (by bv_omega), show a + BitVec.ofNat 32 0 = a by simp, byteAt_setByte_same hm]
    rfl
  | 1, _ =>
    simp only [putValue]
    rw [byteAt_setByte_ne _ _ (by bv_omega), byteAt_setByte_ne _ _ (by bv_omega)]
    exact byteAt_setByte_same h1 _ _
  | 2, _ =>
    simp only [putValue]
    rw [byteAt_setByte_ne _ _ (by bv_omega)]
    exact byteAt_setByte_same h2 _ _
  | 3, _ => exact byteAt_setByte_same h3 _ _

/-- The four bytes after a write of a word, big-endian. -/
theorem byteAt_putValue_big {m : List Host.Cell} (hm : Memory.wf m = true) (a v : Word) {k : Nat}
    (hk : k < 4) :
    byteAt (putValue .big m a v .word) (a + BitVec.ofNat 32 k) = v.extractLsb' (8 * (3 - k)) 8 := by
  have h1 := setByte_wf hm a (byteOf v 3)
  have h2 := setByte_wf h1 (a + 1) (byteOf v 2)
  have h3 := setByte_wf h2 (a + 2) (byteOf v 1)
  match k, hk with
  | 0, _ =>
    simp only [putValue]
    rw [byteAt_setByte_ne _ _ (by bv_omega), byteAt_setByte_ne _ _ (by bv_omega),
      byteAt_setByte_ne _ _ (by bv_omega), show a + BitVec.ofNat 32 0 = a by simp, byteAt_setByte_same hm]
    rfl
  | 1, _ =>
    simp only [putValue]
    rw [byteAt_setByte_ne _ _ (by bv_omega), byteAt_setByte_ne _ _ (by bv_omega)]
    exact byteAt_setByte_same h1 _ _
  | 2, _ =>
    simp only [putValue]
    rw [byteAt_setByte_ne _ _ (by bv_omega)]
    exact byteAt_setByte_same h2 _ _
  | 3, _ => exact byteAt_setByte_same h3 _ _

/-- The bytes of a word, joined again. -/
theorem bytes_join (v : Word) :
    v.extractLsb' (8 * 3) 8 ++ v.extractLsb' (8 * 2) 8 ++ v.extractLsb' (8 * 1) 8 ++ v.extractLsb' (8 * 0) 8 =
      v := by
  ext i hi
  simp only [BitVec.getElem_eq_testBit_toNat, BitVec.testBit_toNat, BitVec.getLsbD_append,
    BitVec.getLsbD_extractLsb']
  grind

/-- A word written reads back, in either byte order. -/
theorem wordAt_putValue {m : List Host.Cell} (hm : Memory.wf m = true) (o : ByteOrder) (a v : Word) :
    valueAt o (putValue o m a v .word) a .word = v := by
  cases o with
  | little =>
    have h k hk := byteAt_putValue_little hm a v (k := k) hk
    have h0 := h 0 (by omega)
    have h1 := h 1 (by omega)
    have h2 := h 2 (by omega)
    have h3 := h 3 (by omega)
    simp only [BitVec.add_zero] at h0 h1 h2 h3
    simp only [valueAt, wordOfBytes, BitVec.ofNat_eq_ofNat, h0, h1, h2, h3]
    exact bytes_join v
  | big =>
    have h k hk := byteAt_putValue_big hm a v (k := k) hk
    have h0 := h 0 (by omega)
    have h1 := h 1 (by omega)
    have h2 := h 2 (by omega)
    have h3 := h 3 (by omega)
    simp only [BitVec.add_zero] at h0 h1 h2 h3
    simp only [valueAt, wordOfBytes, BitVec.ofNat_eq_ofNat, h0, h1, h2, h3]
    exact bytes_join v

/-- A word read where a disjoint word was written reads as before. -/
theorem wordAt_putValue_ne (m : List Host.Cell) (o p : ByteOrder) {a b : Word} (v : Word)
    (h1 : 4 ≤ b - a) (h2 : 4 ≤ a - b) :
    valueAt p (putValue o m a v .word) b .word = valueAt p m b .word := by
  simp only [valueAt]
  rw [byteAt_putValue_outside, byteAt_putValue_outside, byteAt_putValue_outside, byteAt_putValue_outside] <;>
    simp only [widthBytes] <;> bv_omega

/-- The two bytes after a write of a half, little-endian. -/
theorem byteAt_putValue_half_little {m : List Host.Cell} (hm : Memory.wf m = true) (a v : Word) {k : Nat}
    (hk : k < 2) :
    byteAt (putValue .little m a v .half) (a + BitVec.ofNat 32 k) = v.extractLsb' (8 * k) 8 := by
  match k, hk with
  | 0, _ =>
    simp only [putValue]
    rw [byteAt_setByte_ne _ _ (by bv_omega), show a + BitVec.ofNat 32 0 = a by simp, byteAt_setByte_same hm]
    rfl
  | 1, _ => exact byteAt_setByte_same (setByte_wf hm a (byteOf v 0)) _ _

/-- The two bytes after a write of a half, big-endian. -/
theorem byteAt_putValue_half_big {m : List Host.Cell} (hm : Memory.wf m = true) (a v : Word) {k : Nat}
    (hk : k < 2) :
    byteAt (putValue .big m a v .half) (a + BitVec.ofNat 32 k) = v.extractLsb' (8 * (1 - k)) 8 := by
  match k, hk with
  | 0, _ =>
    simp only [putValue]
    rw [byteAt_setByte_ne _ _ (by bv_omega), show a + BitVec.ofNat 32 0 = a by simp, byteAt_setByte_same hm]
    rfl
  | 1, _ => exact byteAt_setByte_same (setByte_wf hm a (byteOf v 1)) _ _

/-- A half written reads back. -/
theorem halfAt_putValue {m : List Host.Cell} (hm : Memory.wf m = true) (o : ByteOrder) (a v : Word) :
    valueAt o (putValue o m a v .half) a .half = (v.extractLsb' 0 16).setWidth 32 := by
  have hj : v.extractLsb' (8 * 1) 8 ++ v.extractLsb' (8 * 0) 8 = v.extractLsb' 0 16 := by
    ext i hi
    simp only [BitVec.getElem_eq_testBit_toNat, BitVec.testBit_toNat, BitVec.getLsbD_append,
      BitVec.getLsbD_extractLsb']
    grind
  have hw b := setByte_wf hm a b
  have hs b c : byteAt (setByte (setByte m a b) (a + 1) c) a = b := by
    rw [byteAt_setByte_ne _ _ (by bv_omega), byteAt_setByte_same hm]
  have ht b c : byteAt (setByte (setByte m a b) (a + 1) c) (a + 1) = c := byteAt_setByte_same (hw b) _ _
  cases o <;> simp only [valueAt, putValue, halfOfBytes, hs, ht, byteOf, hj]

/-- A byte written reads back. -/
theorem lowByteAt_putValue {m : List Host.Cell} (hm : Memory.wf m = true) (o : ByteOrder) (a v : Word) :
    valueAt o (putValue o m a v .byte) a .byte = (v.extractLsb' 0 8).setWidth 32 := by
  simp only [valueAt, putValue, byteAt_setByte_same hm, byteOf]

end Sys2Proof.Machine
end

