-- ==== Sys2Proof/Laws/State.lean ====
section
/-!
SUPPORT. What each field is after each named update: one lemma per field per update, so that no proof
unfolds an update; and what a numbered register reads after a plain register write.
-/

namespace Sys2Proof.Machine

/-! ### `setPc` -/

@[simp] theorem setPc_r0 (s : State) (v : Word) : (s.setPc v).r0 = s.r0 := rfl
@[simp] theorem setPc_r1 (s : State) (v : Word) : (s.setPc v).r1 = s.r1 := rfl
@[simp] theorem setPc_r2 (s : State) (v : Word) : (s.setPc v).r2 = s.r2 := rfl
@[simp] theorem setPc_r3 (s : State) (v : Word) : (s.setPc v).r3 = s.r3 := rfl
@[simp] theorem setPc_r4 (s : State) (v : Word) : (s.setPc v).r4 = s.r4 := rfl
@[simp] theorem setPc_r5 (s : State) (v : Word) : (s.setPc v).r5 = s.r5 := rfl
@[simp] theorem setPc_r6 (s : State) (v : Word) : (s.setPc v).r6 = s.r6 := rfl
@[simp] theorem setPc_r7 (s : State) (v : Word) : (s.setPc v).r7 = s.r7 := rfl
@[simp] theorem setPc_r8 (s : State) (v : Word) : (s.setPc v).r8 = s.r8 := rfl
@[simp] theorem setPc_r9 (s : State) (v : Word) : (s.setPc v).r9 = s.r9 := rfl
@[simp] theorem setPc_cc0 (s : State) (v : Word) : (s.setPc v).cc0 = s.cc0 := rfl
@[simp] theorem setPc_cc1 (s : State) (v : Word) : (s.setPc v).cc1 = s.cc1 := rfl
@[simp] theorem setPc_cc2 (s : State) (v : Word) : (s.setPc v).cc2 = s.cc2 := rfl
@[simp] theorem setPc_cc3 (s : State) (v : Word) : (s.setPc v).cc3 = s.cc3 := rfl
@[simp] theorem setPc_dsp (s : State) (v : Word) : (s.setPc v).dsp = s.dsp := rfl
@[simp] theorem setPc_isp (s : State) (v : Word) : (s.setPc v).isp = s.isp := rfl
@[simp] theorem setPc_sr (s : State) (v : Word) : (s.setPc v).sr = s.sr := rfl
@[simp] theorem setPc_pc (s : State) (v : Word) : (s.setPc v).pc = v := rfl
@[simp] theorem setPc_ssp (s : State) (v : Word) : (s.setPc v).ssp = s.ssp := rfl
@[simp] theorem setPc_spc (s : State) (v : Word) : (s.setPc v).spc = s.spc := rfl
@[simp] theorem setPc_mem (s : State) (v : Word) : (s.setPc v).mem = s.mem := rfl
@[simp] theorem setPc_cfg (s : State) (v : Word) : (s.setPc v).cfg = s.cfg := rfl
@[simp] theorem setPc_env (s : State) (v : Word) : (s.setPc v).env = s.env := rfl
@[simp] theorem setPc_inReset (s : State) (v : Word) : (s.setPc v).inReset = s.inReset := rfl
@[simp] theorem setPc_entered (s : State) (v : Word) : (s.setPc v).entered = s.entered := rfl

/-! ### `setSr` -/

@[simp] theorem setSr_r0 (s : State) (v : Half) : (s.setSr v).r0 = s.r0 := rfl
@[simp] theorem setSr_r1 (s : State) (v : Half) : (s.setSr v).r1 = s.r1 := rfl
@[simp] theorem setSr_r2 (s : State) (v : Half) : (s.setSr v).r2 = s.r2 := rfl
@[simp] theorem setSr_r3 (s : State) (v : Half) : (s.setSr v).r3 = s.r3 := rfl
@[simp] theorem setSr_r4 (s : State) (v : Half) : (s.setSr v).r4 = s.r4 := rfl
@[simp] theorem setSr_r5 (s : State) (v : Half) : (s.setSr v).r5 = s.r5 := rfl
@[simp] theorem setSr_r6 (s : State) (v : Half) : (s.setSr v).r6 = s.r6 := rfl
@[simp] theorem setSr_r7 (s : State) (v : Half) : (s.setSr v).r7 = s.r7 := rfl
@[simp] theorem setSr_r8 (s : State) (v : Half) : (s.setSr v).r8 = s.r8 := rfl
@[simp] theorem setSr_r9 (s : State) (v : Half) : (s.setSr v).r9 = s.r9 := rfl
@[simp] theorem setSr_cc0 (s : State) (v : Half) : (s.setSr v).cc0 = s.cc0 := rfl
@[simp] theorem setSr_cc1 (s : State) (v : Half) : (s.setSr v).cc1 = s.cc1 := rfl
@[simp] theorem setSr_cc2 (s : State) (v : Half) : (s.setSr v).cc2 = s.cc2 := rfl
@[simp] theorem setSr_cc3 (s : State) (v : Half) : (s.setSr v).cc3 = s.cc3 := rfl
@[simp] theorem setSr_dsp (s : State) (v : Half) : (s.setSr v).dsp = s.dsp := rfl
@[simp] theorem setSr_isp (s : State) (v : Half) : (s.setSr v).isp = s.isp := rfl
@[simp] theorem setSr_sr (s : State) (v : Half) : (s.setSr v).sr = v := rfl
@[simp] theorem setSr_pc (s : State) (v : Half) : (s.setSr v).pc = s.pc := rfl
@[simp] theorem setSr_ssp (s : State) (v : Half) : (s.setSr v).ssp = s.ssp := rfl
@[simp] theorem setSr_spc (s : State) (v : Half) : (s.setSr v).spc = s.spc := rfl
@[simp] theorem setSr_mem (s : State) (v : Half) : (s.setSr v).mem = s.mem := rfl
@[simp] theorem setSr_cfg (s : State) (v : Half) : (s.setSr v).cfg = s.cfg := rfl
@[simp] theorem setSr_env (s : State) (v : Half) : (s.setSr v).env = s.env := rfl
@[simp] theorem setSr_inReset (s : State) (v : Half) : (s.setSr v).inReset = s.inReset := rfl
@[simp] theorem setSr_entered (s : State) (v : Half) : (s.setSr v).entered = s.entered := rfl

/-! ### `setDsp` -/

@[simp] theorem setDsp_r0 (s : State) (v : Word) : (s.setDsp v).r0 = s.r0 := rfl
@[simp] theorem setDsp_r1 (s : State) (v : Word) : (s.setDsp v).r1 = s.r1 := rfl
@[simp] theorem setDsp_r2 (s : State) (v : Word) : (s.setDsp v).r2 = s.r2 := rfl
@[simp] theorem setDsp_r3 (s : State) (v : Word) : (s.setDsp v).r3 = s.r3 := rfl
@[simp] theorem setDsp_r4 (s : State) (v : Word) : (s.setDsp v).r4 = s.r4 := rfl
@[simp] theorem setDsp_r5 (s : State) (v : Word) : (s.setDsp v).r5 = s.r5 := rfl
@[simp] theorem setDsp_r6 (s : State) (v : Word) : (s.setDsp v).r6 = s.r6 := rfl
@[simp] theorem setDsp_r7 (s : State) (v : Word) : (s.setDsp v).r7 = s.r7 := rfl
@[simp] theorem setDsp_r8 (s : State) (v : Word) : (s.setDsp v).r8 = s.r8 := rfl
@[simp] theorem setDsp_r9 (s : State) (v : Word) : (s.setDsp v).r9 = s.r9 := rfl
@[simp] theorem setDsp_cc0 (s : State) (v : Word) : (s.setDsp v).cc0 = s.cc0 := rfl
@[simp] theorem setDsp_cc1 (s : State) (v : Word) : (s.setDsp v).cc1 = s.cc1 := rfl
@[simp] theorem setDsp_cc2 (s : State) (v : Word) : (s.setDsp v).cc2 = s.cc2 := rfl
@[simp] theorem setDsp_cc3 (s : State) (v : Word) : (s.setDsp v).cc3 = s.cc3 := rfl
@[simp] theorem setDsp_dsp (s : State) (v : Word) : (s.setDsp v).dsp = v := rfl
@[simp] theorem setDsp_isp (s : State) (v : Word) : (s.setDsp v).isp = s.isp := rfl
@[simp] theorem setDsp_sr (s : State) (v : Word) : (s.setDsp v).sr = s.sr := rfl
@[simp] theorem setDsp_pc (s : State) (v : Word) : (s.setDsp v).pc = s.pc := rfl
@[simp] theorem setDsp_ssp (s : State) (v : Word) : (s.setDsp v).ssp = s.ssp := rfl
@[simp] theorem setDsp_spc (s : State) (v : Word) : (s.setDsp v).spc = s.spc := rfl
@[simp] theorem setDsp_mem (s : State) (v : Word) : (s.setDsp v).mem = s.mem := rfl
@[simp] theorem setDsp_cfg (s : State) (v : Word) : (s.setDsp v).cfg = s.cfg := rfl
@[simp] theorem setDsp_env (s : State) (v : Word) : (s.setDsp v).env = s.env := rfl
@[simp] theorem setDsp_inReset (s : State) (v : Word) : (s.setDsp v).inReset = s.inReset := rfl
@[simp] theorem setDsp_entered (s : State) (v : Word) : (s.setDsp v).entered = s.entered := rfl

/-! ### `setIsp` -/

@[simp] theorem setIsp_r0 (s : State) (v : Word) : (s.setIsp v).r0 = s.r0 := rfl
@[simp] theorem setIsp_r1 (s : State) (v : Word) : (s.setIsp v).r1 = s.r1 := rfl
@[simp] theorem setIsp_r2 (s : State) (v : Word) : (s.setIsp v).r2 = s.r2 := rfl
@[simp] theorem setIsp_r3 (s : State) (v : Word) : (s.setIsp v).r3 = s.r3 := rfl
@[simp] theorem setIsp_r4 (s : State) (v : Word) : (s.setIsp v).r4 = s.r4 := rfl
@[simp] theorem setIsp_r5 (s : State) (v : Word) : (s.setIsp v).r5 = s.r5 := rfl
@[simp] theorem setIsp_r6 (s : State) (v : Word) : (s.setIsp v).r6 = s.r6 := rfl
@[simp] theorem setIsp_r7 (s : State) (v : Word) : (s.setIsp v).r7 = s.r7 := rfl
@[simp] theorem setIsp_r8 (s : State) (v : Word) : (s.setIsp v).r8 = s.r8 := rfl
@[simp] theorem setIsp_r9 (s : State) (v : Word) : (s.setIsp v).r9 = s.r9 := rfl
@[simp] theorem setIsp_cc0 (s : State) (v : Word) : (s.setIsp v).cc0 = s.cc0 := rfl
@[simp] theorem setIsp_cc1 (s : State) (v : Word) : (s.setIsp v).cc1 = s.cc1 := rfl
@[simp] theorem setIsp_cc2 (s : State) (v : Word) : (s.setIsp v).cc2 = s.cc2 := rfl
@[simp] theorem setIsp_cc3 (s : State) (v : Word) : (s.setIsp v).cc3 = s.cc3 := rfl
@[simp] theorem setIsp_dsp (s : State) (v : Word) : (s.setIsp v).dsp = s.dsp := rfl
@[simp] theorem setIsp_isp (s : State) (v : Word) : (s.setIsp v).isp = v := rfl
@[simp] theorem setIsp_sr (s : State) (v : Word) : (s.setIsp v).sr = s.sr := rfl
@[simp] theorem setIsp_pc (s : State) (v : Word) : (s.setIsp v).pc = s.pc := rfl
@[simp] theorem setIsp_ssp (s : State) (v : Word) : (s.setIsp v).ssp = s.ssp := rfl
@[simp] theorem setIsp_spc (s : State) (v : Word) : (s.setIsp v).spc = s.spc := rfl
@[simp] theorem setIsp_mem (s : State) (v : Word) : (s.setIsp v).mem = s.mem := rfl
@[simp] theorem setIsp_cfg (s : State) (v : Word) : (s.setIsp v).cfg = s.cfg := rfl
@[simp] theorem setIsp_env (s : State) (v : Word) : (s.setIsp v).env = s.env := rfl
@[simp] theorem setIsp_inReset (s : State) (v : Word) : (s.setIsp v).inReset = s.inReset := rfl
@[simp] theorem setIsp_entered (s : State) (v : Word) : (s.setIsp v).entered = s.entered := rfl

/-! ### `setSsp` -/

@[simp] theorem setSsp_r0 (s : State) (v : Word) : (s.setSsp v).r0 = s.r0 := rfl
@[simp] theorem setSsp_r1 (s : State) (v : Word) : (s.setSsp v).r1 = s.r1 := rfl
@[simp] theorem setSsp_r2 (s : State) (v : Word) : (s.setSsp v).r2 = s.r2 := rfl
@[simp] theorem setSsp_r3 (s : State) (v : Word) : (s.setSsp v).r3 = s.r3 := rfl
@[simp] theorem setSsp_r4 (s : State) (v : Word) : (s.setSsp v).r4 = s.r4 := rfl
@[simp] theorem setSsp_r5 (s : State) (v : Word) : (s.setSsp v).r5 = s.r5 := rfl
@[simp] theorem setSsp_r6 (s : State) (v : Word) : (s.setSsp v).r6 = s.r6 := rfl
@[simp] theorem setSsp_r7 (s : State) (v : Word) : (s.setSsp v).r7 = s.r7 := rfl
@[simp] theorem setSsp_r8 (s : State) (v : Word) : (s.setSsp v).r8 = s.r8 := rfl
@[simp] theorem setSsp_r9 (s : State) (v : Word) : (s.setSsp v).r9 = s.r9 := rfl
@[simp] theorem setSsp_cc0 (s : State) (v : Word) : (s.setSsp v).cc0 = s.cc0 := rfl
@[simp] theorem setSsp_cc1 (s : State) (v : Word) : (s.setSsp v).cc1 = s.cc1 := rfl
@[simp] theorem setSsp_cc2 (s : State) (v : Word) : (s.setSsp v).cc2 = s.cc2 := rfl
@[simp] theorem setSsp_cc3 (s : State) (v : Word) : (s.setSsp v).cc3 = s.cc3 := rfl
@[simp] theorem setSsp_dsp (s : State) (v : Word) : (s.setSsp v).dsp = s.dsp := rfl
@[simp] theorem setSsp_isp (s : State) (v : Word) : (s.setSsp v).isp = s.isp := rfl
@[simp] theorem setSsp_sr (s : State) (v : Word) : (s.setSsp v).sr = s.sr := rfl
@[simp] theorem setSsp_pc (s : State) (v : Word) : (s.setSsp v).pc = s.pc := rfl
@[simp] theorem setSsp_ssp (s : State) (v : Word) : (s.setSsp v).ssp = v := rfl
@[simp] theorem setSsp_spc (s : State) (v : Word) : (s.setSsp v).spc = s.spc := rfl
@[simp] theorem setSsp_mem (s : State) (v : Word) : (s.setSsp v).mem = s.mem := rfl
@[simp] theorem setSsp_cfg (s : State) (v : Word) : (s.setSsp v).cfg = s.cfg := rfl
@[simp] theorem setSsp_env (s : State) (v : Word) : (s.setSsp v).env = s.env := rfl
@[simp] theorem setSsp_inReset (s : State) (v : Word) : (s.setSsp v).inReset = s.inReset := rfl
@[simp] theorem setSsp_entered (s : State) (v : Word) : (s.setSsp v).entered = s.entered := rfl

/-! ### `setSpc` -/

@[simp] theorem setSpc_r0 (s : State) (v : Word) : (s.setSpc v).r0 = s.r0 := rfl
@[simp] theorem setSpc_r1 (s : State) (v : Word) : (s.setSpc v).r1 = s.r1 := rfl
@[simp] theorem setSpc_r2 (s : State) (v : Word) : (s.setSpc v).r2 = s.r2 := rfl
@[simp] theorem setSpc_r3 (s : State) (v : Word) : (s.setSpc v).r3 = s.r3 := rfl
@[simp] theorem setSpc_r4 (s : State) (v : Word) : (s.setSpc v).r4 = s.r4 := rfl
@[simp] theorem setSpc_r5 (s : State) (v : Word) : (s.setSpc v).r5 = s.r5 := rfl
@[simp] theorem setSpc_r6 (s : State) (v : Word) : (s.setSpc v).r6 = s.r6 := rfl
@[simp] theorem setSpc_r7 (s : State) (v : Word) : (s.setSpc v).r7 = s.r7 := rfl
@[simp] theorem setSpc_r8 (s : State) (v : Word) : (s.setSpc v).r8 = s.r8 := rfl
@[simp] theorem setSpc_r9 (s : State) (v : Word) : (s.setSpc v).r9 = s.r9 := rfl
@[simp] theorem setSpc_cc0 (s : State) (v : Word) : (s.setSpc v).cc0 = s.cc0 := rfl
@[simp] theorem setSpc_cc1 (s : State) (v : Word) : (s.setSpc v).cc1 = s.cc1 := rfl
@[simp] theorem setSpc_cc2 (s : State) (v : Word) : (s.setSpc v).cc2 = s.cc2 := rfl
@[simp] theorem setSpc_cc3 (s : State) (v : Word) : (s.setSpc v).cc3 = s.cc3 := rfl
@[simp] theorem setSpc_dsp (s : State) (v : Word) : (s.setSpc v).dsp = s.dsp := rfl
@[simp] theorem setSpc_isp (s : State) (v : Word) : (s.setSpc v).isp = s.isp := rfl
@[simp] theorem setSpc_sr (s : State) (v : Word) : (s.setSpc v).sr = s.sr := rfl
@[simp] theorem setSpc_pc (s : State) (v : Word) : (s.setSpc v).pc = s.pc := rfl
@[simp] theorem setSpc_ssp (s : State) (v : Word) : (s.setSpc v).ssp = s.ssp := rfl
@[simp] theorem setSpc_spc (s : State) (v : Word) : (s.setSpc v).spc = v := rfl
@[simp] theorem setSpc_mem (s : State) (v : Word) : (s.setSpc v).mem = s.mem := rfl
@[simp] theorem setSpc_cfg (s : State) (v : Word) : (s.setSpc v).cfg = s.cfg := rfl
@[simp] theorem setSpc_env (s : State) (v : Word) : (s.setSpc v).env = s.env := rfl
@[simp] theorem setSpc_inReset (s : State) (v : Word) : (s.setSpc v).inReset = s.inReset := rfl
@[simp] theorem setSpc_entered (s : State) (v : Word) : (s.setSpc v).entered = s.entered := rfl

/-! ### `setCc0` -/

@[simp] theorem setCc0_r0 (s : State) (v : Half) : (s.setCc0 v).r0 = s.r0 := rfl
@[simp] theorem setCc0_r1 (s : State) (v : Half) : (s.setCc0 v).r1 = s.r1 := rfl
@[simp] theorem setCc0_r2 (s : State) (v : Half) : (s.setCc0 v).r2 = s.r2 := rfl
@[simp] theorem setCc0_r3 (s : State) (v : Half) : (s.setCc0 v).r3 = s.r3 := rfl
@[simp] theorem setCc0_r4 (s : State) (v : Half) : (s.setCc0 v).r4 = s.r4 := rfl
@[simp] theorem setCc0_r5 (s : State) (v : Half) : (s.setCc0 v).r5 = s.r5 := rfl
@[simp] theorem setCc0_r6 (s : State) (v : Half) : (s.setCc0 v).r6 = s.r6 := rfl
@[simp] theorem setCc0_r7 (s : State) (v : Half) : (s.setCc0 v).r7 = s.r7 := rfl
@[simp] theorem setCc0_r8 (s : State) (v : Half) : (s.setCc0 v).r8 = s.r8 := rfl
@[simp] theorem setCc0_r9 (s : State) (v : Half) : (s.setCc0 v).r9 = s.r9 := rfl
@[simp] theorem setCc0_cc0 (s : State) (v : Half) : (s.setCc0 v).cc0 = v := rfl
@[simp] theorem setCc0_cc1 (s : State) (v : Half) : (s.setCc0 v).cc1 = s.cc1 := rfl
@[simp] theorem setCc0_cc2 (s : State) (v : Half) : (s.setCc0 v).cc2 = s.cc2 := rfl
@[simp] theorem setCc0_cc3 (s : State) (v : Half) : (s.setCc0 v).cc3 = s.cc3 := rfl
@[simp] theorem setCc0_dsp (s : State) (v : Half) : (s.setCc0 v).dsp = s.dsp := rfl
@[simp] theorem setCc0_isp (s : State) (v : Half) : (s.setCc0 v).isp = s.isp := rfl
@[simp] theorem setCc0_sr (s : State) (v : Half) : (s.setCc0 v).sr = s.sr := rfl
@[simp] theorem setCc0_pc (s : State) (v : Half) : (s.setCc0 v).pc = s.pc := rfl
@[simp] theorem setCc0_ssp (s : State) (v : Half) : (s.setCc0 v).ssp = s.ssp := rfl
@[simp] theorem setCc0_spc (s : State) (v : Half) : (s.setCc0 v).spc = s.spc := rfl
@[simp] theorem setCc0_mem (s : State) (v : Half) : (s.setCc0 v).mem = s.mem := rfl
@[simp] theorem setCc0_cfg (s : State) (v : Half) : (s.setCc0 v).cfg = s.cfg := rfl
@[simp] theorem setCc0_env (s : State) (v : Half) : (s.setCc0 v).env = s.env := rfl
@[simp] theorem setCc0_inReset (s : State) (v : Half) : (s.setCc0 v).inReset = s.inReset := rfl
@[simp] theorem setCc0_entered (s : State) (v : Half) : (s.setCc0 v).entered = s.entered := rfl

/-! ### `setCc1` -/

@[simp] theorem setCc1_r0 (s : State) (v : Half) : (s.setCc1 v).r0 = s.r0 := rfl
@[simp] theorem setCc1_r1 (s : State) (v : Half) : (s.setCc1 v).r1 = s.r1 := rfl
@[simp] theorem setCc1_r2 (s : State) (v : Half) : (s.setCc1 v).r2 = s.r2 := rfl
@[simp] theorem setCc1_r3 (s : State) (v : Half) : (s.setCc1 v).r3 = s.r3 := rfl
@[simp] theorem setCc1_r4 (s : State) (v : Half) : (s.setCc1 v).r4 = s.r4 := rfl
@[simp] theorem setCc1_r5 (s : State) (v : Half) : (s.setCc1 v).r5 = s.r5 := rfl
@[simp] theorem setCc1_r6 (s : State) (v : Half) : (s.setCc1 v).r6 = s.r6 := rfl
@[simp] theorem setCc1_r7 (s : State) (v : Half) : (s.setCc1 v).r7 = s.r7 := rfl
@[simp] theorem setCc1_r8 (s : State) (v : Half) : (s.setCc1 v).r8 = s.r8 := rfl
@[simp] theorem setCc1_r9 (s : State) (v : Half) : (s.setCc1 v).r9 = s.r9 := rfl
@[simp] theorem setCc1_cc0 (s : State) (v : Half) : (s.setCc1 v).cc0 = s.cc0 := rfl
@[simp] theorem setCc1_cc1 (s : State) (v : Half) : (s.setCc1 v).cc1 = v := rfl
@[simp] theorem setCc1_cc2 (s : State) (v : Half) : (s.setCc1 v).cc2 = s.cc2 := rfl
@[simp] theorem setCc1_cc3 (s : State) (v : Half) : (s.setCc1 v).cc3 = s.cc3 := rfl
@[simp] theorem setCc1_dsp (s : State) (v : Half) : (s.setCc1 v).dsp = s.dsp := rfl
@[simp] theorem setCc1_isp (s : State) (v : Half) : (s.setCc1 v).isp = s.isp := rfl
@[simp] theorem setCc1_sr (s : State) (v : Half) : (s.setCc1 v).sr = s.sr := rfl
@[simp] theorem setCc1_pc (s : State) (v : Half) : (s.setCc1 v).pc = s.pc := rfl
@[simp] theorem setCc1_ssp (s : State) (v : Half) : (s.setCc1 v).ssp = s.ssp := rfl
@[simp] theorem setCc1_spc (s : State) (v : Half) : (s.setCc1 v).spc = s.spc := rfl
@[simp] theorem setCc1_mem (s : State) (v : Half) : (s.setCc1 v).mem = s.mem := rfl
@[simp] theorem setCc1_cfg (s : State) (v : Half) : (s.setCc1 v).cfg = s.cfg := rfl
@[simp] theorem setCc1_env (s : State) (v : Half) : (s.setCc1 v).env = s.env := rfl
@[simp] theorem setCc1_inReset (s : State) (v : Half) : (s.setCc1 v).inReset = s.inReset := rfl
@[simp] theorem setCc1_entered (s : State) (v : Half) : (s.setCc1 v).entered = s.entered := rfl

/-! ### `setCc2` -/

@[simp] theorem setCc2_r0 (s : State) (v : Half) : (s.setCc2 v).r0 = s.r0 := rfl
@[simp] theorem setCc2_r1 (s : State) (v : Half) : (s.setCc2 v).r1 = s.r1 := rfl
@[simp] theorem setCc2_r2 (s : State) (v : Half) : (s.setCc2 v).r2 = s.r2 := rfl
@[simp] theorem setCc2_r3 (s : State) (v : Half) : (s.setCc2 v).r3 = s.r3 := rfl
@[simp] theorem setCc2_r4 (s : State) (v : Half) : (s.setCc2 v).r4 = s.r4 := rfl
@[simp] theorem setCc2_r5 (s : State) (v : Half) : (s.setCc2 v).r5 = s.r5 := rfl
@[simp] theorem setCc2_r6 (s : State) (v : Half) : (s.setCc2 v).r6 = s.r6 := rfl
@[simp] theorem setCc2_r7 (s : State) (v : Half) : (s.setCc2 v).r7 = s.r7 := rfl
@[simp] theorem setCc2_r8 (s : State) (v : Half) : (s.setCc2 v).r8 = s.r8 := rfl
@[simp] theorem setCc2_r9 (s : State) (v : Half) : (s.setCc2 v).r9 = s.r9 := rfl
@[simp] theorem setCc2_cc0 (s : State) (v : Half) : (s.setCc2 v).cc0 = s.cc0 := rfl
@[simp] theorem setCc2_cc1 (s : State) (v : Half) : (s.setCc2 v).cc1 = s.cc1 := rfl
@[simp] theorem setCc2_cc2 (s : State) (v : Half) : (s.setCc2 v).cc2 = v := rfl
@[simp] theorem setCc2_cc3 (s : State) (v : Half) : (s.setCc2 v).cc3 = s.cc3 := rfl
@[simp] theorem setCc2_dsp (s : State) (v : Half) : (s.setCc2 v).dsp = s.dsp := rfl
@[simp] theorem setCc2_isp (s : State) (v : Half) : (s.setCc2 v).isp = s.isp := rfl
@[simp] theorem setCc2_sr (s : State) (v : Half) : (s.setCc2 v).sr = s.sr := rfl
@[simp] theorem setCc2_pc (s : State) (v : Half) : (s.setCc2 v).pc = s.pc := rfl
@[simp] theorem setCc2_ssp (s : State) (v : Half) : (s.setCc2 v).ssp = s.ssp := rfl
@[simp] theorem setCc2_spc (s : State) (v : Half) : (s.setCc2 v).spc = s.spc := rfl
@[simp] theorem setCc2_mem (s : State) (v : Half) : (s.setCc2 v).mem = s.mem := rfl
@[simp] theorem setCc2_cfg (s : State) (v : Half) : (s.setCc2 v).cfg = s.cfg := rfl
@[simp] theorem setCc2_env (s : State) (v : Half) : (s.setCc2 v).env = s.env := rfl
@[simp] theorem setCc2_inReset (s : State) (v : Half) : (s.setCc2 v).inReset = s.inReset := rfl
@[simp] theorem setCc2_entered (s : State) (v : Half) : (s.setCc2 v).entered = s.entered := rfl

/-! ### `setCc3` -/

@[simp] theorem setCc3_r0 (s : State) (v : Half) : (s.setCc3 v).r0 = s.r0 := rfl
@[simp] theorem setCc3_r1 (s : State) (v : Half) : (s.setCc3 v).r1 = s.r1 := rfl
@[simp] theorem setCc3_r2 (s : State) (v : Half) : (s.setCc3 v).r2 = s.r2 := rfl
@[simp] theorem setCc3_r3 (s : State) (v : Half) : (s.setCc3 v).r3 = s.r3 := rfl
@[simp] theorem setCc3_r4 (s : State) (v : Half) : (s.setCc3 v).r4 = s.r4 := rfl
@[simp] theorem setCc3_r5 (s : State) (v : Half) : (s.setCc3 v).r5 = s.r5 := rfl
@[simp] theorem setCc3_r6 (s : State) (v : Half) : (s.setCc3 v).r6 = s.r6 := rfl
@[simp] theorem setCc3_r7 (s : State) (v : Half) : (s.setCc3 v).r7 = s.r7 := rfl
@[simp] theorem setCc3_r8 (s : State) (v : Half) : (s.setCc3 v).r8 = s.r8 := rfl
@[simp] theorem setCc3_r9 (s : State) (v : Half) : (s.setCc3 v).r9 = s.r9 := rfl
@[simp] theorem setCc3_cc0 (s : State) (v : Half) : (s.setCc3 v).cc0 = s.cc0 := rfl
@[simp] theorem setCc3_cc1 (s : State) (v : Half) : (s.setCc3 v).cc1 = s.cc1 := rfl
@[simp] theorem setCc3_cc2 (s : State) (v : Half) : (s.setCc3 v).cc2 = s.cc2 := rfl
@[simp] theorem setCc3_cc3 (s : State) (v : Half) : (s.setCc3 v).cc3 = v := rfl
@[simp] theorem setCc3_dsp (s : State) (v : Half) : (s.setCc3 v).dsp = s.dsp := rfl
@[simp] theorem setCc3_isp (s : State) (v : Half) : (s.setCc3 v).isp = s.isp := rfl
@[simp] theorem setCc3_sr (s : State) (v : Half) : (s.setCc3 v).sr = s.sr := rfl
@[simp] theorem setCc3_pc (s : State) (v : Half) : (s.setCc3 v).pc = s.pc := rfl
@[simp] theorem setCc3_ssp (s : State) (v : Half) : (s.setCc3 v).ssp = s.ssp := rfl
@[simp] theorem setCc3_spc (s : State) (v : Half) : (s.setCc3 v).spc = s.spc := rfl
@[simp] theorem setCc3_mem (s : State) (v : Half) : (s.setCc3 v).mem = s.mem := rfl
@[simp] theorem setCc3_cfg (s : State) (v : Half) : (s.setCc3 v).cfg = s.cfg := rfl
@[simp] theorem setCc3_env (s : State) (v : Half) : (s.setCc3 v).env = s.env := rfl
@[simp] theorem setCc3_inReset (s : State) (v : Half) : (s.setCc3 v).inReset = s.inReset := rfl
@[simp] theorem setCc3_entered (s : State) (v : Half) : (s.setCc3 v).entered = s.entered := rfl

/-! ### `setMem` -/

@[simp] theorem setMem_r0 (s : State) (v : List Host.Cell) : (s.setMem v).r0 = s.r0 := rfl
@[simp] theorem setMem_r1 (s : State) (v : List Host.Cell) : (s.setMem v).r1 = s.r1 := rfl
@[simp] theorem setMem_r2 (s : State) (v : List Host.Cell) : (s.setMem v).r2 = s.r2 := rfl
@[simp] theorem setMem_r3 (s : State) (v : List Host.Cell) : (s.setMem v).r3 = s.r3 := rfl
@[simp] theorem setMem_r4 (s : State) (v : List Host.Cell) : (s.setMem v).r4 = s.r4 := rfl
@[simp] theorem setMem_r5 (s : State) (v : List Host.Cell) : (s.setMem v).r5 = s.r5 := rfl
@[simp] theorem setMem_r6 (s : State) (v : List Host.Cell) : (s.setMem v).r6 = s.r6 := rfl
@[simp] theorem setMem_r7 (s : State) (v : List Host.Cell) : (s.setMem v).r7 = s.r7 := rfl
@[simp] theorem setMem_r8 (s : State) (v : List Host.Cell) : (s.setMem v).r8 = s.r8 := rfl
@[simp] theorem setMem_r9 (s : State) (v : List Host.Cell) : (s.setMem v).r9 = s.r9 := rfl
@[simp] theorem setMem_cc0 (s : State) (v : List Host.Cell) : (s.setMem v).cc0 = s.cc0 := rfl
@[simp] theorem setMem_cc1 (s : State) (v : List Host.Cell) : (s.setMem v).cc1 = s.cc1 := rfl
@[simp] theorem setMem_cc2 (s : State) (v : List Host.Cell) : (s.setMem v).cc2 = s.cc2 := rfl
@[simp] theorem setMem_cc3 (s : State) (v : List Host.Cell) : (s.setMem v).cc3 = s.cc3 := rfl
@[simp] theorem setMem_dsp (s : State) (v : List Host.Cell) : (s.setMem v).dsp = s.dsp := rfl
@[simp] theorem setMem_isp (s : State) (v : List Host.Cell) : (s.setMem v).isp = s.isp := rfl
@[simp] theorem setMem_sr (s : State) (v : List Host.Cell) : (s.setMem v).sr = s.sr := rfl
@[simp] theorem setMem_pc (s : State) (v : List Host.Cell) : (s.setMem v).pc = s.pc := rfl
@[simp] theorem setMem_ssp (s : State) (v : List Host.Cell) : (s.setMem v).ssp = s.ssp := rfl
@[simp] theorem setMem_spc (s : State) (v : List Host.Cell) : (s.setMem v).spc = s.spc := rfl
@[simp] theorem setMem_mem (s : State) (v : List Host.Cell) : (s.setMem v).mem = v := rfl
@[simp] theorem setMem_cfg (s : State) (v : List Host.Cell) : (s.setMem v).cfg = s.cfg := rfl
@[simp] theorem setMem_env (s : State) (v : List Host.Cell) : (s.setMem v).env = s.env := rfl
@[simp] theorem setMem_inReset (s : State) (v : List Host.Cell) : (s.setMem v).inReset = s.inReset := rfl
@[simp] theorem setMem_entered (s : State) (v : List Host.Cell) : (s.setMem v).entered = s.entered := rfl

/-! ### `setEnv` -/

@[simp] theorem setEnv_r0 (s : State) (v : List Env) : (s.setEnv v).r0 = s.r0 := rfl
@[simp] theorem setEnv_r1 (s : State) (v : List Env) : (s.setEnv v).r1 = s.r1 := rfl
@[simp] theorem setEnv_r2 (s : State) (v : List Env) : (s.setEnv v).r2 = s.r2 := rfl
@[simp] theorem setEnv_r3 (s : State) (v : List Env) : (s.setEnv v).r3 = s.r3 := rfl
@[simp] theorem setEnv_r4 (s : State) (v : List Env) : (s.setEnv v).r4 = s.r4 := rfl
@[simp] theorem setEnv_r5 (s : State) (v : List Env) : (s.setEnv v).r5 = s.r5 := rfl
@[simp] theorem setEnv_r6 (s : State) (v : List Env) : (s.setEnv v).r6 = s.r6 := rfl
@[simp] theorem setEnv_r7 (s : State) (v : List Env) : (s.setEnv v).r7 = s.r7 := rfl
@[simp] theorem setEnv_r8 (s : State) (v : List Env) : (s.setEnv v).r8 = s.r8 := rfl
@[simp] theorem setEnv_r9 (s : State) (v : List Env) : (s.setEnv v).r9 = s.r9 := rfl
@[simp] theorem setEnv_cc0 (s : State) (v : List Env) : (s.setEnv v).cc0 = s.cc0 := rfl
@[simp] theorem setEnv_cc1 (s : State) (v : List Env) : (s.setEnv v).cc1 = s.cc1 := rfl
@[simp] theorem setEnv_cc2 (s : State) (v : List Env) : (s.setEnv v).cc2 = s.cc2 := rfl
@[simp] theorem setEnv_cc3 (s : State) (v : List Env) : (s.setEnv v).cc3 = s.cc3 := rfl
@[simp] theorem setEnv_dsp (s : State) (v : List Env) : (s.setEnv v).dsp = s.dsp := rfl
@[simp] theorem setEnv_isp (s : State) (v : List Env) : (s.setEnv v).isp = s.isp := rfl
@[simp] theorem setEnv_sr (s : State) (v : List Env) : (s.setEnv v).sr = s.sr := rfl
@[simp] theorem setEnv_pc (s : State) (v : List Env) : (s.setEnv v).pc = s.pc := rfl
@[simp] theorem setEnv_ssp (s : State) (v : List Env) : (s.setEnv v).ssp = s.ssp := rfl
@[simp] theorem setEnv_spc (s : State) (v : List Env) : (s.setEnv v).spc = s.spc := rfl
@[simp] theorem setEnv_mem (s : State) (v : List Env) : (s.setEnv v).mem = s.mem := rfl
@[simp] theorem setEnv_cfg (s : State) (v : List Env) : (s.setEnv v).cfg = s.cfg := rfl
@[simp] theorem setEnv_env (s : State) (v : List Env) : (s.setEnv v).env = v := rfl
@[simp] theorem setEnv_inReset (s : State) (v : List Env) : (s.setEnv v).inReset = s.inReset := rfl
@[simp] theorem setEnv_entered (s : State) (v : List Env) : (s.setEnv v).entered = s.entered := rfl

/-! ### `setInReset` -/

@[simp] theorem setInReset_r0 (s : State) (v : Bool) : (s.setInReset v).r0 = s.r0 := rfl
@[simp] theorem setInReset_r1 (s : State) (v : Bool) : (s.setInReset v).r1 = s.r1 := rfl
@[simp] theorem setInReset_r2 (s : State) (v : Bool) : (s.setInReset v).r2 = s.r2 := rfl
@[simp] theorem setInReset_r3 (s : State) (v : Bool) : (s.setInReset v).r3 = s.r3 := rfl
@[simp] theorem setInReset_r4 (s : State) (v : Bool) : (s.setInReset v).r4 = s.r4 := rfl
@[simp] theorem setInReset_r5 (s : State) (v : Bool) : (s.setInReset v).r5 = s.r5 := rfl
@[simp] theorem setInReset_r6 (s : State) (v : Bool) : (s.setInReset v).r6 = s.r6 := rfl
@[simp] theorem setInReset_r7 (s : State) (v : Bool) : (s.setInReset v).r7 = s.r7 := rfl
@[simp] theorem setInReset_r8 (s : State) (v : Bool) : (s.setInReset v).r8 = s.r8 := rfl
@[simp] theorem setInReset_r9 (s : State) (v : Bool) : (s.setInReset v).r9 = s.r9 := rfl
@[simp] theorem setInReset_cc0 (s : State) (v : Bool) : (s.setInReset v).cc0 = s.cc0 := rfl
@[simp] theorem setInReset_cc1 (s : State) (v : Bool) : (s.setInReset v).cc1 = s.cc1 := rfl
@[simp] theorem setInReset_cc2 (s : State) (v : Bool) : (s.setInReset v).cc2 = s.cc2 := rfl
@[simp] theorem setInReset_cc3 (s : State) (v : Bool) : (s.setInReset v).cc3 = s.cc3 := rfl
@[simp] theorem setInReset_dsp (s : State) (v : Bool) : (s.setInReset v).dsp = s.dsp := rfl
@[simp] theorem setInReset_isp (s : State) (v : Bool) : (s.setInReset v).isp = s.isp := rfl
@[simp] theorem setInReset_sr (s : State) (v : Bool) : (s.setInReset v).sr = s.sr := rfl
@[simp] theorem setInReset_pc (s : State) (v : Bool) : (s.setInReset v).pc = s.pc := rfl
@[simp] theorem setInReset_ssp (s : State) (v : Bool) : (s.setInReset v).ssp = s.ssp := rfl
@[simp] theorem setInReset_spc (s : State) (v : Bool) : (s.setInReset v).spc = s.spc := rfl
@[simp] theorem setInReset_mem (s : State) (v : Bool) : (s.setInReset v).mem = s.mem := rfl
@[simp] theorem setInReset_cfg (s : State) (v : Bool) : (s.setInReset v).cfg = s.cfg := rfl
@[simp] theorem setInReset_env (s : State) (v : Bool) : (s.setInReset v).env = s.env := rfl
@[simp] theorem setInReset_inReset (s : State) (v : Bool) : (s.setInReset v).inReset = v := rfl
@[simp] theorem setInReset_entered (s : State) (v : Bool) : (s.setInReset v).entered = s.entered := rfl

/-! ### `setEntered` -/

@[simp] theorem setEntered_r0 (s : State) (v : Bool) : (s.setEntered v).r0 = s.r0 := rfl
@[simp] theorem setEntered_r1 (s : State) (v : Bool) : (s.setEntered v).r1 = s.r1 := rfl
@[simp] theorem setEntered_r2 (s : State) (v : Bool) : (s.setEntered v).r2 = s.r2 := rfl
@[simp] theorem setEntered_r3 (s : State) (v : Bool) : (s.setEntered v).r3 = s.r3 := rfl
@[simp] theorem setEntered_r4 (s : State) (v : Bool) : (s.setEntered v).r4 = s.r4 := rfl
@[simp] theorem setEntered_r5 (s : State) (v : Bool) : (s.setEntered v).r5 = s.r5 := rfl
@[simp] theorem setEntered_r6 (s : State) (v : Bool) : (s.setEntered v).r6 = s.r6 := rfl
@[simp] theorem setEntered_r7 (s : State) (v : Bool) : (s.setEntered v).r7 = s.r7 := rfl
@[simp] theorem setEntered_r8 (s : State) (v : Bool) : (s.setEntered v).r8 = s.r8 := rfl
@[simp] theorem setEntered_r9 (s : State) (v : Bool) : (s.setEntered v).r9 = s.r9 := rfl
@[simp] theorem setEntered_cc0 (s : State) (v : Bool) : (s.setEntered v).cc0 = s.cc0 := rfl
@[simp] theorem setEntered_cc1 (s : State) (v : Bool) : (s.setEntered v).cc1 = s.cc1 := rfl
@[simp] theorem setEntered_cc2 (s : State) (v : Bool) : (s.setEntered v).cc2 = s.cc2 := rfl
@[simp] theorem setEntered_cc3 (s : State) (v : Bool) : (s.setEntered v).cc3 = s.cc3 := rfl
@[simp] theorem setEntered_dsp (s : State) (v : Bool) : (s.setEntered v).dsp = s.dsp := rfl
@[simp] theorem setEntered_isp (s : State) (v : Bool) : (s.setEntered v).isp = s.isp := rfl
@[simp] theorem setEntered_sr (s : State) (v : Bool) : (s.setEntered v).sr = s.sr := rfl
@[simp] theorem setEntered_pc (s : State) (v : Bool) : (s.setEntered v).pc = s.pc := rfl
@[simp] theorem setEntered_ssp (s : State) (v : Bool) : (s.setEntered v).ssp = s.ssp := rfl
@[simp] theorem setEntered_spc (s : State) (v : Bool) : (s.setEntered v).spc = s.spc := rfl
@[simp] theorem setEntered_mem (s : State) (v : Bool) : (s.setEntered v).mem = s.mem := rfl
@[simp] theorem setEntered_cfg (s : State) (v : Bool) : (s.setEntered v).cfg = s.cfg := rfl
@[simp] theorem setEntered_env (s : State) (v : Bool) : (s.setEntered v).env = s.env := rfl
@[simp] theorem setEntered_inReset (s : State) (v : Bool) : (s.setEntered v).inReset = s.inReset := rfl
@[simp] theorem setEntered_entered (s : State) (v : Bool) : (s.setEntered v).entered = v := rfl

/-! ### `exchange` -/

@[simp] theorem exchange_r0 (s : State) : s.exchange.r0 = s.r0 := rfl
@[simp] theorem exchange_r1 (s : State) : s.exchange.r1 = s.r1 := rfl
@[simp] theorem exchange_r2 (s : State) : s.exchange.r2 = s.r2 := rfl
@[simp] theorem exchange_r3 (s : State) : s.exchange.r3 = s.r3 := rfl
@[simp] theorem exchange_r4 (s : State) : s.exchange.r4 = s.r4 := rfl
@[simp] theorem exchange_r5 (s : State) : s.exchange.r5 = s.r5 := rfl
@[simp] theorem exchange_r6 (s : State) : s.exchange.r6 = s.r6 := rfl
@[simp] theorem exchange_r7 (s : State) : s.exchange.r7 = s.r7 := rfl
@[simp] theorem exchange_r8 (s : State) : s.exchange.r8 = s.r8 := rfl
@[simp] theorem exchange_r9 (s : State) : s.exchange.r9 = s.r9 := rfl
@[simp] theorem exchange_cc0 (s : State) : s.exchange.cc0 = s.cc0 := rfl
@[simp] theorem exchange_cc1 (s : State) : s.exchange.cc1 = s.cc1 := rfl
@[simp] theorem exchange_cc2 (s : State) : s.exchange.cc2 = s.cc2 := rfl
@[simp] theorem exchange_cc3 (s : State) : s.exchange.cc3 = s.cc3 := rfl
@[simp] theorem exchange_dsp (s : State) : s.exchange.dsp = s.dsp := rfl
@[simp] theorem exchange_isp (s : State) : s.exchange.isp = s.ssp := rfl
@[simp] theorem exchange_sr (s : State) : s.exchange.sr = s.sr := rfl
@[simp] theorem exchange_pc (s : State) : s.exchange.pc = s.spc := rfl
@[simp] theorem exchange_ssp (s : State) : s.exchange.ssp = s.isp := rfl
@[simp] theorem exchange_spc (s : State) : s.exchange.spc = s.pc := rfl
@[simp] theorem exchange_mem (s : State) : s.exchange.mem = s.mem := rfl
@[simp] theorem exchange_cfg (s : State) : s.exchange.cfg = s.cfg := rfl
@[simp] theorem exchange_env (s : State) : s.exchange.env = s.env := rfl
@[simp] theorem exchange_inReset (s : State) : s.exchange.inReset = s.inReset := rfl
@[simp] theorem exchange_entered (s : State) : s.exchange.entered = s.entered := rfl

/-! ### `cleared` -/

@[simp] theorem cleared_r0 (s : State) : s.cleared.r0 = 0 := rfl
@[simp] theorem cleared_r1 (s : State) : s.cleared.r1 = 0 := rfl
@[simp] theorem cleared_r2 (s : State) : s.cleared.r2 = 0 := rfl
@[simp] theorem cleared_r3 (s : State) : s.cleared.r3 = 0 := rfl
@[simp] theorem cleared_r4 (s : State) : s.cleared.r4 = 0 := rfl
@[simp] theorem cleared_r5 (s : State) : s.cleared.r5 = 0 := rfl
@[simp] theorem cleared_r6 (s : State) : s.cleared.r6 = 0 := rfl
@[simp] theorem cleared_r7 (s : State) : s.cleared.r7 = 0 := rfl
@[simp] theorem cleared_r8 (s : State) : s.cleared.r8 = 0 := rfl
@[simp] theorem cleared_r9 (s : State) : s.cleared.r9 = 0 := rfl
@[simp] theorem cleared_cc0 (s : State) : s.cleared.cc0 = 0 := rfl
@[simp] theorem cleared_cc1 (s : State) : s.cleared.cc1 = 0 := rfl
@[simp] theorem cleared_cc2 (s : State) : s.cleared.cc2 = 0 := rfl
@[simp] theorem cleared_cc3 (s : State) : s.cleared.cc3 = 0 := rfl
@[simp] theorem cleared_dsp (s : State) : s.cleared.dsp = 0 := rfl
@[simp] theorem cleared_isp (s : State) : s.cleared.isp = 0 := rfl
@[simp] theorem cleared_sr (s : State) : s.cleared.sr = 0x0900 := rfl
@[simp] theorem cleared_pc (s : State) : s.cleared.pc = s.pc := rfl
@[simp] theorem cleared_ssp (s : State) : s.cleared.ssp = 0 := rfl
@[simp] theorem cleared_spc (s : State) : s.cleared.spc = 0 := rfl
@[simp] theorem cleared_mem (s : State) : s.cleared.mem = s.mem := rfl
@[simp] theorem cleared_cfg (s : State) : s.cleared.cfg = s.cfg := rfl
@[simp] theorem cleared_env (s : State) : s.cleared.env = s.env := rfl
@[simp] theorem cleared_inReset (s : State) : s.cleared.inReset = false := rfl
@[simp] theorem cleared_entered (s : State) : s.cleared.entered = false := rfl

/-! ### `setReg` and `reg` -/

@[simp] theorem setReg_ssp (s : State) (i : Reg) (v : Word) : (s.setReg i v).ssp = s.ssp := by
  cases i <;> rfl
@[simp] theorem setReg_spc (s : State) (i : Reg) (v : Word) : (s.setReg i v).spc = s.spc := by
  cases i <;> rfl
@[simp] theorem setReg_mem (s : State) (i : Reg) (v : Word) : (s.setReg i v).mem = s.mem := by
  cases i <;> rfl
@[simp] theorem setReg_cfg (s : State) (i : Reg) (v : Word) : (s.setReg i v).cfg = s.cfg := by
  cases i <;> rfl
@[simp] theorem setReg_env (s : State) (i : Reg) (v : Word) : (s.setReg i v).env = s.env := by
  cases i <;> rfl
@[simp] theorem setReg_inReset (s : State) (i : Reg) (v : Word) : (s.setReg i v).inReset = s.inReset := by
  cases i <;> rfl
@[simp] theorem setReg_entered (s : State) (i : Reg) (v : Word) : (s.setReg i v).entered = s.entered := by
  cases i <;> rfl

/-- A plain write leaves every other register number as it was (10_state.md R21). -/
theorem reg_setReg_ne (s : State) (i j : Reg) (v : Word) (h : j ≠ i) :
    (s.setReg i v).reg j = s.reg j := by
  cases i <;> cases j <;> first | exact absurd rfl h | rfl

/-- A register other than `sr` reads back as written (10_state.md R20, R21, R23). -/
theorem reg_setReg_same (s : State) (i : Reg) (v : Word) (h : i ≠ .sr) :
    (s.setReg i v).reg i = v := by
  have halves : ∀ w : Word, highHalf w ++ lowHalf w = w := by
    intro w
    ext k hk
    simp only [highHalf, lowHalf, BitVec.getElem_eq_testBit_toNat, BitVec.testBit_toNat, BitVec.getLsbD_append,
      BitVec.getLsbD_extractLsb']
    grind
  cases i <;> first | rfl | exact halves v | exact absurd rfl h

/-- A plain write to another register keeps `pc`. -/
theorem setReg_pc_ne (s : State) (i : Reg) (v : Word) (h : i ≠ .pc) : (s.setReg i v).pc = s.pc := by
  cases i <;> first | rfl | exact absurd rfl h

/-- A plain write to another register keeps `sr`. -/
theorem setReg_sr_ne (s : State) (i : Reg) (v : Word) (h : i ≠ .sr) : (s.setReg i v).sr = s.sr := by
  cases i <;> first | rfl | exact absurd rfl h

/-- A plain write to another register keeps `isp`. -/
theorem setReg_isp_ne (s : State) (i : Reg) (v : Word) (h : i ≠ .isp) : (s.setReg i v).isp = s.isp := by
  cases i <;> first | rfl | exact absurd rfl h

/-- A plain write to another register keeps `dsp`. -/
theorem setReg_dsp_ne (s : State) (i : Reg) (v : Word) (h : i ≠ .dsp) : (s.setReg i v).dsp = s.dsp := by
  cases i <;> first | rfl | exact absurd rfl h

/-- `setPc` leaves every other register number as it was. -/
theorem reg_setPc_ne (s : State) (v : Word) (j : Reg) (h : j ≠ .pc) : (s.setPc v).reg j = s.reg j := by
  cases j <;> first | rfl | exact absurd rfl h

/-- `setSr` leaves every other register number as it was. -/
theorem reg_setSr_ne (s : State) (v : Half) (j : Reg) (h : j ≠ .sr) : (s.setSr v).reg j = s.reg j := by
  cases j <;> first | rfl | exact absurd rfl h

/-- `setIsp` leaves every other register number as it was. -/
theorem reg_setIsp_ne (s : State) (v : Word) (j : Reg) (h : j ≠ .isp) : (s.setIsp v).reg j = s.reg j := by
  cases j <;> first | rfl | exact absurd rfl h

/-- `setDsp` leaves every other register number as it was. -/
theorem reg_setDsp_ne (s : State) (v : Word) (j : Reg) (h : j ≠ .dsp) : (s.setDsp v).reg j = s.reg j := by
  cases j <;> first | rfl | exact absurd rfl h

@[simp] theorem reg_setSsp (s : State) (v : Word) (j : Reg) : (s.setSsp v).reg j = s.reg j := by
  cases j <;> rfl

@[simp] theorem reg_setSpc (s : State) (v : Word) (j : Reg) : (s.setSpc v).reg j = s.reg j := by
  cases j <;> rfl

@[simp] theorem reg_setMem (s : State) (v : List Host.Cell) (j : Reg) : (s.setMem v).reg j = s.reg j := by
  cases j <;> rfl

@[simp] theorem reg_setEnv (s : State) (v : List Env) (j : Reg) : (s.setEnv v).reg j = s.reg j := by
  cases j <;> rfl

@[simp] theorem reg_setInReset (s : State) (v : Bool) (j : Reg) : (s.setInReset v).reg j = s.reg j := by
  cases j <;> rfl

@[simp] theorem reg_setEntered (s : State) (v : Bool) (j : Reg) : (s.setEntered v).reg j = s.reg j := by
  cases j <;> rfl

end Sys2Proof.Machine
end

