-- ==== Sys2Proof/Laws/Ops.lean ====
section
/-!
SUPPORT. What each shared operation can do, said once: register writes, memory accesses, the end of an
instruction, the context switch, entries and returns. A proof cites these and does not unfold the
operations.
-/

namespace Sys2Proof.Machine

/-! ### Results -/

@[simp] theorem andThen_next (s : State) (k : State → Result) : andThen (.next s) k = k s := rfl
@[simp] theorem andThen_fault (f : Fault) (k : State → Result) : andThen (.fault f) k = .fault f := rfl
@[simp] theorem andThen_refused (f : Refusal) (k : State → Result) :
    andThen (.refused f) k = .refused f := rfl

/-- If a composition answers a next state, both parts did. -/
theorem andThen_eq_next {r : Result} {k : State → Result} {t : State} (h : andThen r k = .next t) :
    ∃ s, r = .next s ∧ k s = .next t := by
  cases r with
  | next s => exact ⟨s, rfl, h⟩
  | fault f => cases h
  | refused f => cases h

/-! ### Flags of `sr` -/

@[simp] theorem setReg_flagP {s : State} {x : Reg} {v : Word} (h : x ≠ .sr) :
    (s.setReg x v).flagP = s.flagP := by
  simp only [State.flagP, setReg_sr_ne s x v h]

theorem Reg.ne_sr_of_plain {x : Reg} (h : x.plain = true) : x ≠ .sr := by
  intro e; subst e; cases h

theorem Reg.ne_pc_of_plain {x : Reg} (h : x.plain = true) : x ≠ .pc := by
  intro e; subst e; cases h

/-! ### Frames -/

/-- Nothing changed. -/
theorem Changes.refl (D : List Reg) (s : State) : Changes D s s :=
  ⟨⟨fun _ _ => rfl, rfl, rfl, rfl, rfl, rfl, rfl⟩, fun _ => rfl⟩

/-- A plain register write changes that register only. -/
theorem changes_setReg (s : State) (x : Reg) (v : Word) : Changes [x] s (s.setReg x v) :=
  ⟨⟨fun j hj => reg_setReg_ne s x j v (by simpa using hj), by simp, by simp, by simp, by simp, by simp, by simp⟩,
    fun b => by simp⟩

theorem changes_setSr (s : State) (v : Half) : Changes [.sr] s (s.setSr v) :=
  ⟨⟨fun j hj => reg_setSr_ne s v j (by simpa using hj), rfl, rfl, rfl, rfl, rfl, rfl⟩, fun _ => rfl⟩

theorem changes_setPc (s : State) (v : Word) : Changes [.pc] s (s.setPc v) :=
  ⟨⟨fun j hj => reg_setPc_ne s v j (by simpa using hj), rfl, rfl, rfl, rfl, rfl, rfl⟩, fun _ => rfl⟩

theorem changes_setIsp (s : State) (v : Word) : Changes [.isp] s (s.setIsp v) :=
  ⟨⟨fun j hj => reg_setIsp_ne s v j (by simpa using hj), rfl, rfl, rfl, rfl, rfl, rfl⟩, fun _ => rfl⟩

theorem changes_setDsp (s : State) (v : Word) : Changes [.dsp] s (s.setDsp v) :=
  ⟨⟨fun j hj => reg_setDsp_ne s v j (by simpa using hj), rfl, rfl, rfl, rfl, rfl, rfl⟩, fun _ => rfl⟩

/-- Frames compose. -/
theorem KeepsRegs.trans {D E : List Reg} {s t u : State} (h : KeepsRegs D s t) (k : KeepsRegs E t u) :
    KeepsRegs (D ++ E) s u where
  regs j hj := by
    rw [List.mem_append, not_or] at hj
    rw [k.regs j hj.2, h.regs j hj.1]
  ssp := k.ssp.trans h.ssp
  spc := k.spc.trans h.spc
  cfg := k.cfg.trans h.cfg
  env := k.env.trans h.env
  inReset := k.inReset.trans h.inReset
  entered := k.entered.trans h.entered

theorem Changes.trans {D E : List Reg} {s t u : State} (h : Changes D s t) (k : Changes E t u) :
    Changes (D ++ E) s u :=
  ⟨h.1.trans k.1, fun b => (k.2 b).trans (h.2 b)⟩

/-- A frame with fewer registers is a frame with more. -/
theorem KeepsRegs.mono {D E : List Reg} {s t : State} (h : KeepsRegs D s t) (hD : ∀ j ∈ D, j ∈ E) :
    KeepsRegs E s t :=
  { h with regs := fun j hj => h.regs j fun hd => hj (hD j hd) }

theorem Changes.mono {D E : List Reg} {s t : State} (h : Changes D s t) (hD : ∀ j ∈ D, j ∈ E) :
    Changes E s t :=
  ⟨h.1.mono hD, h.2⟩

/-! ### Register writes -/

/-- `WritePC` (10_state.md R16). -/
theorem writePc_aligned (s : State) {v : Word} (h : misaligned4 v = false) : writePc v s = .ok (s.setPc v) := by
  simp [writePc, h]

theorem writePc_misaligned (s : State) {v : Word} (h : misaligned4 v = true) :
    writePc v s = .error .pcAlignment := by
  simp [writePc, h]

theorem writePc_ok {s t : State} {v : Word} (h : writePc v s = .ok t) :
    misaligned4 v = false ∧ t = s.setPc v := by
  unfold writePc at h
  split at h
  · cases h
  · next hv => cases h; exact ⟨by simpa using hv, rfl⟩

/-- `WriteSR` in system mode (10_state.md R27). -/
theorem writeSr_system (v : Word) {s : State} (h : s.flagP = false) :
    writeSr v s = .ok (s.setSr (lowHalf v &&& srMask)) := by
  simp [writeSr, h]

/-- Everything `WriteSR` can answer: the trap, or `sr` with a legal value (10_state.md R26, R27). -/
theorem writeSr_ok {s t : State} {v : Word} (h : writeSr v s = .ok t) :
    ∃ n, t = s.setSr n ∧ n &&& ~~~srMask = 0 ∧
      (s.flagP = true → n &&& srControlMask = s.sr &&& srControlMask) := by
  have hlow : ∀ a : Half, (a &&& srMask) &&& ~~~srMask = 0 := by
    intro a; rw [BitVec.and_assoc]; simp [srMask]
  unfold writeSr at h
  simp only at h
  split at h
  · split at h
    · cases h
    · cases h
      refine ⟨_, rfl, ?_, fun _ => ?_⟩
      · ext k hk
        simp only [srControlMask, srFlagMask, srMask, BitVec.getElem_and, BitVec.getElem_or, BitVec.getElem_not]
        interval_cases k <;> simp
      · ext k hk
        simp only [srControlMask, srFlagMask, srMask, BitVec.getElem_and, BitVec.getElem_or]
        interval_cases k <;> simp
  · next hp =>
    cases h
    exact ⟨_, rfl, hlow _, fun hq => absurd hq hp⟩

/-- A plain register takes the value (10_state.md R21). -/
theorem writeReg_plain (s : State) {x : Reg} (v : Word) (h : x.plain = true) :
    writeReg x v s = .ok (s.setReg x v) := by
  cases x <;> first | rfl | cases h

/-- Everything a register write can answer. -/
theorem writeReg_ok {s t : State} {x : Reg} {v : Word} (h : writeReg x v s = .ok t) :
    (x.plain = true ∧ t = s.setReg x v) ∨ (x = .pc ∧ misaligned4 v = false ∧ t = s.setPc v) ∨
      (x = .sr ∧ ∃ n, t = s.setSr n ∧ n &&& ~~~srMask = 0 ∧
        (s.flagP = true → n &&& srControlMask = s.sr &&& srControlMask)) := by
  cases x <;>
    first
    | exact .inr (.inr ⟨rfl, writeSr_ok h⟩)
    | exact .inr (.inl ⟨rfl, writePc_ok h⟩)
    | (cases h; exact .inl ⟨rfl, rfl⟩)

/-! ### Memory accesses -/

theorem checkAccess_ok {s : State} {k : AccessKind} {w : Width} {a : Word} (h : misaligned w a = false)
    (h' : accessOk s.cfg k w a = true) : checkAccess s k w a = .ok () := by
  simp [checkAccess, h, h']

theorem checkAccess_misaligned {s : State} {k : AccessKind} {w : Width} {a : Word}
    (h : misaligned w a = true) : checkAccess s k w a = .error .alignment := by
  simp [checkAccess, h]

theorem checkAccess_denied {s : State} {k : AccessKind} {w : Width} {a : Word} (h : misaligned w a = false)
    (h' : accessOk s.cfg k w a = false) : checkAccess s k w a = .error .access := by
  simp [checkAccess, h, h']

/-- An access that is checked is aligned and accepted. -/
theorem checkAccess_eq_ok {s : State} {k : AccessKind} {w : Width} {a : Word} {u : Unit}
    (h : checkAccess s k w a = .ok u) : misaligned w a = false ∧ accessOk s.cfg k w a = true := by
  unfold checkAccess at h
  split at h
  · cases h
  · split at h
    · next h1 h2 => exact ⟨by simpa using h1, h2⟩
    · cases h

theorem memRead_ok {s : State} {k : AccessKind} {w : Width} {a : Word} (h : misaligned w a = false)
    (h' : accessOk s.cfg k w a = true) : memRead s k w a = .ok (valueAt s.cfg.byteOrder s.mem a w) := by
  simp [memRead, checkAccess_ok h h']

theorem memRead_misaligned {s : State} {k : AccessKind} {w : Width} {a : Word}
    (h : misaligned w a = true) : memRead s k w a = .error .alignment := by
  simp [memRead, checkAccess_misaligned h]

theorem memRead_denied {s : State} {k : AccessKind} {w : Width} {a : Word} (h : misaligned w a = false)
    (h' : accessOk s.cfg k w a = false) : memRead s k w a = .error .access := by
  simp [memRead, checkAccess_denied h h']

theorem memRead_eq_ok {s : State} {k : AccessKind} {w : Width} {a v : Word} (h : memRead s k w a = .ok v) :
    misaligned w a = false ∧ accessOk s.cfg k w a = true ∧ v = valueAt s.cfg.byteOrder s.mem a w := by
  unfold memRead at h
  split at h
  · cases h
  · next hc =>
    cases h
    exact ⟨(checkAccess_eq_ok hc).1, (checkAccess_eq_ok hc).2, rfl⟩

theorem memWrite_ok {s : State} {w : Width} {a : Word} (v : Word) (h : misaligned w a = false)
    (h' : accessOk s.cfg .write w a = true) : memWrite w a v s = .ok (s.store w a v) := by
  simp [memWrite, checkAccess_ok h h']

theorem memWrite_misaligned {s : State} {w : Width} {a : Word} (v : Word) (h : misaligned w a = true) :
    memWrite w a v s = .error .alignment := by
  simp [memWrite, checkAccess_misaligned h]

theorem memWrite_denied {s : State} {w : Width} {a : Word} (v : Word) (h : misaligned w a = false)
    (h' : accessOk s.cfg .write w a = false) : memWrite w a v s = .error .access := by
  simp [memWrite, checkAccess_denied h h']

theorem memWrite_eq_ok {s t : State} {w : Width} {a v : Word} (h : memWrite w a v s = .ok t) :
    misaligned w a = false ∧ accessOk s.cfg .write w a = true ∧ t = s.store w a v := by
  unfold memWrite at h
  split at h
  · cases h
  · next hc =>
    cases h
    exact ⟨(checkAccess_eq_ok hc).1, (checkAccess_eq_ok hc).2, rfl⟩

@[simp] theorem reg_store (s : State) (w : Width) (a v : Word) (j : Reg) :
    (s.store w a v).reg j = s.reg j := by
  simp [State.store]

@[simp] theorem store_mem (s : State) (w : Width) (a v : Word) :
    (s.store w a v).mem = putValue s.cfg.byteOrder s.mem a v w := rfl

@[simp] theorem store_cfg (s : State) (w : Width) (a v : Word) : (s.store w a v).cfg = s.cfg := rfl

@[simp] theorem store_flagP (s : State) (w : Width) (a v : Word) : (s.store w a v).flagP = s.flagP := rfl

/-- A store changes no register. -/
theorem keepsRegs_store (s : State) (w : Width) (a v : Word) : KeepsRegs [] s (s.store w a v) :=
  ⟨fun _ _ => reg_store .., rfl, rfl, rfl, rfl, rfl, rfl⟩

/-- A store changes no byte outside its width. -/
theorem keepsMem_store (s : State) (w : Width) (a v : Word) :
    KeepsMemOutside a (widthBytes w) s (s.store w a v) :=
  fun _ hb => byteAt_putValue_outside _ _ _ _ hb

/-- A value stored reads back, cut to its width. -/
theorem valueAt_store {s : State} (hm : s.memCanonical) (w : Width) (a v : Word) :
    valueAt s.cfg.byteOrder (s.store w a v).mem a w = lowerBits w v := by
  cases w with
  | byte =>
    rw [store_mem, lowByteAt_putValue hm]
    ext i hi
    simp only [lowerBits, BitVec.getElem_and, BitVec.getElem_setWidth, BitVec.getLsbD_extractLsb']
    interval_cases i <;> simp
  | half =>
    rw [store_mem, halfAt_putValue hm]
    ext i hi
    simp only [lowerBits, BitVec.getElem_and, BitVec.getElem_setWidth, BitVec.getLsbD_extractLsb']
    interval_cases i <;> simp
  | word => exact wordAt_putValue hm _ _ _

/-! ### The end of an instruction -/

/-- An instruction whose condition is legal and holds is its own effect (40_conditional_execution.md R96). -/
theorem conditionally_runs {s : State} {c : Cond} (h : s.Runs c) (r : Result) : conditionally c s r = r := by
  simp [conditionally, h.1, h.2]

theorem systemOnly_system {s : State} (h : s.flagP = false) (t : Trap) (r : Result) :
    systemOnly t s r = r := by
  simp [systemOnly, h]

theorem systemOnly_protected {s : State} (h : s.flagP = true) (t : Trap) (r : Result) :
    systemOnly t s r = trapEntry t s := by
  simp [systemOnly, h]

/-- A trap is taken from the state the instruction started from (60_exceptions.md R255). -/
@[simp] theorem complete_error (s : State) (t : Trap) : complete s (.error t) = trapEntry t s := rfl

/-- Writes that leave `P` as it was stand. -/
theorem complete_same {s t : State} (h : t.flagP = s.flagP) : complete s (.ok t) = .next t := by
  unfold complete
  cases hp : s.flagP <;> simp [h, hp]

/-- Writes that leave protected mode's `P` alone, or do not set it, stand. -/
theorem complete_stays {s t : State} (h : s.flagP = true ∨ t.flagP = false) : complete s (.ok t) = .next t := by
  unfold complete
  rcases h with h | h <;> simp [h]

/-- Writes that set `P` in system mode are followed by the context switch (60_exceptions.md R243). -/
theorem complete_switches {s t : State} (h : s.flagP = false) (h' : t.flagP = true) :
    complete s (.ok t) = contextSwitch .protected_ t := by
  simp [complete, h, h']

/-! ### Modes and entries -/

theorem contextSwitch_protected {s : State} (h : misaligned4 s.spc = false) :
    contextSwitch .protected_ s = .next (s.exchange.setSr (s.sr ||| srP)) := by
  simp [contextSwitch, State.spcMisaligned, h]

theorem contextSwitch_system {s : State} (h : misaligned4 s.spc = false) :
    contextSwitch .system s = .next (s.exchange.setSr (s.sr &&& ~~~srP)) := by
  simp [contextSwitch, State.spcMisaligned, h]

theorem contextSwitch_refused {s : State} (m : Mode) (h : misaligned4 s.spc = true) :
    contextSwitch m s = .refused .misalignedSpc := by
  simp [contextSwitch, State.spcMisaligned, h]

/-- A push writes the word below `isp` and moves `isp` there (60_exceptions.md R244). -/
theorem push32_ok {s : State} (v : Word) (h : misaligned4 (s.isp - 4) = false)
    (h' : accessOk s.cfg .write .word (s.isp - 4) = true) :
    push32 v s = .ok ((s.setIsp (s.isp - 4)).store .word (s.isp - 4) v) :=
  memWrite_ok v h h'

theorem push32_eq_ok {s t : State} {v : Word} (h : push32 v s = .ok t) :
    misaligned4 (s.isp - 4) = false ∧ accessOk s.cfg .write .word (s.isp - 4) = true ∧
      t = (s.setIsp (s.isp - 4)).store .word (s.isp - 4) v :=
  memWrite_eq_ok h

/-- Alignment of a word address survives a step of 4. -/
theorem misaligned4_sub4 (a : Word) : misaligned4 (a - 4) = misaligned4 a := by
  simp only [misaligned4]
  congr 1
  apply BitVec.eq_of_toNat_eq
  simp only [BitVec.extractLsb'_toNat]
  rw [Nat.shiftRight_zero, Nat.shiftRight_zero]
  bv_omega

theorem misaligned4_add4 (a : Word) : misaligned4 (a + 4) = misaligned4 a := by
  rw [← misaligned4_sub4 (a + 4), show a + 4 - 4 = a by bv_omega]

/-- The address of a table entry (20_memory.md R51). -/
theorem vectorAddress_eq (i : Byte) : vectorAddress i = BitVec.ofNat 32 (4 * i.toNat) := by
  apply BitVec.eq_of_toNat_eq
  simp [vectorAddress, BitVec.toNat_shiftLeft, Nat.shiftLeft_eq]
  omega

/-- Every table entry is at a word boundary. -/
theorem misaligned4_vectorAddress (i : Byte) : misaligned4 (vectorAddress i) = false := by
  have h : ∀ i : Byte, misaligned4 (vectorAddress i) = false := by decide
  exact h i

end Sys2Proof.Machine
end

