-- ==== Sys2Proof/Laws/Entry.lean ====
section
/-!
SUPPORT. Taking an exception, said once: what the switch to system mode, the two pushes and the jump
through the table leave, and every way an entry can answer (60_exceptions.md R241, R249, R250, R264,
R265).
-/

namespace Sys2Proof.Machine

/-- Everything but `pc`, `isp`, `sr`, `ssp`, `spc`, memory and the entry record is as before. -/
structure EntryFrame (s t : State) : Prop where
  regs : ∀ j, j ∉ [Reg.pc, Reg.isp, Reg.sr] → t.reg j = s.reg j
  cfg : t.cfg = s.cfg
  env : t.env = s.env
  inReset : t.inReset = s.inReset

theorem EntryFrame.trans {s t u : State} (h : EntryFrame s t) (k : EntryFrame t u) : EntryFrame s u :=
  ⟨fun j hj => (k.regs j hj).trans (h.regs j hj), k.cfg.trans h.cfg, k.env.trans h.env,
    k.inReset.trans h.inReset⟩

theorem Changes.entryFrame {D : List Reg} {s t : State} (h : Changes D s t)
    (hD : ∀ j ∈ D, j ∈ [Reg.pc, Reg.isp, Reg.sr]) : EntryFrame s t :=
  ⟨fun j hj => h.1.regs j fun hd => hj (hD j hd), h.1.cfg, h.1.env, h.1.inReset⟩

/-- The exchange and a write of `sr` touch no other numbered register. -/
theorem reg_exchange (s : State) {j : Reg} (h : j ∉ [Reg.pc, Reg.isp, Reg.sr]) : s.exchange.reg j = s.reg j := by
  cases j <;> first | rfl | simp at h

/-- The state after step 1 of an entry and the clearing of the bits `clear`. -/
def entryBase (clear : Half) (s : State) : State :=
  if s.flagP then s.exchange.setSr (entrySr clear s) else s.setSr (entrySr clear s)

theorem toSystem_switchable {s : State} (h : EntrySwitchable s) (clear : Half) :
    ∃ s1, toSystem s = .next s1 ∧ s1.setSr (s1.sr &&& ~~~clear) = entryBase clear s := by
  unfold toSystem entryBase entrySr
  cases hp : s.flagP
  · exact ⟨s, rfl, rfl⟩
  · refine ⟨_, contextSwitch_system (h hp), ?_⟩
    simp [State.setSr, State.exchange, srP]

theorem toSystem_refused {s : State} (h : ¬ EntrySwitchable s) :
    toSystem s = .refused .misalignedSpc := by
  simp only [EntrySwitchable, Classical.not_imp, Bool.not_eq_false] at h
  simp [toSystem, h.1, contextSwitch_refused _ h.2]

section Base

variable (clear : Half) (s : State)

@[simp] theorem entryBase_isp : (entryBase clear s).isp = entryIsp s := by
  unfold entryBase entryIsp; split <;> rfl
@[simp] theorem entryBase_pc : (entryBase clear s).pc = entryPc s := by
  unfold entryBase entryPc; split <;> rfl
@[simp] theorem entryBase_sr : (entryBase clear s).sr = entrySr clear s := by
  unfold entryBase; split <;> rfl
@[simp] theorem entryBase_ssp : (entryBase clear s).ssp = if s.flagP then s.isp else s.ssp := by
  unfold entryBase; split <;> rfl
@[simp] theorem entryBase_spc : (entryBase clear s).spc = if s.flagP then s.pc else s.spc := by
  unfold entryBase; split <;> rfl
@[simp] theorem entryBase_mem : (entryBase clear s).mem = s.mem := by
  unfold entryBase; split <;> rfl
@[simp] theorem entryBase_cfg : (entryBase clear s).cfg = s.cfg := by
  unfold entryBase; split <;> rfl
@[simp] theorem entryBase_env : (entryBase clear s).env = s.env := by
  unfold entryBase; split <;> rfl
@[simp] theorem entryBase_inReset : (entryBase clear s).inReset = s.inReset := by
  unfold entryBase; split <;> rfl
@[simp] theorem entryBase_entered : (entryBase clear s).entered = s.entered := by
  unfold entryBase; split <;> rfl

theorem reg_entryBase {j : Reg} (h : j ∉ [Reg.pc, Reg.isp, Reg.sr]) : (entryBase clear s).reg j = s.reg j := by
  have hsr : j ≠ .sr := by rintro rfl; simp at h
  unfold entryBase
  split
  · rw [reg_setSr_ne _ _ _ hsr, reg_exchange s h]
  · exact reg_setSr_ne _ _ _ hsr

theorem frameSr_entryBase : Machine.frameSr s (entryBase clear s) = entryWord clear s := by
  simp [Machine.frameSr, entryWord, srP]

/-- The state after the pushes of an entry. -/
def entryPushed : State :=
  { entryBase clear s with isp := entryIsp s - 8, mem := entryMem clear s }

@[simp] theorem entryPushed_mem : (entryPushed clear s).mem = entryMem clear s := rfl
@[simp] theorem entryPushed_cfg : (entryPushed clear s).cfg = s.cfg := entryBase_cfg clear s
@[simp] theorem entryPushed_sr : (entryPushed clear s).sr = entrySr clear s := entryBase_sr clear s

/-- The state after an entry. -/
def entryDone (index : Byte) (set : Half) : State :=
  { entryPushed clear s with sr := entrySr clear s ||| set, pc := entryVector index clear s, entered := true }

end Base

theorem sub4_sub4 (a : Word) : a - 4 - 4 = a - 8 := by bv_omega

/-- The pushes of an entry, when they can be made. -/
theorem pushFrame_pushable {s : State} (h : EntryPushable s) (clear : Half) :
    pushFrame (entryWord clear s) (entryBase clear s) = .ok (entryPushed clear s) := by
  obtain ⟨h1, h2, h3⟩ := h
  have e1 := push32_ok (s := entryBase clear s) (entryBase clear s).pc
    (by rw [misaligned4_sub4, entryBase_isp]; exact h1) (by rw [entryBase_isp, entryBase_cfg]; exact h2)
  have e2 : push32 (entryWord clear s) (((entryBase clear s).setIsp ((entryBase clear s).isp - 4)).store .word
      ((entryBase clear s).isp - 4) (entryBase clear s).pc) = .ok (entryPushed clear s) := by
    rw [push32_ok]
    · simp only [State.store, State.setIsp, State.setMem, entryBase_isp, entryBase_pc, entryBase_mem,
        entryBase_cfg, sub4_sub4, entryPushed, entryMem]
    · show misaligned4 ((entryBase clear s).isp - 4 - 4) = false
      rw [misaligned4_sub4, misaligned4_sub4, entryBase_isp]; exact h1
    · show accessOk (entryBase clear s).cfg .write .word ((entryBase clear s).isp - 4 - 4) = true
      rw [sub4_sub4, entryBase_isp, entryBase_cfg]; exact h3
  simp only [pushFrame, e1, e2]

/-- The pushes of an entry, when they cannot be made. -/
theorem pushFrame_stuck {s : State} (h : ¬ EntryPushable s) (clear : Half) :
    ∃ t, pushFrame (entryWord clear s) (entryBase clear s) = .error t := by
  cases hr : pushFrame (entryWord clear s) (entryBase clear s) with
  | error t => exact ⟨t, rfl⟩
  | ok u =>
    exfalso
    unfold pushFrame at hr
    split at hr
    · cases hr
    · next s1 h1 =>
      obtain ⟨a1, a2, a3⟩ := push32_eq_ok h1
      obtain ⟨b1, b2, -⟩ := push32_eq_ok hr
      subst a3
      refine h ⟨?_, ?_, ?_⟩
      · rwa [misaligned4_sub4, entryBase_isp] at a1
      · rwa [entryBase_isp, entryBase_cfg] at a2
      · change accessOk (entryBase clear s).cfg .write .word ((entryBase clear s).isp - 4 - 4) = true at b2
        rwa [sub4_sub4, entryBase_isp, entryBase_cfg] at b2

/-- An entry that can be made. -/
theorem enter_ready {index : Byte} {clear : Half} {s : State} (h : EntryReady index clear s) (set : Half) :
    enter index clear set s = .next (entryDone clear s index set) := by
  obtain ⟨s1, e1, e2⟩ := toSystem_switchable h.switchable clear
  have hr : memRead ((entryPushed clear s).setSr ((entryPushed clear s).sr ||| set)) .read .word (vectorAddress index) =
      .ok (entryVector index clear s) := by
    rw [memRead_ok (w := .word) (misaligned4_vectorAddress index)]
    · simp [entryVector, vectorAddress_eq]
    · simpa [vectorAddress_eq] using h.readable
  have ha := h.aligned
  simp only [enter, e1, andThen_next, e2, frameSr_entryBase, pushFrame_pushable h.pushable, jumpToVector, hr, ha]
  simp only [if_neg Bool.false_ne_true, State.setPc, State.setSr, State.setEntered, entryPushed_sr, entryDone]

theorem enter_not_switchable {s : State} (h : ¬ EntrySwitchable s) (index : Byte) (clear set : Half) :
    enter index clear set s = .refused .misalignedSpc := by
  simp [enter, toSystem_refused h]

theorem enter_not_pushable {s : State} (h : EntrySwitchable s) (h' : ¬ EntryPushable s) (index : Byte)
    (clear set : Half) : enter index clear set s = .fault .entryPush := by
  obtain ⟨s1, e1, e2⟩ := toSystem_switchable h clear
  obtain ⟨t, e3⟩ := pushFrame_stuck h' clear
  simp only [enter, e1, andThen_next, e2, frameSr_entryBase, e3]

theorem enter_not_readable {s : State} {index : Byte} (h : EntrySwitchable s) (h' : EntryPushable s)
    (h'' : accessOk s.cfg .read .word (BitVec.ofNat 32 (4 * index.toNat)) = false) (clear set : Half) :
    enter index clear set s = .fault .vectorRead := by
  obtain ⟨s1, e1, e2⟩ := toSystem_switchable h clear
  have hr : memRead ((entryPushed clear s).setSr ((entryPushed clear s).sr ||| set)) .read .word (vectorAddress index) =
      .error .access :=
    memRead_denied (w := .word) (misaligned4_vectorAddress index) (by simpa [vectorAddress_eq] using h'')
  simp only [enter, e1, andThen_next, e2, frameSr_entryBase, pushFrame_pushable h', jumpToVector, hr]

theorem enter_misaligned {s : State} {index : Byte} {clear : Half} (h : EntrySwitchable s)
    (h' : EntryPushable s) (h'' : accessOk s.cfg .read .word (BitVec.ofNat 32 (4 * index.toNat)) = true)
    (h3 : misaligned4 (entryVector index clear s) = true) (set : Half) :
    enter index clear set s = .refused .misalignedVector := by
  obtain ⟨s1, e1, e2⟩ := toSystem_switchable h clear
  have hr : memRead ((entryPushed clear s).setSr ((entryPushed clear s).sr ||| set)) .read .word (vectorAddress index) =
      .ok (entryVector index clear s) := by
    rw [memRead_ok (w := .word) (misaligned4_vectorAddress index)]
    · simp [entryVector, vectorAddress_eq]
    · simpa [vectorAddress_eq] using h''
  simp only [enter, e1, andThen_next, e2, frameSr_entryBase, pushFrame_pushable h', jumpToVector, hr, h3]
  rfl

/-- The only next state an entry can answer. -/
theorem enter_eq_next {index : Byte} {clear set : Half} {s t : State}
    (h : enter index clear set s = .next t) :
    EntryReady index clear s ∧ t = entryDone clear s index set := by
  by_cases h1 : EntrySwitchable s
  · by_cases h2 : EntryPushable s
    · cases h3 : accessOk s.cfg .read .word (BitVec.ofNat 32 (4 * index.toNat)) with
      | false => rw [enter_not_readable h1 h2 h3] at h; cases h
      | true =>
        cases h4 : misaligned4 (entryVector index clear s) with
        | true => rw [enter_misaligned h1 h2 h3 h4] at h; cases h
        | false =>
          have hr : EntryReady index clear s := ⟨h1, h2, h3, h4⟩
          rw [enter_ready hr] at h
          cases h
          exact ⟨hr, rfl⟩
    · rw [enter_not_pushable h1 h2] at h; cases h
  · rw [enter_not_switchable h1] at h; cases h

/-- The frame words of an entry read back (60_exceptions.md R249, R253). -/
theorem entryMem_words {s : State} (hm : s.memCanonical) (clear : Half) (o : ByteOrder)
    (ho : s.cfg.byteOrder = o) :
    valueAt o (entryMem clear s) (entryIsp s - 4) .word = entryPc s ∧
      valueAt o (entryMem clear s) (entryIsp s - 8) .word = entryWord clear s := by
  subst ho
  constructor
  · rw [entryMem, wordAt_putValue_ne _ _ _ _ (by bv_omega) (by bv_omega), wordAt_putValue hm]
  · exact wordAt_putValue (putValue_wf hm _ _ _ _) _ _ _

theorem entryMem_wf {s : State} (hm : s.memCanonical) (clear : Half) :
    Memory.wf (entryMem clear s) = true :=
  putValue_wf (putValue_wf hm _ _ _ _) _ _ _ _

/-- What an entry leaves. -/
theorem entryDone_entryTo {s : State} (hm : s.memCanonical) (index : Byte) (clear set : Half) :
    EntryTo index clear set s (entryDone clear s index set) where
  pc := rfl
  isp := rfl
  sr := rfl
  ssp := entryBase_ssp clear s
  spc := entryBase_spc clear s
  framePc := (entryMem_words hm clear _ (entryBase_cfg clear s ▸ rfl)).1
  frameSr := (entryMem_words hm clear _ (entryBase_cfg clear s ▸ rfl)).2
  mem b hb := by
    show byteAt (entryMem clear s) b = byteAt s.mem b
    rw [entryMem, byteAt_putValue_outside, byteAt_putValue_outside] <;> simp only [widthBytes] <;> bv_omega
  regs j hj := by
    rw [← reg_entryBase clear s hj]
    cases j <;> first | rfl | simp at hj
  cfg := entryBase_cfg clear s
  env := entryBase_env clear s
  inReset := entryBase_inReset clear s
  entered := rfl

/-- A trap in system mode with `T` = 1 halts (60_exceptions.md R251). -/
theorem trapEntry_halts {s : State} (hT : s.flagT = true) (hP : s.flagP = false) (t : Trap) :
    trapEntry t s = .next (trapHalt s) := by
  simp [trapEntry, hT, hP]

/-- Any other trap is entered. -/
theorem trapEntry_enters {s : State} (h : s.flagT = false ∨ s.flagP = true) (t : Trap) :
    trapEntry t s = enter t.index 0 srT s := by
  unfold trapEntry
  rcases h with h | h <;> simp [h]

/-- The only next states a trap can answer. -/
theorem trapEntry_eq_next {t : Trap} {s u : State} (h : trapEntry t s = .next u) :
    (s.flagT = true ∧ s.flagP = false ∧ u = trapHalt s) ∨
      ((s.flagT = false ∨ s.flagP = true) ∧ EntryReady t.index 0 s ∧ u = entryDone 0 s t.index srT) := by
  cases hT : s.flagT <;> cases hP : s.flagP
  · rw [trapEntry_enters (.inl hT)] at h
    exact .inr ⟨.inl rfl, enter_eq_next h⟩
  · rw [trapEntry_enters (.inr hP)] at h
    exact .inr ⟨.inr rfl, enter_eq_next h⟩
  · rw [trapEntry_halts hT hP] at h
    cases h
    exact .inl ⟨rfl, rfl, rfl⟩
  · rw [trapEntry_enters (.inr hP)] at h
    exact .inr ⟨.inr rfl, enter_eq_next h⟩

end Sys2Proof.Machine
end

