-- ==== Sys2Proof/Laws/Effects.lean ====
section
/-!
SUPPORT. What the effects that several instructions share can do, said once: what each answers when its
accesses are accepted, and what every effect that completes keeps (10_state.md R14, R26;
60_exceptions.md R255, R263).
-/

namespace Sys2Proof.Machine

/-! ### The end of an instruction, and its displacement -/

/-- Everything the end of an instruction can do. -/
theorem complete_endsAs (s : State) (effect : Except Trap State) : EndsAs s effect (complete s effect) where
  traps t h := by rw [h]; rfl
  stays u h hp := by rw [h]; exact complete_stays hp
  switches u h hp hq hs := by
    refine ⟨u.exchange.setSr (u.sr ||| srP), ?_, ?_, rfl, rfl, rfl, rfl, fun j hj => ?_, fun _ => rfl, rfl, rfl,
      rfl, rfl⟩
    · rw [h, complete_switches hp hq, contextSwitch_protected hs]
    · show u.sr ||| srP = u.sr
      ext k hk
      simp only [BitVec.getElem_or, srP]
      by_cases h9 : k = 9
      · subst h9; simpa [State.flagP] using hq
      · interval_cases k <;> simp at h9 ⊢
    · rw [reg_setSr_ne _ _ _ fun e => hj (by simp [e]), reg_exchange u hj]
  refused u h hp hq hs := by rw [h, complete_switches hp hq, contextSwitch_refused _ hs]

/-- The displacement operand is the field's signed or unsigned value (30_encoding.md R68). -/
theorem disp8_eq (s : State) (n : Byte) : disp8 s.cfg n = displacement s n := by
  unfold disp8 displacement
  split
  · rfl
  · exact BitVec.eq_of_toNat_eq (by simp)

/-! ### Effects that complete -/

/-- A plain destination takes the result, and nothing else changes (41_three_operand_alu.md R100). -/
theorem writeResult_plain {s : State} {c : Cond} {x : Reg} (hc : s.Runs c) (hx : x.plain = true) (v : Word) :
    writeResult c x v s = .next (s.setReg x v) := by
  rw [writeResult, conditionally_runs hc, writeReg_plain s v hx,
    complete_same (setReg_flagP (Reg.ne_sr_of_plain hx))]

/-- Two results: `x` first, register 10 last (decision D13). -/
theorem writePair_plain (s : State) {x : Reg} (hx : x.plain = true) (v w : Word) :
    writePair x v w s = .ok ((s.setReg x v).setReg .cc10 w) := by
  simp only [writePair, writeReg_plain s v hx]
  rfl

theorem updateBase_plain (s : State) {x : Reg} (hx : x.plain = true) (w : Width) :
    updateBase true x w s = .ok (s.setReg x (s.reg x + widthBytes w)) := by
  simp only [updateBase, if_true, writeReg_plain _ _ hx]

/-- A store whose access is accepted writes memory, then updates the base (42_load_store.md R131, R165). -/
theorem storeEffect_accepted {s : State} {w : Width} {x : Reg} {off : Word} (u : Bool) (y : Reg)
    (h : misaligned w (s.reg x + off) = false) (h' : accessOk s.cfg .write w (s.reg x + off) = true) :
    storeEffect w u x y off s = updateBase u x w (s.store w (s.reg x + off) (s.reg y)) := by
  simp only [storeEffect, memWrite_ok _ h h']

/-- A load whose access is accepted writes the destination, then updates the base (R131, R165). -/
theorem loadEffect_accepted {s s1 : State} {w : Width} {e : Extension} {x y : Reg} {off : Word} (u : Bool)
    (h : misaligned w (s.reg y + off) = false) (h' : accessOk s.cfg .read w (s.reg y + off) = true)
    (hx : writeReg x (extendLoaded e w (valueAt s.cfg.byteOrder s.mem (s.reg y + off) w)) s = .ok s1) :
    loadEffect w e u x y off s = updateBase u y w s1 := by
  simp only [loadEffect, memRead_ok h h', hx]

/-- A load whose destination write traps (R165). -/
theorem loadEffect_traps {s : State} {w : Width} {e : Extension} {x y : Reg} {off : Word} {t : Trap} (u : Bool)
    (h : misaligned w (s.reg y + off) = false) (h' : accessOk s.cfg .read w (s.reg y + off) = true)
    (hx : writeReg x (extendLoaded e w (valueAt s.cfg.byteOrder s.mem (s.reg y + off) w)) s = .error t) :
    loadEffect w e u x y off s = .error t := by
  simp only [loadEffect, memRead_ok h h', hx]

/-- The state after the two pushes of a call (44_one_operand.md R203, R204). -/
def callPushed (s : State) : State :=
  (((s.setIsp (s.isp - 4)).store .word (s.isp - 4) s.pc).setIsp (s.isp - 8)).store .word (s.isp - 8) s.dsp

/-- A call whose pushes are accepted jumps after them. -/
theorem callEffect_accepted {s : State} (t : Word) (h : misaligned4 s.isp = false)
    (h1 : accessOk s.cfg .write .word (s.isp - 4) = true) (h2 : accessOk s.cfg .write .word (s.isp - 8) = true) :
    callEffect t s = writePc t (callPushed s) := by
  have e4 : s.isp - 4 - 4 = s.isp - 8 := by bv_omega
  have a4 : misaligned4 (s.isp - 4) = false := by rw [misaligned4_sub4]; exact h
  have e : push32 s.dsp ((s.setIsp (s.isp - 4)).store .word (s.isp - 4) s.pc) = .ok (callPushed s) := by
    rw [push32_ok]
    · show Except.ok ((((s.setIsp (s.isp - 4)).store .word (s.isp - 4) s.pc).setIsp (s.isp - 4 - 4)).store .word
        (s.isp - 4 - 4) s.dsp) = _
      rw [e4]; rfl
    · show misaligned4 (s.isp - 4 - 4) = false
      rw [misaligned4_sub4]; exact a4
    · show accessOk s.cfg .write .word (s.isp - 4 - 4) = true
      rw [e4]; exact h2
  simp only [callEffect, push32_ok s.pc a4 h1, e]

/-- `ret` whose reads are accepted (45_zero_operand.md R221). -/
theorem returnEffect_accepted {s : State} (h : misaligned4 s.isp = false)
    (h1 : accessOk s.cfg .read .word s.isp = true) (h2 : accessOk s.cfg .read .word (s.isp + 4) = true) :
    returnEffect s = writePc (s.wordAt (s.isp + 4)) ((s.setDsp (s.wordAt s.isp)).setIsp (s.isp + 8)) := by
  have a4 : misaligned4 (s.isp + 4) = false := by rw [misaligned4_add4]; exact h
  simp only [returnEffect, memRead_ok (w := .word) h h1, memRead_ok (w := .word) a4 h2]
  rfl

/-- `rfi` whose reads are accepted (45_zero_operand.md R224). -/
theorem returnFromEntry_accepted {s : State} (h : misaligned4 s.isp = false)
    (h1 : accessOk s.cfg .read .word s.isp = true) (h2 : accessOk s.cfg .read .word (s.isp + 4) = true) :
    returnFromEntry s =
      writePc (s.wordAt (s.isp + 4)) ((s.setIsp (s.isp + 8)).setSr (lowHalf (s.wordAt s.isp) &&& srMask)) := by
  have a4 : misaligned4 (s.isp + 4) = false := by rw [misaligned4_add4]; exact h
  simp only [returnFromEntry, memRead_ok (w := .word) h h1, memRead_ok (w := .word) a4 h2]
  rfl

/-! ### What an effect that completes keeps -/

/-- `t` is `s` after register and memory writes: `pc` stays aligned, `sr` legal, memory canonical; the
context registers and the fields that are no registers are untouched; in protected mode bits 8 to 12
of `sr` stay. -/
structure EffectKeeps (s t : State) : Prop where
  pcAligned : s.pcAligned → t.pcAligned
  srLegal : s.srLegal → t.srLegal
  memCanonical : s.memCanonical → t.memCanonical
  cfg : t.cfg = s.cfg
  env : t.env = s.env
  inReset : t.inReset = s.inReset
  entered : t.entered = s.entered
  ssp : t.ssp = s.ssp
  spc : t.spc = s.spc
  control : s.flagP = true → t.sr &&& srControlMask = s.sr &&& srControlMask

theorem EffectKeeps.flagP {s t : State} (h : EffectKeeps s t) (hp : s.flagP = true) : t.flagP = true := by
  have e := congrArg (fun b => b.getLsbD 9) (h.control hp)
  simp only [srControlMask, BitVec.getLsbD_and] at e
  simpa [State.flagP] using e.trans (by simpa [State.flagP] using hp)

theorem EffectKeeps.refl (s : State) : EffectKeeps s s :=
  ⟨id, id, id, rfl, rfl, rfl, rfl, rfl, rfl, fun _ => rfl⟩

theorem EffectKeeps.trans {s t u : State} (h : EffectKeeps s t) (k : EffectKeeps t u) : EffectKeeps s u :=
  ⟨k.pcAligned ∘ h.pcAligned, k.srLegal ∘ h.srLegal, k.memCanonical ∘ h.memCanonical, k.cfg.trans h.cfg,
    k.env.trans h.env, k.inReset.trans h.inReset, k.entered.trans h.entered, k.ssp.trans h.ssp,
    k.spc.trans h.spc, fun hp => (k.control (h.flagP hp)).trans (h.control hp)⟩

theorem keeps_setReg (s : State) {x : Reg} (v : Word) (h : x.plain = true) : EffectKeeps s (s.setReg x v) where
  pcAligned hp := by unfold State.pcAligned; rw [setReg_pc_ne _ _ _ (Reg.ne_pc_of_plain h)]; exact hp
  srLegal hl := by unfold State.srLegal; rw [setReg_sr_ne _ _ _ (Reg.ne_sr_of_plain h)]; exact hl
  memCanonical hm := by unfold State.memCanonical; rw [setReg_mem]; exact hm
  cfg := by simp
  env := by simp
  inReset := by simp
  entered := by simp
  ssp := by simp
  spc := by simp
  control _ := by rw [setReg_sr_ne _ _ _ (Reg.ne_sr_of_plain h)]

theorem keeps_setPc (s : State) {v : Word} (h : misaligned4 v = false) : EffectKeeps s (s.setPc v) :=
  ⟨fun _ => h, id, id, rfl, rfl, rfl, rfl, rfl, rfl, fun _ => rfl⟩

theorem keeps_setSr (s : State) {v : Half} (h : v &&& ~~~srMask = 0)
    (hc : s.flagP = true → v &&& srControlMask = s.sr &&& srControlMask) : EffectKeeps s (s.setSr v) :=
  ⟨id, fun _ => h, id, rfl, rfl, rfl, rfl, rfl, rfl, hc⟩

theorem keeps_setIsp (s : State) (v : Word) : EffectKeeps s (s.setIsp v) :=
  ⟨id, id, id, rfl, rfl, rfl, rfl, rfl, rfl, fun _ => rfl⟩

theorem keeps_setDsp (s : State) (v : Word) : EffectKeeps s (s.setDsp v) :=
  ⟨id, id, id, rfl, rfl, rfl, rfl, rfl, rfl, fun _ => rfl⟩

theorem keeps_store (s : State) (w : Width) (a v : Word) : EffectKeeps s (s.store w a v) :=
  ⟨id, id, fun h => putValue_wf h _ _ _ _, rfl, rfl, rfl, rfl, rfl, rfl, fun _ => rfl⟩

theorem keeps_writeReg {s t : State} {x : Reg} {v : Word} (h : writeReg x v s = .ok t) : EffectKeeps s t := by
  rcases writeReg_ok h with ⟨a, rfl⟩ | ⟨-, a, rfl⟩ | ⟨-, n, rfl, a, b⟩
  · exact keeps_setReg s v a
  · exact keeps_setPc s a
  · exact keeps_setSr s a b

theorem keeps_writePc {s t : State} {v : Word} (h : writePc v s = .ok t) : EffectKeeps s t := by
  obtain ⟨a, rfl⟩ := writePc_ok h
  exact keeps_setPc s a

theorem keeps_memWrite {s t : State} {w : Width} {a v : Word} (h : memWrite w a v s = .ok t) :
    EffectKeeps s t := by
  obtain ⟨-, -, rfl⟩ := memWrite_eq_ok h
  exact keeps_store ..

theorem keeps_push32 {s t : State} {v : Word} (h : push32 v s = .ok t) : EffectKeeps s t :=
  (keeps_setIsp s _).trans (keeps_memWrite h)

theorem keeps_writePair {s t : State} {x : Reg} {v w : Word} (h : writePair x v w s = .ok t) :
    EffectKeeps s t := by
  unfold writePair at h
  split at h
  · cases h
  · next k => exact (keeps_writeReg k).trans (keeps_writeReg h)

theorem keeps_updateBase {s t : State} {u : Bool} {x : Reg} {w : Width} (h : updateBase u x w s = .ok t) :
    EffectKeeps s t := by
  unfold updateBase at h
  split at h
  · exact keeps_writeReg h
  · cases h; exact .refl _

theorem keeps_storeEffect {s t : State} {w : Width} {u : Bool} {x y : Reg} {off : Word}
    (h : storeEffect w u x y off s = .ok t) : EffectKeeps s t := by
  unfold storeEffect at h
  split at h
  · cases h
  · next k => exact (keeps_memWrite k).trans (keeps_updateBase h)

theorem keeps_loadEffect {s t : State} {w : Width} {e : Extension} {u : Bool} {x y : Reg} {off : Word}
    (h : loadEffect w e u x y off s = .ok t) : EffectKeeps s t := by
  unfold loadEffect at h
  split at h
  · cases h
  · split at h
    · cases h
    · next k => exact (keeps_writeReg k).trans (keeps_updateBase h)

theorem keeps_swapEffect {s t : State} {x y : Reg} (h : swapEffect x y s = .ok t) : EffectKeeps s t := by
  unfold swapEffect at h
  split at h
  · cases h
  · next k => exact (keeps_writeReg k).trans (keeps_writeReg h)

theorem keeps_pushEffect {s t : State} {x y : Reg} (h : pushEffect x y s = .ok t) : EffectKeeps s t := by
  unfold pushEffect at h
  split at h
  · cases h
  · split at h
    · cases h
    · next k => exact (keeps_writeReg k).trans (keeps_memWrite h)

theorem keeps_callEffect {s t : State} {a : Word} (h : callEffect a s = .ok t) : EffectKeeps s t := by
  unfold callEffect at h
  split at h
  · cases h
  · next k =>
    split at h
    · cases h
    · next k' => exact ((keeps_push32 k).trans (keeps_push32 k')).trans (keeps_writePc h)

theorem keeps_fastCallEffect {s t : State} {a : Word} (h : fastCallEffect a s = .ok t) : EffectKeeps s t :=
  ((keeps_setReg s s.dsp rfl).trans (keeps_setReg _ _ rfl)).trans (keeps_writePc h)

theorem keeps_returnEffect {s t : State} (h : returnEffect s = .ok t) : EffectKeeps s t := by
  unfold returnEffect at h
  split at h
  · cases h
  · split at h
    · cases h
    · exact ((keeps_setDsp _ _).trans (keeps_setIsp _ _)).trans (keeps_writePc h)

theorem keeps_fastReturnEffect {s t : State} (h : fastReturnEffect s = .ok t) : EffectKeeps s t :=
  (keeps_setDsp _ _).trans (keeps_writePc h)

/-- A return from an exception runs in system mode only. -/
theorem keeps_returnFromEntry {s t : State} (hp : s.flagP = false) (h : returnFromEntry s = .ok t) :
    EffectKeeps s t := by
  unfold returnFromEntry at h
  split at h
  · cases h
  · split at h
    · cases h
    · refine ((keeps_setIsp s (s.isp + 8)).trans (keeps_setSr _ ?_ ?_)).trans (keeps_writePc h)
      · rw [BitVec.and_assoc]; simp [srMask]
      · intro hq
        rw [show (s.setIsp (s.isp + 8)).flagP = s.flagP from rfl, hp] at hq
        cases hq

end Sys2Proof.Machine
end

