-- ==== Sys2Proof/Laws/PerInstr.lean ====
section
/-!
SUPPORT. Per instruction: decoding the fields of a well-formed instruction's standard word gives the
instruction back (30_encoding.md R64 to R79); a reserved half of a pair has no standard word.
-/

namespace Sys2Proof

/-- A legal condition passes the check on `cccc` and `rr` (30_encoding.md R72). -/
theorem Cond.wf_bits {c : Cond} (h : c.wf = true) : c.code.toBits ≠ 0 ∨ c.reg.toBits = 0 := by
  rcases c with ⟨code, reg⟩
  cases code <;> cases reg <;> revert h <;> decide

/-- A word with `VV` = 00 and legal condition fields is decoded by its row. -/
theorem decodeFields_row {f : Fields} {c : Cond} (hc : c.wf = true) (hv : f.vv = 0)
    (hr : f.rr = c.reg.toBits) (hk : f.cccc = c.code.toBits) : decodeFields f = decodeRow f := by
  unfold decodeFields
  rw [if_pos ⟨hv, by rw [hr, hk]; exact Cond.wf_bits hc⟩]

/-- The condition that the fields of an encoding hold. -/
@[simp] theorem fieldsOf_cond (op : BitVec 7) (c : Cond) (h z y x : BitVec 4) :
    (fieldsOf op c h z y x).cond = c := by
  simp [fieldsOf, Fields.cond]

/-- The condition bits of a condition's encoding are the condition. -/
theorem cond_bits (c : Cond) : Cond.mk (CondCode.ofBits c.code.toBits) (CcReg.ofBits c.reg.toBits) = c := by
  simp

/-- The bits a layout looks at are the fields it names. -/
theorem n16_high (f : Fields) : f.n16.extractLsb' 12 4 = f.h := by
  simp only [Fields.n16]
  ext i hi
  simp only [BitVec.getElem_eq_testBit_toNat, BitVec.testBit_toNat, BitVec.getLsbD_append, BitVec.getLsbD_extractLsb']
  grind

theorem n16_top (f : Fields) : f.n16.extractLsb' 8 8 = f.h ++ f.z := by
  simp only [Fields.n16]
  ext i hi
  simp only [BitVec.getElem_eq_testBit_toNat, BitVec.testBit_toNat, BitVec.getLsbD_append, BitVec.getLsbD_extractLsb']
  grind

theorem n16_y (f : Fields) : f.n16.extractLsb' 4 4 = f.y := by
  simp only [Fields.n16]
  ext i hi
  simp only [BitVec.getElem_eq_testBit_toNat, BitVec.testBit_toNat, BitVec.getLsbD_append, BitVec.getLsbD_extractLsb']
  grind

theorem n16_x (f : Fields) : f.n16.extractLsb' 0 4 = f.x := by
  simp only [Fields.n16]
  ext i hi
  simp only [BitVec.getElem_eq_testBit_toNat, BitVec.testBit_toNat, BitVec.getLsbD_append, BitVec.getLsbD_extractLsb']
  grind

theorem n16_z (f : Fields) : f.n16.extractLsb' 8 4 = f.z := by
  simp only [Fields.n16]
  ext i hi
  simp only [BitVec.getElem_eq_testBit_toNat, BitVec.testBit_toNat, BitVec.getLsbD_append, BitVec.getLsbD_extractLsb']
  grind

/-- Two nibbles are zero exactly if their byte is. -/
theorem byte_zero (a b : BitVec 4) : (a ++ b = 0#8) ↔ (a = 0 ∧ b = 0) := by
  revert a b; decide

/-- Four nibbles are zero exactly if their half is. -/
theorem half_zero (a b c d : BitVec 4) : (a ++ b ++ c ++ d = 0#16) ↔ (a = 0 ∧ b = 0 ∧ c = 0 ∧ d = 0) := by
  constructor
  · intro h
    have e : ∀ k, (a ++ b ++ c ++ d).getLsbD k = (0#16).getLsbD k := fun k => by rw [h]
    simp only [BitVec.getLsbD_append, BitVec.getLsbD_zero] at e
    refine ⟨?_, ?_, ?_, ?_⟩ <;> ext i hi
    · have := e (i + 12); grind
    · have := e (i + 8); grind
    · have := e (i + 4); grind
    · have := e i; grind
  · rintro ⟨rfl, rfl, rfl, rfl⟩; rfl

end Sys2Proof

namespace Sys2Proof.Laws

/-- The claim about one instruction. -/
def FieldsRoundTrip.Statement (i : Instr) : Prop :=
  i.wf = true → (∃ h, i = .reservedCompact h) ∨ decodeFields (encodeFields i) = i

/-- From the row of an instruction's opcode to the claim. -/
theorem FieldsRoundTrip_of_row {i : Instr} {c : Cond} (hw : i.wf = c.wf) (hv : (encodeFields i).vv = 0)
    (hr : (encodeFields i).rr = c.reg.toBits) (hk : (encodeFields i).cccc = c.code.toBits)
    (h : decodeRow (encodeFields i) = i) : FieldsRoundTrip.Statement i := fun w =>
  .inr ((decodeFields_row (c := c) (hw ▸ w) hv hr hk).trans h)


theorem FieldsRoundTrip.addXYZ (c : Cond) (x y z : Reg) : FieldsRoundTrip.Statement (.addXYZ c x y z) := by
  refine FieldsRoundTrip_of_row (c := c) rfl rfl rfl rfl ?_
  show Instr.addXYZ ⟨CondCode.ofBits c.code.toBits, CcReg.ofBits c.reg.toBits⟩ (Reg.ofBits x.toBits) (Reg.ofBits y.toBits) (Reg.ofBits z.toBits) = _
  simp only [cond_bits, Reg.ofBits_toBits]

theorem FieldsRoundTrip.subXYZ (c : Cond) (x y z : Reg) : FieldsRoundTrip.Statement (.subXYZ c x y z) := by
  refine FieldsRoundTrip_of_row (c := c) rfl rfl rfl rfl ?_
  show Instr.subXYZ ⟨CondCode.ofBits c.code.toBits, CcReg.ofBits c.reg.toBits⟩ (Reg.ofBits x.toBits) (Reg.ofBits y.toBits) (Reg.ofBits z.toBits) = _
  simp only [cond_bits, Reg.ofBits_toBits]

theorem FieldsRoundTrip.umulXYZ (c : Cond) (x y z : Reg) : FieldsRoundTrip.Statement (.umulXYZ c x y z) := by
  refine FieldsRoundTrip_of_row (c := c) rfl rfl rfl rfl ?_
  show Instr.umulXYZ ⟨CondCode.ofBits c.code.toBits, CcReg.ofBits c.reg.toBits⟩ (Reg.ofBits x.toBits) (Reg.ofBits y.toBits) (Reg.ofBits z.toBits) = _
  simp only [cond_bits, Reg.ofBits_toBits]

theorem FieldsRoundTrip.smulXYZ (c : Cond) (x y z : Reg) : FieldsRoundTrip.Statement (.smulXYZ c x y z) := by
  refine FieldsRoundTrip_of_row (c := c) rfl rfl rfl rfl ?_
  show Instr.smulXYZ ⟨CondCode.ofBits c.code.toBits, CcReg.ofBits c.reg.toBits⟩ (Reg.ofBits x.toBits) (Reg.ofBits y.toBits) (Reg.ofBits z.toBits) = _
  simp only [cond_bits, Reg.ofBits_toBits]

theorem FieldsRoundTrip.udivXYZ (c : Cond) (x y z : Reg) : FieldsRoundTrip.Statement (.udivXYZ c x y z) := by
  refine FieldsRoundTrip_of_row (c := c) rfl rfl rfl rfl ?_
  show Instr.udivXYZ ⟨CondCode.ofBits c.code.toBits, CcReg.ofBits c.reg.toBits⟩ (Reg.ofBits x.toBits) (Reg.ofBits y.toBits) (Reg.ofBits z.toBits) = _
  simp only [cond_bits, Reg.ofBits_toBits]

theorem FieldsRoundTrip.sdivXYZ (c : Cond) (x y z : Reg) : FieldsRoundTrip.Statement (.sdivXYZ c x y z) := by
  refine FieldsRoundTrip_of_row (c := c) rfl rfl rfl rfl ?_
  show Instr.sdivXYZ ⟨CondCode.ofBits c.code.toBits, CcReg.ofBits c.reg.toBits⟩ (Reg.ofBits x.toBits) (Reg.ofBits y.toBits) (Reg.ofBits z.toBits) = _
  simp only [cond_bits, Reg.ofBits_toBits]

theorem FieldsRoundTrip.rotlXYZ (c : Cond) (x y z : Reg) : FieldsRoundTrip.Statement (.rotlXYZ c x y z) := by
  refine FieldsRoundTrip_of_row (c := c) rfl rfl rfl rfl ?_
  show Instr.rotlXYZ ⟨CondCode.ofBits c.code.toBits, CcReg.ofBits c.reg.toBits⟩ (Reg.ofBits x.toBits) (Reg.ofBits y.toBits) (Reg.ofBits z.toBits) = _
  simp only [cond_bits, Reg.ofBits_toBits]

theorem FieldsRoundTrip.rotrXYZ (c : Cond) (x y z : Reg) : FieldsRoundTrip.Statement (.rotrXYZ c x y z) := by
  refine FieldsRoundTrip_of_row (c := c) rfl rfl rfl rfl ?_
  show Instr.rotrXYZ ⟨CondCode.ofBits c.code.toBits, CcReg.ofBits c.reg.toBits⟩ (Reg.ofBits x.toBits) (Reg.ofBits y.toBits) (Reg.ofBits z.toBits) = _
  simp only [cond_bits, Reg.ofBits_toBits]

theorem FieldsRoundTrip.andXYZ (c : Cond) (x y z : Reg) : FieldsRoundTrip.Statement (.andXYZ c x y z) := by
  refine FieldsRoundTrip_of_row (c := c) rfl rfl rfl rfl ?_
  show Instr.andXYZ ⟨CondCode.ofBits c.code.toBits, CcReg.ofBits c.reg.toBits⟩ (Reg.ofBits x.toBits) (Reg.ofBits y.toBits) (Reg.ofBits z.toBits) = _
  simp only [cond_bits, Reg.ofBits_toBits]

theorem FieldsRoundTrip.orXYZ (c : Cond) (x y z : Reg) : FieldsRoundTrip.Statement (.orXYZ c x y z) := by
  refine FieldsRoundTrip_of_row (c := c) rfl rfl rfl rfl ?_
  show Instr.orXYZ ⟨CondCode.ofBits c.code.toBits, CcReg.ofBits c.reg.toBits⟩ (Reg.ofBits x.toBits) (Reg.ofBits y.toBits) (Reg.ofBits z.toBits) = _
  simp only [cond_bits, Reg.ofBits_toBits]

theorem FieldsRoundTrip.xorXYZ (c : Cond) (x y z : Reg) : FieldsRoundTrip.Statement (.xorXYZ c x y z) := by
  refine FieldsRoundTrip_of_row (c := c) rfl rfl rfl rfl ?_
  show Instr.xorXYZ ⟨CondCode.ofBits c.code.toBits, CcReg.ofBits c.reg.toBits⟩ (Reg.ofBits x.toBits) (Reg.ofBits y.toBits) (Reg.ofBits z.toBits) = _
  simp only [cond_bits, Reg.ofBits_toBits]

theorem FieldsRoundTrip.sarXYZ (c : Cond) (x y z : Reg) : FieldsRoundTrip.Statement (.sarXYZ c x y z) := by
  refine FieldsRoundTrip_of_row (c := c) rfl rfl rfl rfl ?_
  show Instr.sarXYZ ⟨CondCode.ofBits c.code.toBits, CcReg.ofBits c.reg.toBits⟩ (Reg.ofBits x.toBits) (Reg.ofBits y.toBits) (Reg.ofBits z.toBits) = _
  simp only [cond_bits, Reg.ofBits_toBits]

theorem FieldsRoundTrip.rotlXYN (c : Cond) (x y : Reg) (n : Byte) : FieldsRoundTrip.Statement (.rotlXYN c x y n) := by
  refine FieldsRoundTrip_of_row (c := c) rfl rfl rfl rfl ?_
  show Instr.rotlXYN ⟨CondCode.ofBits c.code.toBits, CcReg.ofBits c.reg.toBits⟩ (Reg.ofBits x.toBits) (Reg.ofBits y.toBits)
    (n.extractLsb' 4 4 ++ n.extractLsb' 0 4) = _
  simp only [cond_bits, Reg.ofBits_toBits, nibbles8]

theorem FieldsRoundTrip.rotrXYN (c : Cond) (x y : Reg) (n : Byte) : FieldsRoundTrip.Statement (.rotrXYN c x y n) := by
  refine FieldsRoundTrip_of_row (c := c) rfl rfl rfl rfl ?_
  show Instr.rotrXYN ⟨CondCode.ofBits c.code.toBits, CcReg.ofBits c.reg.toBits⟩ (Reg.ofBits x.toBits) (Reg.ofBits y.toBits)
    (n.extractLsb' 4 4 ++ n.extractLsb' 0 4) = _
  simp only [cond_bits, Reg.ofBits_toBits, nibbles8]

theorem FieldsRoundTrip.shlXYZ (c : Cond) (x y z : Reg) : FieldsRoundTrip.Statement (.shlXYZ c x y z) := by
  refine FieldsRoundTrip_of_row (c := c) rfl rfl rfl rfl ?_
  show Instr.shlXYZ ⟨CondCode.ofBits c.code.toBits, CcReg.ofBits c.reg.toBits⟩ (Reg.ofBits x.toBits) (Reg.ofBits y.toBits) (Reg.ofBits z.toBits) = _
  simp only [cond_bits, Reg.ofBits_toBits]

theorem FieldsRoundTrip.shrXYZ (c : Cond) (x y z : Reg) : FieldsRoundTrip.Statement (.shrXYZ c x y z) := by
  refine FieldsRoundTrip_of_row (c := c) rfl rfl rfl rfl ?_
  show Instr.shrXYZ ⟨CondCode.ofBits c.code.toBits, CcReg.ofBits c.reg.toBits⟩ (Reg.ofBits x.toBits) (Reg.ofBits y.toBits) (Reg.ofBits z.toBits) = _
  simp only [cond_bits, Reg.ofBits_toBits]

theorem FieldsRoundTrip.stbXYN (c : Cond) (x y : Reg) (n : Byte) : FieldsRoundTrip.Statement (.stbXYN c x y n) := by
  refine FieldsRoundTrip_of_row (c := c) rfl rfl rfl rfl ?_
  show Instr.stbXYN ⟨CondCode.ofBits c.code.toBits, CcReg.ofBits c.reg.toBits⟩ (Reg.ofBits x.toBits) (Reg.ofBits y.toBits)
    (n.extractLsb' 4 4 ++ n.extractLsb' 0 4) = _
  simp only [cond_bits, Reg.ofBits_toBits, nibbles8]

theorem FieldsRoundTrip.stbuXYN (c : Cond) (x y : Reg) (n : Byte) : FieldsRoundTrip.Statement (.stbuXYN c x y n) := by
  refine FieldsRoundTrip_of_row (c := c) rfl rfl rfl rfl ?_
  show Instr.stbuXYN ⟨CondCode.ofBits c.code.toBits, CcReg.ofBits c.reg.toBits⟩ (Reg.ofBits x.toBits) (Reg.ofBits y.toBits)
    (n.extractLsb' 4 4 ++ n.extractLsb' 0 4) = _
  simp only [cond_bits, Reg.ofBits_toBits, nibbles8]

theorem FieldsRoundTrip.stbiXYZ (c : Cond) (x y z : Reg) : FieldsRoundTrip.Statement (.stbiXYZ c x y z) := by
  refine FieldsRoundTrip_of_row (c := c) rfl rfl rfl rfl ?_
  show Instr.stbiXYZ ⟨CondCode.ofBits c.code.toBits, CcReg.ofBits c.reg.toBits⟩ (Reg.ofBits x.toBits) (Reg.ofBits y.toBits) (Reg.ofBits z.toBits) = _
  simp only [cond_bits, Reg.ofBits_toBits]

theorem FieldsRoundTrip.stbuiXYZ (c : Cond) (x y z : Reg) : FieldsRoundTrip.Statement (.stbuiXYZ c x y z) := by
  refine FieldsRoundTrip_of_row (c := c) rfl rfl rfl rfl ?_
  show Instr.stbuiXYZ ⟨CondCode.ofBits c.code.toBits, CcReg.ofBits c.reg.toBits⟩ (Reg.ofBits x.toBits) (Reg.ofBits y.toBits) (Reg.ofBits z.toBits) = _
  simp only [cond_bits, Reg.ofBits_toBits]

theorem FieldsRoundTrip.sthXYN (c : Cond) (x y : Reg) (n : Byte) : FieldsRoundTrip.Statement (.sthXYN c x y n) := by
  refine FieldsRoundTrip_of_row (c := c) rfl rfl rfl rfl ?_
  show Instr.sthXYN ⟨CondCode.ofBits c.code.toBits, CcReg.ofBits c.reg.toBits⟩ (Reg.ofBits x.toBits) (Reg.ofBits y.toBits)
    (n.extractLsb' 4 4 ++ n.extractLsb' 0 4) = _
  simp only [cond_bits, Reg.ofBits_toBits, nibbles8]

theorem FieldsRoundTrip.sthuXYN (c : Cond) (x y : Reg) (n : Byte) : FieldsRoundTrip.Statement (.sthuXYN c x y n) := by
  refine FieldsRoundTrip_of_row (c := c) rfl rfl rfl rfl ?_
  show Instr.sthuXYN ⟨CondCode.ofBits c.code.toBits, CcReg.ofBits c.reg.toBits⟩ (Reg.ofBits x.toBits) (Reg.ofBits y.toBits)
    (n.extractLsb' 4 4 ++ n.extractLsb' 0 4) = _
  simp only [cond_bits, Reg.ofBits_toBits, nibbles8]

theorem FieldsRoundTrip.sthiXYZ (c : Cond) (x y z : Reg) : FieldsRoundTrip.Statement (.sthiXYZ c x y z) := by
  refine FieldsRoundTrip_of_row (c := c) rfl rfl rfl rfl ?_
  show Instr.sthiXYZ ⟨CondCode.ofBits c.code.toBits, CcReg.ofBits c.reg.toBits⟩ (Reg.ofBits x.toBits) (Reg.ofBits y.toBits) (Reg.ofBits z.toBits) = _
  simp only [cond_bits, Reg.ofBits_toBits]

theorem FieldsRoundTrip.sthuiXYZ (c : Cond) (x y z : Reg) : FieldsRoundTrip.Statement (.sthuiXYZ c x y z) := by
  refine FieldsRoundTrip_of_row (c := c) rfl rfl rfl rfl ?_
  show Instr.sthuiXYZ ⟨CondCode.ofBits c.code.toBits, CcReg.ofBits c.reg.toBits⟩ (Reg.ofBits x.toBits) (Reg.ofBits y.toBits) (Reg.ofBits z.toBits) = _
  simp only [cond_bits, Reg.ofBits_toBits]

theorem FieldsRoundTrip.stwXYN (c : Cond) (x y : Reg) (n : Byte) : FieldsRoundTrip.Statement (.stwXYN c x y n) := by
  refine FieldsRoundTrip_of_row (c := c) rfl rfl rfl rfl ?_
  show Instr.stwXYN ⟨CondCode.ofBits c.code.toBits, CcReg.ofBits c.reg.toBits⟩ (Reg.ofBits x.toBits) (Reg.ofBits y.toBits)
    (n.extractLsb' 4 4 ++ n.extractLsb' 0 4) = _
  simp only [cond_bits, Reg.ofBits_toBits, nibbles8]

theorem FieldsRoundTrip.stwuXYN (c : Cond) (x y : Reg) (n : Byte) : FieldsRoundTrip.Statement (.stwuXYN c x y n) := by
  refine FieldsRoundTrip_of_row (c := c) rfl rfl rfl rfl ?_
  show Instr.stwuXYN ⟨CondCode.ofBits c.code.toBits, CcReg.ofBits c.reg.toBits⟩ (Reg.ofBits x.toBits) (Reg.ofBits y.toBits)
    (n.extractLsb' 4 4 ++ n.extractLsb' 0 4) = _
  simp only [cond_bits, Reg.ofBits_toBits, nibbles8]

theorem FieldsRoundTrip.stwiXYZ (c : Cond) (x y z : Reg) : FieldsRoundTrip.Statement (.stwiXYZ c x y z) := by
  refine FieldsRoundTrip_of_row (c := c) rfl rfl rfl rfl ?_
  show Instr.stwiXYZ ⟨CondCode.ofBits c.code.toBits, CcReg.ofBits c.reg.toBits⟩ (Reg.ofBits x.toBits) (Reg.ofBits y.toBits) (Reg.ofBits z.toBits) = _
  simp only [cond_bits, Reg.ofBits_toBits]

theorem FieldsRoundTrip.stwuiXYZ (c : Cond) (x y z : Reg) : FieldsRoundTrip.Statement (.stwuiXYZ c x y z) := by
  refine FieldsRoundTrip_of_row (c := c) rfl rfl rfl rfl ?_
  show Instr.stwuiXYZ ⟨CondCode.ofBits c.code.toBits, CcReg.ofBits c.reg.toBits⟩ (Reg.ofBits x.toBits) (Reg.ofBits y.toBits) (Reg.ofBits z.toBits) = _
  simp only [cond_bits, Reg.ofBits_toBits]

theorem FieldsRoundTrip.lwXYN (c : Cond) (x y : Reg) (n : Byte) : FieldsRoundTrip.Statement (.lwXYN c x y n) := by
  refine FieldsRoundTrip_of_row (c := c) rfl rfl rfl rfl ?_
  show Instr.lwXYN ⟨CondCode.ofBits c.code.toBits, CcReg.ofBits c.reg.toBits⟩ (Reg.ofBits x.toBits) (Reg.ofBits y.toBits)
    (n.extractLsb' 4 4 ++ n.extractLsb' 0 4) = _
  simp only [cond_bits, Reg.ofBits_toBits, nibbles8]

theorem FieldsRoundTrip.lwuXYN (c : Cond) (x y : Reg) (n : Byte) : FieldsRoundTrip.Statement (.lwuXYN c x y n) := by
  refine FieldsRoundTrip_of_row (c := c) rfl rfl rfl rfl ?_
  show Instr.lwuXYN ⟨CondCode.ofBits c.code.toBits, CcReg.ofBits c.reg.toBits⟩ (Reg.ofBits x.toBits) (Reg.ofBits y.toBits)
    (n.extractLsb' 4 4 ++ n.extractLsb' 0 4) = _
  simp only [cond_bits, Reg.ofBits_toBits, nibbles8]

theorem FieldsRoundTrip.lwiXYZ (c : Cond) (x y z : Reg) : FieldsRoundTrip.Statement (.lwiXYZ c x y z) := by
  refine FieldsRoundTrip_of_row (c := c) rfl rfl rfl rfl ?_
  show Instr.lwiXYZ ⟨CondCode.ofBits c.code.toBits, CcReg.ofBits c.reg.toBits⟩ (Reg.ofBits x.toBits) (Reg.ofBits y.toBits) (Reg.ofBits z.toBits) = _
  simp only [cond_bits, Reg.ofBits_toBits]

theorem FieldsRoundTrip.lwuiXYZ (c : Cond) (x y z : Reg) : FieldsRoundTrip.Statement (.lwuiXYZ c x y z) := by
  refine FieldsRoundTrip_of_row (c := c) rfl rfl rfl rfl ?_
  show Instr.lwuiXYZ ⟨CondCode.ofBits c.code.toBits, CcReg.ofBits c.reg.toBits⟩ (Reg.ofBits x.toBits) (Reg.ofBits y.toBits) (Reg.ofBits z.toBits) = _
  simp only [cond_bits, Reg.ofBits_toBits]

theorem FieldsRoundTrip.lzbXYN (c : Cond) (x y : Reg) (n : Byte) : FieldsRoundTrip.Statement (.lzbXYN c x y n) := by
  refine FieldsRoundTrip_of_row (c := c) rfl rfl rfl rfl ?_
  show Instr.lzbXYN ⟨CondCode.ofBits c.code.toBits, CcReg.ofBits c.reg.toBits⟩ (Reg.ofBits x.toBits) (Reg.ofBits y.toBits)
    (n.extractLsb' 4 4 ++ n.extractLsb' 0 4) = _
  simp only [cond_bits, Reg.ofBits_toBits, nibbles8]

theorem FieldsRoundTrip.lzbuXYN (c : Cond) (x y : Reg) (n : Byte) : FieldsRoundTrip.Statement (.lzbuXYN c x y n) := by
  refine FieldsRoundTrip_of_row (c := c) rfl rfl rfl rfl ?_
  show Instr.lzbuXYN ⟨CondCode.ofBits c.code.toBits, CcReg.ofBits c.reg.toBits⟩ (Reg.ofBits x.toBits) (Reg.ofBits y.toBits)
    (n.extractLsb' 4 4 ++ n.extractLsb' 0 4) = _
  simp only [cond_bits, Reg.ofBits_toBits, nibbles8]

theorem FieldsRoundTrip.lzbiXYZ (c : Cond) (x y z : Reg) : FieldsRoundTrip.Statement (.lzbiXYZ c x y z) := by
  refine FieldsRoundTrip_of_row (c := c) rfl rfl rfl rfl ?_
  show Instr.lzbiXYZ ⟨CondCode.ofBits c.code.toBits, CcReg.ofBits c.reg.toBits⟩ (Reg.ofBits x.toBits) (Reg.ofBits y.toBits) (Reg.ofBits z.toBits) = _
  simp only [cond_bits, Reg.ofBits_toBits]

theorem FieldsRoundTrip.lzbuiXYZ (c : Cond) (x y z : Reg) : FieldsRoundTrip.Statement (.lzbuiXYZ c x y z) := by
  refine FieldsRoundTrip_of_row (c := c) rfl rfl rfl rfl ?_
  show Instr.lzbuiXYZ ⟨CondCode.ofBits c.code.toBits, CcReg.ofBits c.reg.toBits⟩ (Reg.ofBits x.toBits) (Reg.ofBits y.toBits) (Reg.ofBits z.toBits) = _
  simp only [cond_bits, Reg.ofBits_toBits]

theorem FieldsRoundTrip.lsbXYN (c : Cond) (x y : Reg) (n : Byte) : FieldsRoundTrip.Statement (.lsbXYN c x y n) := by
  refine FieldsRoundTrip_of_row (c := c) rfl rfl rfl rfl ?_
  show Instr.lsbXYN ⟨CondCode.ofBits c.code.toBits, CcReg.ofBits c.reg.toBits⟩ (Reg.ofBits x.toBits) (Reg.ofBits y.toBits)
    (n.extractLsb' 4 4 ++ n.extractLsb' 0 4) = _
  simp only [cond_bits, Reg.ofBits_toBits, nibbles8]

theorem FieldsRoundTrip.lsbuXYN (c : Cond) (x y : Reg) (n : Byte) : FieldsRoundTrip.Statement (.lsbuXYN c x y n) := by
  refine FieldsRoundTrip_of_row (c := c) rfl rfl rfl rfl ?_
  show Instr.lsbuXYN ⟨CondCode.ofBits c.code.toBits, CcReg.ofBits c.reg.toBits⟩ (Reg.ofBits x.toBits) (Reg.ofBits y.toBits)
    (n.extractLsb' 4 4 ++ n.extractLsb' 0 4) = _
  simp only [cond_bits, Reg.ofBits_toBits, nibbles8]

theorem FieldsRoundTrip.lsbiXYZ (c : Cond) (x y z : Reg) : FieldsRoundTrip.Statement (.lsbiXYZ c x y z) := by
  refine FieldsRoundTrip_of_row (c := c) rfl rfl rfl rfl ?_
  show Instr.lsbiXYZ ⟨CondCode.ofBits c.code.toBits, CcReg.ofBits c.reg.toBits⟩ (Reg.ofBits x.toBits) (Reg.ofBits y.toBits) (Reg.ofBits z.toBits) = _
  simp only [cond_bits, Reg.ofBits_toBits]

theorem FieldsRoundTrip.lsbuiXYZ (c : Cond) (x y z : Reg) : FieldsRoundTrip.Statement (.lsbuiXYZ c x y z) := by
  refine FieldsRoundTrip_of_row (c := c) rfl rfl rfl rfl ?_
  show Instr.lsbuiXYZ ⟨CondCode.ofBits c.code.toBits, CcReg.ofBits c.reg.toBits⟩ (Reg.ofBits x.toBits) (Reg.ofBits y.toBits) (Reg.ofBits z.toBits) = _
  simp only [cond_bits, Reg.ofBits_toBits]

theorem FieldsRoundTrip.lzhXYN (c : Cond) (x y : Reg) (n : Byte) : FieldsRoundTrip.Statement (.lzhXYN c x y n) := by
  refine FieldsRoundTrip_of_row (c := c) rfl rfl rfl rfl ?_
  show Instr.lzhXYN ⟨CondCode.ofBits c.code.toBits, CcReg.ofBits c.reg.toBits⟩ (Reg.ofBits x.toBits) (Reg.ofBits y.toBits)
    (n.extractLsb' 4 4 ++ n.extractLsb' 0 4) = _
  simp only [cond_bits, Reg.ofBits_toBits, nibbles8]

theorem FieldsRoundTrip.lzhuXYN (c : Cond) (x y : Reg) (n : Byte) : FieldsRoundTrip.Statement (.lzhuXYN c x y n) := by
  refine FieldsRoundTrip_of_row (c := c) rfl rfl rfl rfl ?_
  show Instr.lzhuXYN ⟨CondCode.ofBits c.code.toBits, CcReg.ofBits c.reg.toBits⟩ (Reg.ofBits x.toBits) (Reg.ofBits y.toBits)
    (n.extractLsb' 4 4 ++ n.extractLsb' 0 4) = _
  simp only [cond_bits, Reg.ofBits_toBits, nibbles8]

theorem FieldsRoundTrip.lzhiXYZ (c : Cond) (x y z : Reg) : FieldsRoundTrip.Statement (.lzhiXYZ c x y z) := by
  refine FieldsRoundTrip_of_row (c := c) rfl rfl rfl rfl ?_
  show Instr.lzhiXYZ ⟨CondCode.ofBits c.code.toBits, CcReg.ofBits c.reg.toBits⟩ (Reg.ofBits x.toBits) (Reg.ofBits y.toBits) (Reg.ofBits z.toBits) = _
  simp only [cond_bits, Reg.ofBits_toBits]

theorem FieldsRoundTrip.lzhuiXYZ (c : Cond) (x y z : Reg) : FieldsRoundTrip.Statement (.lzhuiXYZ c x y z) := by
  refine FieldsRoundTrip_of_row (c := c) rfl rfl rfl rfl ?_
  show Instr.lzhuiXYZ ⟨CondCode.ofBits c.code.toBits, CcReg.ofBits c.reg.toBits⟩ (Reg.ofBits x.toBits) (Reg.ofBits y.toBits) (Reg.ofBits z.toBits) = _
  simp only [cond_bits, Reg.ofBits_toBits]

theorem FieldsRoundTrip.lshXYN (c : Cond) (x y : Reg) (n : Byte) : FieldsRoundTrip.Statement (.lshXYN c x y n) := by
  refine FieldsRoundTrip_of_row (c := c) rfl rfl rfl rfl ?_
  show Instr.lshXYN ⟨CondCode.ofBits c.code.toBits, CcReg.ofBits c.reg.toBits⟩ (Reg.ofBits x.toBits) (Reg.ofBits y.toBits)
    (n.extractLsb' 4 4 ++ n.extractLsb' 0 4) = _
  simp only [cond_bits, Reg.ofBits_toBits, nibbles8]

theorem FieldsRoundTrip.lshuXYN (c : Cond) (x y : Reg) (n : Byte) : FieldsRoundTrip.Statement (.lshuXYN c x y n) := by
  refine FieldsRoundTrip_of_row (c := c) rfl rfl rfl rfl ?_
  show Instr.lshuXYN ⟨CondCode.ofBits c.code.toBits, CcReg.ofBits c.reg.toBits⟩ (Reg.ofBits x.toBits) (Reg.ofBits y.toBits)
    (n.extractLsb' 4 4 ++ n.extractLsb' 0 4) = _
  simp only [cond_bits, Reg.ofBits_toBits, nibbles8]

theorem FieldsRoundTrip.lshiXYZ (c : Cond) (x y z : Reg) : FieldsRoundTrip.Statement (.lshiXYZ c x y z) := by
  refine FieldsRoundTrip_of_row (c := c) rfl rfl rfl rfl ?_
  show Instr.lshiXYZ ⟨CondCode.ofBits c.code.toBits, CcReg.ofBits c.reg.toBits⟩ (Reg.ofBits x.toBits) (Reg.ofBits y.toBits) (Reg.ofBits z.toBits) = _
  simp only [cond_bits, Reg.ofBits_toBits]

theorem FieldsRoundTrip.lshuiXYZ (c : Cond) (x y z : Reg) : FieldsRoundTrip.Statement (.lshuiXYZ c x y z) := by
  refine FieldsRoundTrip_of_row (c := c) rfl rfl rfl rfl ?_
  show Instr.lshuiXYZ ⟨CondCode.ofBits c.code.toBits, CcReg.ofBits c.reg.toBits⟩ (Reg.ofBits x.toBits) (Reg.ofBits y.toBits) (Reg.ofBits z.toBits) = _
  simp only [cond_bits, Reg.ofBits_toBits]

theorem FieldsRoundTrip.movXY (c : Cond) (x y : Reg) : FieldsRoundTrip.Statement (.movXY c x y) := by
  refine FieldsRoundTrip_of_row (c := c) rfl rfl rfl rfl ?_
  show Instr.movXY ⟨CondCode.ofBits c.code.toBits, CcReg.ofBits c.reg.toBits⟩ (Reg.ofBits x.toBits) (Reg.ofBits y.toBits) = _
  simp only [cond_bits, Reg.ofBits_toBits]

theorem FieldsRoundTrip.swpXY (c : Cond) (x y : Reg) : FieldsRoundTrip.Statement (.swpXY c x y) := by
  refine FieldsRoundTrip_of_row (c := c) rfl rfl rfl rfl ?_
  show Instr.swpXY ⟨CondCode.ofBits c.code.toBits, CcReg.ofBits c.reg.toBits⟩ (Reg.ofBits x.toBits) (Reg.ofBits y.toBits) = _
  simp only [cond_bits, Reg.ofBits_toBits]

theorem FieldsRoundTrip.notXY (c : Cond) (x y : Reg) : FieldsRoundTrip.Statement (.notXY c x y) := by
  refine FieldsRoundTrip_of_row (c := c) rfl rfl rfl rfl ?_
  show Instr.notXY ⟨CondCode.ofBits c.code.toBits, CcReg.ofBits c.reg.toBits⟩ (Reg.ofBits x.toBits) (Reg.ofBits y.toBits) = _
  simp only [cond_bits, Reg.ofBits_toBits]

theorem FieldsRoundTrip.cmpXY (c : Cond) (x y : Reg) : FieldsRoundTrip.Statement (.cmpXY c x y) := by
  refine FieldsRoundTrip_of_row (c := c) rfl rfl rfl rfl ?_
  show Instr.cmpXY ⟨CondCode.ofBits c.code.toBits, CcReg.ofBits c.reg.toBits⟩ (Reg.ofBits x.toBits) (Reg.ofBits y.toBits) = _
  simp only [cond_bits, Reg.ofBits_toBits]

theorem FieldsRoundTrip.sxbXY (c : Cond) (x y : Reg) : FieldsRoundTrip.Statement (.sxbXY c x y) := by
  refine FieldsRoundTrip_of_row (c := c) rfl rfl rfl rfl ?_
  show Instr.sxbXY ⟨CondCode.ofBits c.code.toBits, CcReg.ofBits c.reg.toBits⟩ (Reg.ofBits x.toBits) (Reg.ofBits y.toBits) = _
  simp only [cond_bits, Reg.ofBits_toBits]

theorem FieldsRoundTrip.sxwXY (c : Cond) (x y : Reg) : FieldsRoundTrip.Statement (.sxwXY c x y) := by
  refine FieldsRoundTrip_of_row (c := c) rfl rfl rfl rfl ?_
  show Instr.sxwXY ⟨CondCode.ofBits c.code.toBits, CcReg.ofBits c.reg.toBits⟩ (Reg.ofBits x.toBits) (Reg.ofBits y.toBits) = _
  simp only [cond_bits, Reg.ofBits_toBits]

theorem FieldsRoundTrip.zxbXY (c : Cond) (x y : Reg) : FieldsRoundTrip.Statement (.zxbXY c x y) := by
  refine FieldsRoundTrip_of_row (c := c) rfl rfl rfl rfl ?_
  show Instr.zxbXY ⟨CondCode.ofBits c.code.toBits, CcReg.ofBits c.reg.toBits⟩ (Reg.ofBits x.toBits) (Reg.ofBits y.toBits) = _
  simp only [cond_bits, Reg.ofBits_toBits]

theorem FieldsRoundTrip.zxwXY (c : Cond) (x y : Reg) : FieldsRoundTrip.Statement (.zxwXY c x y) := by
  refine FieldsRoundTrip_of_row (c := c) rfl rfl rfl rfl ?_
  show Instr.zxwXY ⟨CondCode.ofBits c.code.toBits, CcReg.ofBits c.reg.toBits⟩ (Reg.ofBits x.toBits) (Reg.ofBits y.toBits) = _
  simp only [cond_bits, Reg.ofBits_toBits]

theorem FieldsRoundTrip.cpr0XY (c : Cond) (x y : Reg) : FieldsRoundTrip.Statement (.cpr0XY c x y) := by
  refine FieldsRoundTrip_of_row (c := c) rfl rfl rfl rfl ?_
  show Instr.cpr0XY ⟨CondCode.ofBits c.code.toBits, CcReg.ofBits c.reg.toBits⟩ (Reg.ofBits x.toBits) (Reg.ofBits y.toBits) = _
  simp only [cond_bits, Reg.ofBits_toBits]

theorem FieldsRoundTrip.cpr1XY (c : Cond) (x y : Reg) : FieldsRoundTrip.Statement (.cpr1XY c x y) := by
  refine FieldsRoundTrip_of_row (c := c) rfl rfl rfl rfl ?_
  show Instr.cpr1XY ⟨CondCode.ofBits c.code.toBits, CcReg.ofBits c.reg.toBits⟩ (Reg.ofBits x.toBits) (Reg.ofBits y.toBits) = _
  simp only [cond_bits, Reg.ofBits_toBits]

theorem FieldsRoundTrip.cpr2XY (c : Cond) (x y : Reg) : FieldsRoundTrip.Statement (.cpr2XY c x y) := by
  refine FieldsRoundTrip_of_row (c := c) rfl rfl rfl rfl ?_
  show Instr.cpr2XY ⟨CondCode.ofBits c.code.toBits, CcReg.ofBits c.reg.toBits⟩ (Reg.ofBits x.toBits) (Reg.ofBits y.toBits) = _
  simp only [cond_bits, Reg.ofBits_toBits]

theorem FieldsRoundTrip.cpr3XY (c : Cond) (x y : Reg) : FieldsRoundTrip.Statement (.cpr3XY c x y) := by
  refine FieldsRoundTrip_of_row (c := c) rfl rfl rfl rfl ?_
  show Instr.cpr3XY ⟨CondCode.ofBits c.code.toBits, CcReg.ofBits c.reg.toBits⟩ (Reg.ofBits x.toBits) (Reg.ofBits y.toBits) = _
  simp only [cond_bits, Reg.ofBits_toBits]

theorem FieldsRoundTrip.mvhhXY (c : Cond) (x y : Reg) : FieldsRoundTrip.Statement (.mvhhXY c x y) := by
  refine FieldsRoundTrip_of_row (c := c) rfl rfl rfl rfl ?_
  show Instr.mvhhXY ⟨CondCode.ofBits c.code.toBits, CcReg.ofBits c.reg.toBits⟩ (Reg.ofBits x.toBits) (Reg.ofBits y.toBits) = _
  simp only [cond_bits, Reg.ofBits_toBits]

theorem FieldsRoundTrip.mvhlXY (c : Cond) (x y : Reg) : FieldsRoundTrip.Statement (.mvhlXY c x y) := by
  refine FieldsRoundTrip_of_row (c := c) rfl rfl rfl rfl ?_
  show Instr.mvhlXY ⟨CondCode.ofBits c.code.toBits, CcReg.ofBits c.reg.toBits⟩ (Reg.ofBits x.toBits) (Reg.ofBits y.toBits) = _
  simp only [cond_bits, Reg.ofBits_toBits]

theorem FieldsRoundTrip.mvlhXY (c : Cond) (x y : Reg) : FieldsRoundTrip.Statement (.mvlhXY c x y) := by
  refine FieldsRoundTrip_of_row (c := c) rfl rfl rfl rfl ?_
  show Instr.mvlhXY ⟨CondCode.ofBits c.code.toBits, CcReg.ofBits c.reg.toBits⟩ (Reg.ofBits x.toBits) (Reg.ofBits y.toBits) = _
  simp only [cond_bits, Reg.ofBits_toBits]

theorem FieldsRoundTrip.mvllXY (c : Cond) (x y : Reg) : FieldsRoundTrip.Statement (.mvllXY c x y) := by
  refine FieldsRoundTrip_of_row (c := c) rfl rfl rfl rfl ?_
  show Instr.mvllXY ⟨CondCode.ofBits c.code.toBits, CcReg.ofBits c.reg.toBits⟩ (Reg.ofBits x.toBits) (Reg.ofBits y.toBits) = _
  simp only [cond_bits, Reg.ofBits_toBits]

theorem FieldsRoundTrip.addXN (c : Cond) (x : Reg) (n : BitVec 12) : FieldsRoundTrip.Statement (.addXN c x n) := by
  refine FieldsRoundTrip_of_row (c := c) rfl rfl rfl rfl ?_
  show Instr.addXN ⟨CondCode.ofBits c.code.toBits, CcReg.ofBits c.reg.toBits⟩ (Reg.ofBits x.toBits)
    (n.extractLsb' 8 4 ++ n.extractLsb' 4 4 ++ n.extractLsb' 0 4) = _
  simp only [cond_bits, Reg.ofBits_toBits, nibbles12]

theorem FieldsRoundTrip.subXN (c : Cond) (x : Reg) (n : BitVec 12) : FieldsRoundTrip.Statement (.subXN c x n) := by
  refine FieldsRoundTrip_of_row (c := c) rfl rfl rfl rfl ?_
  show Instr.subXN ⟨CondCode.ofBits c.code.toBits, CcReg.ofBits c.reg.toBits⟩ (Reg.ofBits x.toBits)
    (n.extractLsb' 8 4 ++ n.extractLsb' 4 4 ++ n.extractLsb' 0 4) = _
  simp only [cond_bits, Reg.ofBits_toBits, nibbles12]

theorem FieldsRoundTrip.pushXY (c : Cond) (x y : Reg) : FieldsRoundTrip.Statement (.pushXY c x y) := by
  refine FieldsRoundTrip_of_row (c := c) rfl rfl rfl rfl ?_
  show Instr.pushXY ⟨CondCode.ofBits c.code.toBits, CcReg.ofBits c.reg.toBits⟩ (Reg.ofBits x.toBits) (Reg.ofBits y.toBits) = _
  simp only [cond_bits, Reg.ofBits_toBits]

theorem FieldsRoundTrip.popXY (c : Cond) (x y : Reg) : FieldsRoundTrip.Statement (.popXY c x y) := by
  refine FieldsRoundTrip_of_row (c := c) rfl rfl rfl rfl ?_
  show Instr.popXY ⟨CondCode.ofBits c.code.toBits, CcReg.ofBits c.reg.toBits⟩ (Reg.ofBits x.toBits) (Reg.ofBits y.toBits) = _
  simp only [cond_bits, Reg.ofBits_toBits]

theorem FieldsRoundTrip.movSspY (c : Cond) (y : Reg) : FieldsRoundTrip.Statement (.movSspY c y) := by
  refine FieldsRoundTrip_of_row (c := c) rfl rfl rfl rfl ?_
  show Instr.movSspY ⟨CondCode.ofBits c.code.toBits, CcReg.ofBits c.reg.toBits⟩ (Reg.ofBits y.toBits) = _
  simp only [cond_bits, Reg.ofBits_toBits]

theorem FieldsRoundTrip.movSpcY (c : Cond) (y : Reg) : FieldsRoundTrip.Statement (.movSpcY c y) := by
  refine FieldsRoundTrip_of_row (c := c) rfl rfl rfl rfl ?_
  show Instr.movSpcY ⟨CondCode.ofBits c.code.toBits, CcReg.ofBits c.reg.toBits⟩ (Reg.ofBits y.toBits) = _
  simp only [cond_bits, Reg.ofBits_toBits]

theorem FieldsRoundTrip.movXSsp (c : Cond) (x : Reg) : FieldsRoundTrip.Statement (.movXSsp c x) := by
  refine FieldsRoundTrip_of_row (c := c) rfl rfl rfl rfl ?_
  show Instr.movXSsp ⟨CondCode.ofBits c.code.toBits, CcReg.ofBits c.reg.toBits⟩ (Reg.ofBits x.toBits) = _
  simp only [cond_bits, Reg.ofBits_toBits]

theorem FieldsRoundTrip.movXSpc (c : Cond) (x : Reg) : FieldsRoundTrip.Statement (.movXSpc c x) := by
  refine FieldsRoundTrip_of_row (c := c) rfl rfl rfl rfl ?_
  show Instr.movXSpc ⟨CondCode.ofBits c.code.toBits, CcReg.ofBits c.reg.toBits⟩ (Reg.ofBits x.toBits) = _
  simp only [cond_bits, Reg.ofBits_toBits]

theorem FieldsRoundTrip.baN (c : Cond) (n : Half) : FieldsRoundTrip.Statement (.baN c n) := by
  refine FieldsRoundTrip_of_row (c := c) rfl rfl rfl rfl ?_
  show Instr.baN ⟨CondCode.ofBits c.code.toBits, CcReg.ofBits c.reg.toBits⟩ 
    (n.extractLsb' 12 4 ++ n.extractLsb' 8 4 ++ n.extractLsb' 4 4 ++ n.extractLsb' 0 4) = _
  simp only [cond_bits, nibbles16]

theorem FieldsRoundTrip.brN (c : Cond) (n : Half) : FieldsRoundTrip.Statement (.brN c n) := by
  refine FieldsRoundTrip_of_row (c := c) rfl rfl rfl rfl ?_
  show Instr.brN ⟨CondCode.ofBits c.code.toBits, CcReg.ofBits c.reg.toBits⟩ 
    (n.extractLsb' 12 4 ++ n.extractLsb' 8 4 ++ n.extractLsb' 4 4 ++ n.extractLsb' 0 4) = _
  simp only [cond_bits, nibbles16]

theorem FieldsRoundTrip.callN (c : Cond) (n : Half) : FieldsRoundTrip.Statement (.callN c n) := by
  refine FieldsRoundTrip_of_row (c := c) rfl rfl rfl rfl ?_
  show Instr.callN ⟨CondCode.ofBits c.code.toBits, CcReg.ofBits c.reg.toBits⟩ 
    (n.extractLsb' 12 4 ++ n.extractLsb' 8 4 ++ n.extractLsb' 4 4 ++ n.extractLsb' 0 4) = _
  simp only [cond_bits, nibbles16]

theorem FieldsRoundTrip.callrN (c : Cond) (n : Half) : FieldsRoundTrip.Statement (.callrN c n) := by
  refine FieldsRoundTrip_of_row (c := c) rfl rfl rfl rfl ?_
  show Instr.callrN ⟨CondCode.ofBits c.code.toBits, CcReg.ofBits c.reg.toBits⟩ 
    (n.extractLsb' 12 4 ++ n.extractLsb' 8 4 ++ n.extractLsb' 4 4 ++ n.extractLsb' 0 4) = _
  simp only [cond_bits, nibbles16]

theorem FieldsRoundTrip.fcallN (c : Cond) (n : Half) : FieldsRoundTrip.Statement (.fcallN c n) := by
  refine FieldsRoundTrip_of_row (c := c) rfl rfl rfl rfl ?_
  show Instr.fcallN ⟨CondCode.ofBits c.code.toBits, CcReg.ofBits c.reg.toBits⟩ 
    (n.extractLsb' 12 4 ++ n.extractLsb' 8 4 ++ n.extractLsb' 4 4 ++ n.extractLsb' 0 4) = _
  simp only [cond_bits, nibbles16]

theorem FieldsRoundTrip.fcallrN (c : Cond) (n : Half) : FieldsRoundTrip.Statement (.fcallrN c n) := by
  refine FieldsRoundTrip_of_row (c := c) rfl rfl rfl rfl ?_
  show Instr.fcallrN ⟨CondCode.ofBits c.code.toBits, CcReg.ofBits c.reg.toBits⟩ 
    (n.extractLsb' 12 4 ++ n.extractLsb' 8 4 ++ n.extractLsb' 4 4 ++ n.extractLsb' 0 4) = _
  simp only [cond_bits, nibbles16]

theorem FieldsRoundTrip.intN (c : Cond) (n : Half) : FieldsRoundTrip.Statement (.intN c n) := by
  refine FieldsRoundTrip_of_row (c := c) rfl rfl rfl rfl ?_
  show Instr.intN ⟨CondCode.ofBits c.code.toBits, CcReg.ofBits c.reg.toBits⟩ 
    (n.extractLsb' 12 4 ++ n.extractLsb' 8 4 ++ n.extractLsb' 4 4 ++ n.extractLsb' 0 4) = _
  simp only [cond_bits, nibbles16]

theorem FieldsRoundTrip.lilN (c : Cond) (n : Half) : FieldsRoundTrip.Statement (.lilN c n) := by
  refine FieldsRoundTrip_of_row (c := c) rfl rfl rfl rfl ?_
  show Instr.lilN ⟨CondCode.ofBits c.code.toBits, CcReg.ofBits c.reg.toBits⟩ 
    (n.extractLsb' 12 4 ++ n.extractLsb' 8 4 ++ n.extractLsb' 4 4 ++ n.extractLsb' 0 4) = _
  simp only [cond_bits, nibbles16]

theorem FieldsRoundTrip.lihN (c : Cond) (n : Half) : FieldsRoundTrip.Statement (.lihN c n) := by
  refine FieldsRoundTrip_of_row (c := c) rfl rfl rfl rfl ?_
  show Instr.lihN ⟨CondCode.ofBits c.code.toBits, CcReg.ofBits c.reg.toBits⟩ 
    (n.extractLsb' 12 4 ++ n.extractLsb' 8 4 ++ n.extractLsb' 4 4 ++ n.extractLsb' 0 4) = _
  simp only [cond_bits, nibbles16]

theorem FieldsRoundTrip.ret (c : Cond) : FieldsRoundTrip.Statement (.ret c) := by
  refine FieldsRoundTrip_of_row (c := c) rfl rfl rfl rfl ?_
  show Instr.ret ⟨CondCode.ofBits c.code.toBits, CcReg.ofBits c.reg.toBits⟩ = _
  simp only [cond_bits]

theorem FieldsRoundTrip.fret (c : Cond) : FieldsRoundTrip.Statement (.fret c) := by
  refine FieldsRoundTrip_of_row (c := c) rfl rfl rfl rfl ?_
  show Instr.fret ⟨CondCode.ofBits c.code.toBits, CcReg.ofBits c.reg.toBits⟩ = _
  simp only [cond_bits]

theorem FieldsRoundTrip.sleep (c : Cond) : FieldsRoundTrip.Statement (.sleep c) := by
  refine FieldsRoundTrip_of_row (c := c) rfl rfl rfl rfl ?_
  show Instr.sleep ⟨CondCode.ofBits c.code.toBits, CcReg.ofBits c.reg.toBits⟩ = _
  simp only [cond_bits]

theorem FieldsRoundTrip.rfi (c : Cond) : FieldsRoundTrip.Statement (.rfi c) := by
  refine FieldsRoundTrip_of_row (c := c) rfl rfl rfl rfl ?_
  show Instr.rfi ⟨CondCode.ofBits c.code.toBits, CcReg.ofBits c.reg.toBits⟩ = _
  simp only [cond_bits]

theorem FieldsRoundTrip.brk (c : Cond) : FieldsRoundTrip.Statement (.brk c) := by
  refine FieldsRoundTrip_of_row (c := c) rfl rfl rfl rfl ?_
  show Instr.brk ⟨CondCode.ofBits c.code.toBits, CcReg.ofBits c.reg.toBits⟩ = _
  simp only [cond_bits]

/-! ### Reserved words -/

/-- An opcode byte, from its number. -/
theorem op_eq {op : BitVec 7} {n : Nat} (h : op.toNat = n) : op = BitVec.ofNat 7 n := by
  rw [← h, BitVec.ofNat_toNat, BitVec.setWidth_eq]

theorem decodeRow_none {f : Fields} (hl : layoutOf f.op = .none) : decodeRow f = f.asReserved := by
  dsimp only [decodeRow]
  split <;> rename_i heq <;>
    first
    | rfl
    | (rw [op_eq heq] at hl; exact absurd hl (by decide))

theorem decodeRow_regZ {f : Fields} (hl : layoutOf f.op = .regZ) (h : ¬ f.h = 0) :
    decodeRow f = f.asReserved := by
  dsimp only [decodeRow]
  split <;> rename_i heq <;>
    first
    | exact if_neg h
    | (rw [op_eq heq] at hl; exact absurd hl (by decide))
    | rfl

theorem decodeRow_regY {f : Fields}
    (hl : layoutOf f.op = .regY ∨ layoutOf f.op = .contextX ∨ layoutOf f.op = .contextY)
    (h : ¬ (f.h = 0 ∧ f.z = 0)) : decodeRow f = f.asReserved := by
  dsimp only [decodeRow]
  split <;> rename_i heq <;>
    first
    | exact if_neg h
    | (rw [op_eq heq] at hl; exact absurd hl (by decide))
    | rfl

theorem decodeRow_zero {f : Fields} (hl : layoutOf f.op = .zero)
    (h : ¬ (f.h = 0 ∧ f.z = 0 ∧ f.y = 0 ∧ f.x = 0)) : decodeRow f = f.asReserved := by
  dsimp only [decodeRow]
  split <;> rename_i heq <;>
    first
    | exact if_neg h
    | (rw [op_eq heq] at hl; exact absurd hl (by decide))
    | rfl

theorem decodeRow_contextX {f : Fields} (hl : layoutOf f.op = .contextX) (h13 : ¬ f.x = 13)
    (h15 : ¬ f.x = 15) : decodeRow f = f.asReserved := by
  dsimp only [decodeRow]
  split <;> rename_i heq <;>
    first
    | (rw [if_neg h13, if_neg h15]; exact ite_self _)
    | (rw [op_eq heq] at hl; exact absurd hl (by decide))
    | rfl

theorem decodeRow_contextY {f : Fields} (hl : layoutOf f.op = .contextY) (h13 : ¬ f.y = 13)
    (h15 : ¬ f.y = 15) : decodeRow f = f.asReserved := by
  dsimp only [decodeRow]
  split <;> rename_i heq <;>
    first
    | (rw [if_neg h13, if_neg h15]; exact ite_self _)
    | (rw [op_eq heq] at hl; exact absurd hl (by decide))
    | rfl

/-- A row that does not admit bits 15:0 decodes to the reserved instruction (30_encoding.md R71, R72). -/
theorem decodeRow_reserved {f : Fields} (h : (layoutOf f.op).admits f.n16 = false) :
    decodeRow f = f.asReserved := by
  have hb : ¬ f.h ++ f.z = 0#8 → ¬ (f.h = 0 ∧ f.z = 0) := fun n e => n ((byte_zero _ _).2 e)
  cases hl : layoutOf f.op <;> rw [hl] at h <;>
    simp only [Layout.admits, n16_high, n16_top, n16_x, n16_y, beq_eq_false_iff_ne, ne_eq, Bool.and_eq_false_iff,
      Bool.or_eq_false_iff, Bool.true_eq_false] at h
  · exact decodeRow_none hl
  · exact decodeRow_regZ hl h
  · exact decodeRow_regY (.inl hl) (hb h)
  · exact h.elim (fun h => decodeRow_regY (.inr (.inl hl)) (hb h)) fun h => decodeRow_contextX hl h.1 h.2
  · exact h.elim (fun h => decodeRow_regY (.inr (.inr hl)) (hb h)) fun h => decodeRow_contextY hl h.1 h.2
  · exact decodeRow_zero hl fun e => h ((half_zero _ _ _ _).2 e)

theorem FieldsRoundTrip.reserved (c : Cond) (op : BitVec 7) (vv : BitVec 2) (low : Half) :
    FieldsRoundTrip.Statement (.reserved c op vv low) := by
  intro w
  have hn : (encodeFields (.reserved c op vv low)).n16 = low := nibbles16 low
  have hr : (encodeFields (.reserved c op vv low)).asReserved = .reserved c op vv low := by
    simp only [Fields.asReserved, hn]
    simp only [encodeFields, Fields.cond, cond_bits]
  refine .inr ?_
  unfold decodeFields
  split
  · next hv =>
    rw [decodeRow_reserved, hr]
    rw [hn]
    have hc : c.wf = true := by
      obtain ⟨-, h⟩ := hv
      rcases c with ⟨code, reg⟩
      revert h
      simp only [encodeFields]
      cases code <;> cases reg <;> decide
    have hw : definedWord c op vv low = false := by simpa [Instr.wf] using w
    have hv0 : vv = 0 := hv.1
    have := hw
    simp only [definedWord, hc, hv0, beq_self_eq_true, Bool.and_self, Bool.true_and] at this
    exact this
  · exact hr

theorem FieldsRoundTrip.reservedCompact (h : Half) : FieldsRoundTrip.Statement (.reservedCompact h) :=
  fun _ => .inl ⟨h, rfl⟩

end Sys2Proof.Laws
end

