-- ==== Sys2Proof/Tests/Slice0.lean ====
section
/-!
SUPPORT. Tests: the checks of WellFormed on ill-formed terms, decoding of words written out from the
spec's encodings, one step on vectors of 95_test_vectors.md, and for every statement with hypotheses
states and operands that meet them.
-/

namespace Sys2Proof.Tests

open Sys2Proof.Machine

/-! ### WellFormed refuses what no encoding stands for -/

/-- `cccc` = 0000 with `rr` not 00 (30_encoding.md R63). -/
theorem test_wf_condition : (Instr.addXYZ ⟨.al, .cc1⟩ .r0 .r1 .r2).wf = false := by decide

/-- A defined word written as a reserved one: `add r0,r1,r2`. -/
theorem test_wf_reserved : (Instr.reserved .always 0x40 0 0x0210).wf = false := by decide

/-- A defined half written as a reserved one: `mov r0,r0` (46_compact.md R230). -/
theorem test_wf_reservedCompact : (Instr.reservedCompact 0xA000).wf = false := by decide

/-- A reserved word and a reserved half are well formed (30_encoding.md R79, 46_compact.md R235). -/
theorem test_wf_accepts : (Instr.reserved .always 0x50 0 0x0210).wf = true ∧
    (Instr.reservedCompact 0x8000).wf = true ∧ (Instr.addXYZ ⟨.res7, .cc1⟩ .r0 .r1 .r2).wf = true := by
  decide

/-! ### Decoding -/

/-- The condition `eq` of `cc2`: `cccc` = 0100, `rr` = 10. -/
def eq2 : Cond := ⟨.eq, .cc2⟩

/-- The words of the three-operand arithmetic instructions under the condition `eq` of `cc2`, from 30_encoding.md. -/
theorem test_decode_alu :
    decodeStandard 0x40240321 = .addXYZ eq2 .r1 .r2 .r3 ∧
    decodeStandard 0x41240321 = .subXYZ eq2 .r1 .r2 .r3 ∧
    decodeStandard 0x42240321 = .umulXYZ eq2 .r1 .r2 .r3 ∧
    decodeStandard 0x43240321 = .smulXYZ eq2 .r1 .r2 .r3 ∧
    decodeStandard 0x44240321 = .udivXYZ eq2 .r1 .r2 .r3 ∧
    decodeStandard 0x45240321 = .sdivXYZ eq2 .r1 .r2 .r3 ∧
    decodeStandard 0x46240321 = .rotlXYZ eq2 .r1 .r2 .r3 ∧
    decodeStandard 0x47240321 = .rotrXYZ eq2 .r1 .r2 .r3 ∧
    decodeStandard 0x48240321 = .andXYZ eq2 .r1 .r2 .r3 ∧
    decodeStandard 0x49240321 = .orXYZ eq2 .r1 .r2 .r3 ∧
    decodeStandard 0x4A240321 = .xorXYZ eq2 .r1 .r2 .r3 ∧
    decodeStandard 0x4B240321 = .sarXYZ eq2 .r1 .r2 .r3 ∧
    decodeStandard 0x4C24A521 = .rotlXYN eq2 .r1 .r2 0xA5 ∧
    decodeStandard 0x4D24A521 = .rotrXYN eq2 .r1 .r2 0xA5 ∧
    decodeStandard 0x4E240321 = .shlXYZ eq2 .r1 .r2 .r3 ∧
    decodeStandard 0x4F240321 = .shrXYZ eq2 .r1 .r2 .r3 := by
  decide

/-- The words of the store instructions under the condition `eq` of `cc2`, from 30_encoding.md. -/
theorem test_decode_store :
    decodeStandard 0x6024A521 = .stbXYN eq2 .r1 .r2 0xA5 ∧
    decodeStandard 0x6124A521 = .stbuXYN eq2 .r1 .r2 0xA5 ∧
    decodeStandard 0x62240321 = .stbiXYZ eq2 .r1 .r2 .r3 ∧
    decodeStandard 0x63240321 = .stbuiXYZ eq2 .r1 .r2 .r3 ∧
    decodeStandard 0x6424A521 = .sthXYN eq2 .r1 .r2 0xA5 ∧
    decodeStandard 0x6524A521 = .sthuXYN eq2 .r1 .r2 0xA5 ∧
    decodeStandard 0x66240321 = .sthiXYZ eq2 .r1 .r2 .r3 ∧
    decodeStandard 0x67240321 = .sthuiXYZ eq2 .r1 .r2 .r3 ∧
    decodeStandard 0x6824A521 = .stwXYN eq2 .r1 .r2 0xA5 ∧
    decodeStandard 0x6924A521 = .stwuXYN eq2 .r1 .r2 0xA5 ∧
    decodeStandard 0x6A240321 = .stwiXYZ eq2 .r1 .r2 .r3 ∧
    decodeStandard 0x6B240321 = .stwuiXYZ eq2 .r1 .r2 .r3 := by
  decide

/-- The words of the load instructions under the condition `eq` of `cc2`, from 30_encoding.md. -/
theorem test_decode_load :
    decodeStandard 0x6C24A521 = .lwXYN eq2 .r1 .r2 0xA5 ∧
    decodeStandard 0x6D24A521 = .lwuXYN eq2 .r1 .r2 0xA5 ∧
    decodeStandard 0x6E240321 = .lwiXYZ eq2 .r1 .r2 .r3 ∧
    decodeStandard 0x6F240321 = .lwuiXYZ eq2 .r1 .r2 .r3 ∧
    decodeStandard 0x7024A521 = .lzbXYN eq2 .r1 .r2 0xA5 ∧
    decodeStandard 0x7124A521 = .lzbuXYN eq2 .r1 .r2 0xA5 ∧
    decodeStandard 0x72240321 = .lzbiXYZ eq2 .r1 .r2 .r3 ∧
    decodeStandard 0x73240321 = .lzbuiXYZ eq2 .r1 .r2 .r3 ∧
    decodeStandard 0x7424A521 = .lsbXYN eq2 .r1 .r2 0xA5 ∧
    decodeStandard 0x7524A521 = .lsbuXYN eq2 .r1 .r2 0xA5 ∧
    decodeStandard 0x76240321 = .lsbiXYZ eq2 .r1 .r2 .r3 ∧
    decodeStandard 0x77240321 = .lsbuiXYZ eq2 .r1 .r2 .r3 ∧
    decodeStandard 0x7824A521 = .lzhXYN eq2 .r1 .r2 0xA5 ∧
    decodeStandard 0x7924A521 = .lzhuXYN eq2 .r1 .r2 0xA5 ∧
    decodeStandard 0x7A240321 = .lzhiXYZ eq2 .r1 .r2 .r3 ∧
    decodeStandard 0x7B240321 = .lzhuiXYZ eq2 .r1 .r2 .r3 ∧
    decodeStandard 0x7C24A521 = .lshXYN eq2 .r1 .r2 0xA5 ∧
    decodeStandard 0x7D24A521 = .lshuXYN eq2 .r1 .r2 0xA5 ∧
    decodeStandard 0x7E240321 = .lshiXYZ eq2 .r1 .r2 .r3 ∧
    decodeStandard 0x7F240321 = .lshuiXYZ eq2 .r1 .r2 .r3 := by
  decide

/-- The words of the two-operand instructions under the condition `eq` of `cc2`, from 30_encoding.md. -/
theorem test_decode_two :
    decodeStandard 0x20240021 = .movXY eq2 .r1 .r2 ∧
    decodeStandard 0x21240021 = .swpXY eq2 .r1 .r2 ∧
    decodeStandard 0x22240021 = .notXY eq2 .r1 .r2 ∧
    decodeStandard 0x23240021 = .cmpXY eq2 .r1 .r2 ∧
    decodeStandard 0x24240021 = .sxbXY eq2 .r1 .r2 ∧
    decodeStandard 0x25240021 = .sxwXY eq2 .r1 .r2 ∧
    decodeStandard 0x26240021 = .zxbXY eq2 .r1 .r2 ∧
    decodeStandard 0x27240021 = .zxwXY eq2 .r1 .r2 ∧
    decodeStandard 0x28240021 = .cpr0XY eq2 .r1 .r2 ∧
    decodeStandard 0x29240021 = .cpr1XY eq2 .r1 .r2 ∧
    decodeStandard 0x2A240021 = .cpr2XY eq2 .r1 .r2 ∧
    decodeStandard 0x2B240021 = .cpr3XY eq2 .r1 .r2 ∧
    decodeStandard 0x2C240021 = .mvhhXY eq2 .r1 .r2 ∧
    decodeStandard 0x2D240021 = .mvhlXY eq2 .r1 .r2 ∧
    decodeStandard 0x2E240021 = .mvlhXY eq2 .r1 .r2 ∧
    decodeStandard 0x2F240021 = .mvllXY eq2 .r1 .r2 ∧
    decodeStandard 0x30247C11 = .addXN eq2 .r1 0x7C1 ∧
    decodeStandard 0x31247C11 = .subXN eq2 .r1 0x7C1 ∧
    decodeStandard 0x32240021 = .pushXY eq2 .r1 .r2 ∧
    decodeStandard 0x33240021 = .popXY eq2 .r1 .r2 ∧
    decodeStandard 0x3424002D = .movSspY eq2 .r2 ∧
    decodeStandard 0x3424002F = .movSpcY eq2 .r2 ∧
    decodeStandard 0x352400D1 = .movXSsp eq2 .r1 ∧
    decodeStandard 0x352400F1 = .movXSpc eq2 .r1 := by
  decide

/-- The words of the one-operand instructions under the condition `eq` of `cc2`, from 30_encoding.md. -/
theorem test_decode_one :
    decodeStandard 0x10249234 = .baN eq2 0x9234 ∧
    decodeStandard 0x11249234 = .brN eq2 0x9234 ∧
    decodeStandard 0x14249234 = .callN eq2 0x9234 ∧
    decodeStandard 0x15249234 = .callrN eq2 0x9234 ∧
    decodeStandard 0x16249234 = .fcallN eq2 0x9234 ∧
    decodeStandard 0x17249234 = .fcallrN eq2 0x9234 ∧
    decodeStandard 0x18249234 = .intN eq2 0x9234 ∧
    decodeStandard 0x1A249234 = .lilN eq2 0x9234 ∧
    decodeStandard 0x1B249234 = .lihN eq2 0x9234 := by
  decide

/-- The words of the zero-operand instructions under the condition `eq` of `cc2`, from 30_encoding.md. -/
theorem test_decode_zero :
    decodeStandard 0x08240000 = .ret eq2 ∧
    decodeStandard 0x09240000 = .fret eq2 ∧
    decodeStandard 0x0A240000 = .sleep eq2 ∧
    decodeStandard 0x0B240000 = .rfi eq2 ∧
    decodeStandard 0x0F240000 = .brk eq2 := by
  decide

/-- Reserved standard words: a reserved opcode byte, a nonzero must-be-zero bit, `VV` not 00, a context move
that names no context register, `rr` set under `al` (30_encoding.md R71, R72). -/
theorem test_decode_reserved :
    decodeStandard 0x50000210 = .reserved .always 0x50 0 0x0210 ∧
    decodeStandard 0x40001210 = .reserved .always 0x40 0 0x1210 ∧
    decodeStandard 0x40400210 = .reserved .always 0x40 1 0x0210 ∧
    decodeStandard 0x3400002C = .reserved .always 0x34 0 0x002C ∧
    decodeStandard 0x40100210 = .reserved ⟨.al, .cc1⟩ 0x40 0 0x0210 := by
  decide

/-- Compact halves of each class (46_compact.md R232 to R235), as rows of the opcode table. -/
theorem test_decode_compact :
    decodeTableWord 16 0xC021 = some (.addXYZ .always .r1 .r1 .r2) ∧
    decodeTableWord 16 0xCC21 = some (.rotlXYN .always .r1 .r1 0x02) ∧
    decodeTableWord 16 0xE021 = some (.stbXYN .always .r1 .r2 0) ∧
    decodeTableWord 16 0xE221 = some (.stbiXYZ .always .r1 .r2 .r8) ∧
    decodeTableWord 16 0xA021 = some (.movXY .always .r1 .r2) ∧
    decodeTableWord 16 0x9121 = some (.brN .always 0x0021) ∧
    decodeTableWord 16 0x8800 = some (.reservedCompact 0x8800) := by
  decide

/-- A pair word holds Instruction 1 in its low half; with bit 15 clear that half is reserved
(46_compact.md R231). -/
theorem test_decode_pair :
    decodeWord 0xA021C021 = .pair (.addXYZ .always .r1 .r1 .r2) (.movXY .always .r1 .r2) ∧
    decodeWord 0xA0214021 = .pair (.reservedCompact 0x4021) (.movXY .always .r1 .r2) := by
  decide

/-- The decoder's answer on table words, the last through the host's question. -/
theorem test_decodeTableWord : decodeTableWord 32 0x40240321 = some (.addXYZ eq2 .r1 .r2 .r3) := by decide

/-! ### One step -/

/-- The base state of 95_test_vectors.md section 2.0 with a word at `pc`. -/
def base (w : Word) : State :=
  let s : State :=
    { State.reset with
      pc := 0x1000, sr := 0x0, r0 := 0xAAAAAAAA, r1 := 0x10, r2 := 0x3, r3 := 0x2000, r4 := 0x80000000,
      r5 := 0xFFFFFFFF, r6 := 0x7FFFFFFF, r7 := 0x89ABCDEF, r8 := 0x4, r9 := 0x1230,
      cc0 := 0x0, cc1 := 0x0, cc2 := 0x0, cc3 := 0x0, dsp := 0x4000, isp := 0x5000, ssp := 0x9000, spc := 0x600,
      mem := [(1, 1), (4, 16), (5, 1), (8, 32), (9, 1), (12, 48), (13, 1), (16, 64), (17, 1), (20, 80),
        (21, 1), (24, 96), (25, 1), (28, 112), (29, 1), (32, 128), (33, 1), (36, 144), (37, 1),
        (40, 160), (41, 1), (44, 176), (45, 1), (48, 192), (49, 1), (52, 208), (53, 1), (56, 224),
        (57, 1), (60, 240), (61, 1), (133, 33), (8192, 17), (8193, 34), (8194, 131), (8195, 244),
        (8196, 85), (8197, 102), (8198, 119), (8199, 136)] }
  s.placeWord w

/-- The step answers a next state of which `p` holds. -/
def runs (s : State) (p : State → Bool) : Bool :=
  match step s with
  | .next t => p t
  | _ => false

/-- `ret`. -/
theorem test_ret :
    runs (({ base 0x08000000 with isp := 0x4ff8 }.store .word 0x4FF8 0x00003F00).store .word 0x4FFC 0x00001800)
      (fun t => t.dsp == 0x3F00 && t.isp == 0x5000 && t.pc == 0x1800) = true := by
  decide

/-- `ret with W[0] = 1`. -/
theorem test_ret_second :
    runs (base 0x08000001)
      (fun t => t.isp == 0x4FF8 && t.sr == 0x800 && t.pc == 0x120 &&
        valueAt .little t.mem 0x4FFC .word == 0x00001004 &&
        valueAt .little t.mem 0x4FF8 .word == 0x00000000) = true := by
  decide

/-- `fret`. -/
theorem test_fret :
    runs (base 0x09000000)
      (fun t => t.dsp == 0x4 && t.pc == 0x1230) = true := by
  decide

/-- `fret`. -/
theorem test_fret_second :
    runs { base 0x09000000 with r9 := 0x1231 }
      (fun t => t.isp == 0x4FF8 && t.sr == 0x800 && t.pc == 0x170 &&
        valueAt .little t.mem 0x4FFC .word == 0x00001004 &&
        valueAt .little t.mem 0x4FF8 .word == 0x00000000) = true := by
  decide

/-- `sleep`. -/
theorem test_sleep :
    runs (base 0x0A000000)
      (fun t => t.sr == 0x1000 && t.pc == 0x1004) = true := by
  decide

/-- `sleep`. -/
theorem test_sleep_second :
    runs { base 0x0A000000 with sr := 0x200 }
      (fun t => t.isp == 0x8FF8 && t.sr == 0x800 && t.ssp == 0x5000 && t.spc == 0x1004 && t.pc == 0x130 &&
        valueAt .little t.mem 0x8FFC .word == 0x00000600 &&
        valueAt .little t.mem 0x8FF8 .word == 0x00000000) = true := by
  decide

/-- `rfi`. -/
theorem test_rfi :
    runs (({ base 0x0B000000 with sr := 0x900, isp := 0x4FF8 }.store .word 0x4FF8 0xC3).store .word 0x4FFC 0x1800)
      (fun t => t.isp == 0x5000 && t.sr == 0xC3 && t.pc == 0x1800) = true := by
  decide

/-- `rfi`. -/
theorem test_rfi_second :
    runs (({ base 0x0B000000 with sr := 0x100, isp := 0x4FF8 }.store .word 0x4FF8 0xFFFF0200).store .word 0x4FFC
        0x3008)
      (fun t => t.isp == 0x9000 && t.sr == 0x200 && t.ssp == 0x5000 && t.spc == 0x3008 &&
        t.pc == 0x600) = true := by
  decide

/-- `brk`. -/
theorem test_brk :
    runs (base 0x0F000000)
      (fun t => t.pc == 0x1004) = true := by
  decide

/-- `brk`. -/
theorem test_brk_second :
    runs { base 0x0F000000 with sr := 0x200 }
      (fun t => t.isp == 0x8FF8 && t.sr == 0x800 && t.ssp == 0x5000 && t.spc == 0x1004 && t.pc == 0x110 &&
        valueAt .little t.mem 0x8FFC .word == 0x00000600 &&
        valueAt .little t.mem 0x8FF8 .word == 0x00000000) = true := by
  decide

/-- `ba $0x0800`. -/
theorem test_baN :
    runs (base 0x10000800)
      (fun t => t.pc == 0x2000) = true := by
  decide

/-- `br $3`. -/
theorem test_brN :
    runs (base 0x11000003)
      (fun t => t.pc == 0x1010) = true := by
  decide

/-- `call $0x0800`. -/
theorem test_callN :
    runs (base 0x14000800)
      (fun t => t.isp == 0x4FF8 && t.pc == 0x2000 && valueAt .little t.mem 0x4FFC .word == 0x00001004 &&
        valueAt .little t.mem 0x4FF8 .word == 0x00004000) = true := by
  decide

/-- `callr $4`. -/
theorem test_callrN :
    runs (base 0x15000004)
      (fun t => t.isp == 0x4FF8 && t.pc == 0x1014 && valueAt .little t.mem 0x4FFC .word == 0x00001004 &&
        valueAt .little t.mem 0x4FF8 .word == 0x00004000) = true := by
  decide

/-- `fcall $0x0800`. -/
theorem test_fcallN :
    runs (base 0x16000800)
      (fun t => t.r8 == 0x4000 && t.r9 == 0x1004 && t.pc == 0x2000) = true := by
  decide

/-- `fcallr $-4`. -/
theorem test_fcallrN :
    runs (base 0x1700FFFC)
      (fun t => t.r8 == 0x4000 && t.r9 == 0x1004 && t.pc == 0xFF4) = true := by
  decide

/-- `int $0x0121`. -/
theorem test_intN :
    runs (base 0x18000121)
      (fun t => t.isp == 0x4FF8 && t.sr == 0x100 && t.pc == 0x2100 &&
        valueAt .little t.mem 0x4FFC .word == 0x00001004 &&
        valueAt .little t.mem 0x4FF8 .word == 0x00000000) = true := by
  decide

/-- `int $0x0121`. -/
theorem test_intN_second :
    runs { base 0x18000121 with sr := 0x100 }
      (fun t => t.isp == 0x4FF8 && t.sr == 0x900 && t.pc == 0x150 &&
        valueAt .little t.mem 0x4FFC .word == 0x00001004 &&
        valueAt .little t.mem 0x4FF8 .word == 0x00000100) = true := by
  decide

/-- `lil $0xBEEF`. -/
theorem test_lilN :
    runs { base 0x1A00BEEF with cc1 := 0x1111 }
      (fun t => t.cc0 == 0xBEEF && t.pc == 0x1004) = true := by
  decide

/-- `lih $0xDEAD`. -/
theorem test_lihN :
    runs { base 0x1B00DEAD with cc0 := 0x2222 }
      (fun t => t.cc1 == 0xDEAD && t.pc == 0x1004) = true := by
  decide

/-- `mov r0,r7`. -/
theorem test_movXY :
    runs (base 0x20000070)
      (fun t => t.r0 == 0x89ABCDEF && t.pc == 0x1004) = true := by
  decide

/-- `swp r1,r2`. -/
theorem test_swpXY :
    runs (base 0x21000021)
      (fun t => t.r1 == 0x3 && t.r2 == 0x10 && t.pc == 0x1004) = true := by
  decide

/-- `swp r1,pc`. -/
theorem test_swpXY_second :
    runs (base 0x210000F1)
      (fun t => t.r1 == 0x1004 && t.pc == 0x10) = true := by
  decide

/-- `not r0,r7`. -/
theorem test_notXY :
    runs (base 0x22000070)
      (fun t => t.r0 == 0x76543210 && t.pc == 0x1004) = true := by
  decide

/-- `cmp r1,r2`. -/
theorem test_cmpXY :
    runs (base 0x23000021)
      (fun t => t.sr == 0x2 && t.pc == 0x1004) = true := by
  decide

/-- `sxb r0,r7`. -/
theorem test_sxbXY :
    runs (base 0x24000070)
      (fun t => t.r0 == 0xFFFFFFEF && t.pc == 0x1004) = true := by
  decide

/-- `sxw r0,r7`. -/
theorem test_sxwXY :
    runs (base 0x25000070)
      (fun t => t.r0 == 0xFFFFCDEF && t.pc == 0x1004) = true := by
  decide

/-- `zxb r0,r7`. -/
theorem test_zxbXY :
    runs (base 0x26000070)
      (fun t => t.r0 == 0xEF && t.pc == 0x1004) = true := by
  decide

/-- `zxw r0,r7`. -/
theorem test_zxwXY :
    runs (base 0x27000070)
      (fun t => t.r0 == 0xCDEF && t.pc == 0x1004) = true := by
  decide

/-- `cpr0 r1,r2`. -/
theorem test_cpr0XY :
    runs { base 0x28000021 with cc0 := 0xffff }
      (fun t => t.cc0 == 0x2 && t.pc == 0x1004) = true := by
  decide

/-- `cpr1 r2,r1`. -/
theorem test_cpr1XY :
    runs (base 0x29000012)
      (fun t => t.cc1 == 0x80 && t.pc == 0x1004) = true := by
  decide

/-- `cpr2 r1,r1`. -/
theorem test_cpr2XY :
    runs (base 0x2A000011)
      (fun t => t.cc2 == 0x3 && t.pc == 0x1004) = true := by
  decide

/-- `cpr3 r4,r1`. -/
theorem test_cpr3XY :
    runs (base 0x2B000014)
      (fun t => t.cc3 == 0x42 && t.pc == 0x1004) = true := by
  decide

/-- `mvhh r1,r7`. -/
theorem test_mvhhXY :
    runs (base 0x2C000071)
      (fun t => t.r1 == 0x89AB0010 && t.pc == 0x1004) = true := by
  decide

/-- `mvhl r1,r7`. -/
theorem test_mvhlXY :
    runs (base 0x2D000071)
      (fun t => t.r1 == 0x89AB && t.pc == 0x1004) = true := by
  decide

/-- `mvlh r1,r7`. -/
theorem test_mvlhXY :
    runs (base 0x2E000071)
      (fun t => t.r1 == 0xCDEF0010 && t.pc == 0x1004) = true := by
  decide

/-- `mvll r1,r7`. -/
theorem test_mvllXY :
    runs (base 0x2F000071)
      (fun t => t.r1 == 0xCDEF && t.pc == 0x1004) = true := by
  decide

/-- `add r1,$0x7FF`. -/
theorem test_addXN :
    runs (base 0x30007FF1)
      (fun t => t.r1 == 0x80F && t.pc == 0x1004) = true := by
  decide

/-- `sub r1,$0x11`. -/
theorem test_subXN :
    runs (base 0x31000111)
      (fun t => t.r1 == 0xFFFFFFFF && t.pc == 0x1004) = true := by
  decide

/-- `push dsp,r7`. -/
theorem test_pushXY :
    runs (base 0x3200007C)
      (fun t => t.dsp == 0x3FFC && t.pc == 0x1004 &&
        valueAt .little t.mem 0x3FFC .word == 0x89ABCDEF) = true := by
  decide

/-- `push r3,r3`. -/
theorem test_pushXY_second :
    runs (base 0x32000033)
      (fun t => t.r3 == 0x1FFC && t.pc == 0x1004 &&
        valueAt .little t.mem 0x1FFC .word == 0x00001FFC) = true := by
  decide

/-- `pop r0,dsp`. -/
theorem test_popXY :
    runs { base 0x330000C0 with dsp := 0x2000 }
      (fun t => t.r0 == 0xF4832211 && t.dsp == 0x2004 && t.pc == 0x1004) = true := by
  decide

/-- `pop pc,r3`. -/
theorem test_popXY_second :
    runs { base 0x3300003F with r3 := 0x2004 }
      (fun t => t.isp == 0x4FF8 && t.sr == 0x800 && t.pc == 0x170 &&
        valueAt .little t.mem 0x4FFC .word == 0x00001004 &&
        valueAt .little t.mem 0x4FF8 .word == 0x00000000) = true := by
  decide

/-- `mov spc,r3`. -/
theorem test_movSpcY :
    runs (base 0x3400003F)
      (fun t => t.spc == 0x2000 && t.pc == 0x1004) = true := by
  decide

/-- `mov r0,spc`. -/
theorem test_movXSpc :
    runs (base 0x350000F0)
      (fun t => t.r0 == 0x600 && t.pc == 0x1004) = true := by
  decide

/-- `add r0,r1,r2`. -/
theorem test_addXYZ :
    runs (base 0x40000210)
      (fun t => t.r0 == 0x13 && t.pc == 0x1004) = true := by
  decide

/-- `add pc,pc,r2`. -/
theorem test_addXYZ_second :
    runs (base 0x400002FF)
      (fun t => t.isp == 0x4FF8 && t.sr == 0x800 && t.pc == 0x170 &&
        valueAt .little t.mem 0x4FFC .word == 0x00001004 &&
        valueAt .little t.mem 0x4FF8 .word == 0x00000000) = true := by
  decide

/-- `sub r0,r1,r2`. -/
theorem test_subXYZ :
    runs (base 0x41000210)
      (fun t => t.r0 == 0xD && t.pc == 0x1004) = true := by
  decide

/-- `umul r0,r5,r5`. -/
theorem test_umulXYZ :
    runs (base 0x42000550)
      (fun t => t.r0 == 0x1 && t.cc0 == 0xFFFE && t.cc1 == 0xFFFF && t.pc == 0x1004) = true := by
  decide

/-- `smul r0,r5,r2`. -/
theorem test_smulXYZ :
    runs (base 0x43000250)
      (fun t => t.r0 == 0xFFFFFFFD && t.cc0 == 0xFFFF && t.cc1 == 0xFFFF && t.pc == 0x1004) = true := by
  decide

/-- `udiv r0,r7,r1`. -/
theorem test_udivXYZ :
    runs (base 0x44000170)
      (fun t => t.r0 == 0x89ABCDE && t.cc0 == 0xF && t.pc == 0x1004) = true := by
  decide

/-- `udiv r0,r1,r0`. -/
theorem test_udivXYZ_second :
    runs { base 0x44000010 with r0 := 0x0 }
      (fun t => t.isp == 0x4FF8 && t.sr == 0x800 && t.pc == 0x140 &&
        valueAt .little t.mem 0x4FFC .word == 0x00001004 &&
        valueAt .little t.mem 0x4FF8 .word == 0x00000000) = true := by
  decide

/-- `sdiv r0,r5,r2`. -/
theorem test_sdivXYZ :
    runs (base 0x45000250)
      (fun t => t.r0 == 0x0 && t.cc0 == 0xFFFF && t.cc1 == 0xFFFF && t.pc == 0x1004) = true := by
  decide

/-- `sdiv r0,r1,r0`. -/
theorem test_sdivXYZ_second :
    runs { base 0x45000010 with r0 := 0x0 }
      (fun t => t.isp == 0x4FF8 && t.sr == 0x800 && t.pc == 0x140 &&
        valueAt .little t.mem 0x4FFC .word == 0x00001004 &&
        valueAt .little t.mem 0x4FF8 .word == 0x00000000) = true := by
  decide

/-- `rotl r0,r7,r8`. -/
theorem test_rotlXYZ :
    runs (base 0x46000870)
      (fun t => t.r0 == 0x9ABCDEF8 && t.pc == 0x1004) = true := by
  decide

/-- `rotr r0,r7,r8`. -/
theorem test_rotrXYZ :
    runs (base 0x47000870)
      (fun t => t.r0 == 0xF89ABCDE && t.pc == 0x1004) = true := by
  decide

/-- `and r0,r7,r6`. -/
theorem test_andXYZ :
    runs (base 0x48000670)
      (fun t => t.r0 == 0x9ABCDEF && t.pc == 0x1004) = true := by
  decide

/-- `or r0,r7,r1`. -/
theorem test_orXYZ :
    runs (base 0x49000170)
      (fun t => t.r0 == 0x89ABCDFF && t.pc == 0x1004) = true := by
  decide

/-- `xor r0,r7,r5`. -/
theorem test_xorXYZ :
    runs (base 0x4A000570)
      (fun t => t.r0 == 0x76543210 && t.pc == 0x1004) = true := by
  decide

/-- `sar r0,r4,r8`. -/
theorem test_sarXYZ :
    runs (base 0x4B000840)
      (fun t => t.r0 == 0xF8000000 && t.pc == 0x1004) = true := by
  decide

/-- `rotl r0,r7,$8`. -/
theorem test_rotlXYN :
    runs (base 0x4C000870)
      (fun t => t.r0 == 0xABCDEF89 && t.pc == 0x1004) = true := by
  decide

/-- `rotr r0,r7,$8`. -/
theorem test_rotrXYN :
    runs (base 0x4D000870)
      (fun t => t.r0 == 0xEF89ABCD && t.pc == 0x1004) = true := by
  decide

/-- `shl r0,r7,r8`. -/
theorem test_shlXYZ :
    runs (base 0x4E000870)
      (fun t => t.r0 == 0x9ABCDEF0 && t.pc == 0x1004) = true := by
  decide

/-- `shr r0,r7,r8`. -/
theorem test_shrXYZ :
    runs (base 0x4F000870)
      (fun t => t.r0 == 0x89ABCDE && t.pc == 0x1004) = true := by
  decide

/-- `stb r3,r7,$1`. -/
theorem test_stbXYN :
    runs (base 0x60000173)
      (fun t => t.pc == 0x1004 && valueAt .little t.mem 0x2001 .byte == 0xEF) = true := by
  decide

/-- `stbu r3,r7,$0`. -/
theorem test_stbuXYN :
    runs (base 0x61000073)
      (fun t => t.r3 == 0x2001 && t.pc == 0x1004 && valueAt .little t.mem 0x2000 .byte == 0xEF) = true := by
  decide

/-- `stbi r3,r7,r2`. -/
theorem test_stbiXYZ :
    runs (base 0x62000273)
      (fun t => t.pc == 0x1004 && valueAt .little t.mem 0x2003 .byte == 0xEF) = true := by
  decide

/-- `stbui r3,r7,r2`. -/
theorem test_stbuiXYZ :
    runs (base 0x63000273)
      (fun t => t.r3 == 0x2001 && t.pc == 0x1004 && valueAt .little t.mem 0x2003 .byte == 0xEF) = true := by
  decide

/-- `sth r3,r7,$2`. -/
theorem test_sthXYN :
    runs (base 0x64000273)
      (fun t => t.pc == 0x1004 && valueAt .little t.mem 0x2002 .half == 0xCDEF) = true := by
  decide

/-- `sthu r3,r7,$0`. -/
theorem test_sthuXYN :
    runs (base 0x65000073)
      (fun t => t.r3 == 0x2002 && t.pc == 0x1004 && valueAt .little t.mem 0x2000 .half == 0xCDEF) = true := by
  decide

/-- `sthi r3,r7,r8`. -/
theorem test_sthiXYZ :
    runs (base 0x66000873)
      (fun t => t.pc == 0x1004 && valueAt .little t.mem 0x2004 .half == 0xCDEF) = true := by
  decide

/-- `sthui r3,r7,r8`. -/
theorem test_sthuiXYZ :
    runs (base 0x67000873)
      (fun t => t.r3 == 0x2002 && t.pc == 0x1004 && valueAt .little t.mem 0x2004 .half == 0xCDEF) = true := by
  decide

/-- `stw r3,r7,$4`. -/
theorem test_stwXYN :
    runs (base 0x68000473)
      (fun t => t.pc == 0x1004 && valueAt .little t.mem 0x2004 .word == 0x89ABCDEF) = true := by
  decide

/-- `stw r3,r7,$1`. -/
theorem test_stwXYN_second :
    runs (base 0x68000173)
      (fun t => t.isp == 0x4FF8 && t.sr == 0x800 && t.pc == 0x180 &&
        valueAt .little t.mem 0x4FFC .word == 0x00001004 &&
        valueAt .little t.mem 0x4FF8 .word == 0x00000000) = true := by
  decide

/-- `stwu r3,r7,$0`. -/
theorem test_stwuXYN :
    runs (base 0x69000073)
      (fun t => t.r3 == 0x2004 && t.pc == 0x1004 &&
        valueAt .little t.mem 0x2000 .word == 0x89ABCDEF) = true := by
  decide

/-- `stwi r3,r7,r8`. -/
theorem test_stwiXYZ :
    runs (base 0x6A000873)
      (fun t => t.pc == 0x1004 && valueAt .little t.mem 0x2004 .word == 0x89ABCDEF) = true := by
  decide

/-- `stwui r3,r7,r8`. -/
theorem test_stwuiXYZ :
    runs (base 0x6B000873)
      (fun t => t.r3 == 0x2004 && t.pc == 0x1004 &&
        valueAt .little t.mem 0x2004 .word == 0x89ABCDEF) = true := by
  decide

/-- `lw r0,r3,$0`. -/
theorem test_lwXYN :
    runs (base 0x6C000030)
      (fun t => t.r0 == 0xF4832211 && t.pc == 0x1004) = true := by
  decide

/-- `lwu r0,r3,$0`. -/
theorem test_lwuXYN :
    runs (base 0x6D000030)
      (fun t => t.r0 == 0xF4832211 && t.r3 == 0x2004 && t.pc == 0x1004) = true := by
  decide

/-- `lwi r0,r3,r8`. -/
theorem test_lwiXYZ :
    runs (base 0x6E000830)
      (fun t => t.r0 == 0x88776655 && t.pc == 0x1004) = true := by
  decide

/-- `lwui r0,r3,r8`. -/
theorem test_lwuiXYZ :
    runs (base 0x6F000830)
      (fun t => t.r0 == 0x88776655 && t.r3 == 0x2004 && t.pc == 0x1004) = true := by
  decide

/-- `lzb r0,r3,$2`. -/
theorem test_lzbXYN :
    runs (base 0x70000230)
      (fun t => t.r0 == 0x83 && t.pc == 0x1004) = true := by
  decide

/-- `lzbu r0,r3,$3`. -/
theorem test_lzbuXYN :
    runs (base 0x71000330)
      (fun t => t.r0 == 0xF4 && t.r3 == 0x2001 && t.pc == 0x1004) = true := by
  decide

/-- `lzbi r0,r3,r2`. -/
theorem test_lzbiXYZ :
    runs (base 0x72000230)
      (fun t => t.r0 == 0xF4 && t.pc == 0x1004) = true := by
  decide

/-- `lsb r0,r3,$2`. -/
theorem test_lsbXYN :
    runs (base 0x74000230)
      (fun t => t.r0 == 0xFFFFFF83 && t.pc == 0x1004) = true := by
  decide

/-- `lsbui r0,r3,r2`. -/
theorem test_lsbuiXYZ :
    runs (base 0x77000230)
      (fun t => t.r0 == 0xFFFFFFF4 && t.r3 == 0x2001 && t.pc == 0x1004) = true := by
  decide

/-- `lzh r0,r3,$2`. -/
theorem test_lzhXYN :
    runs (base 0x78000230)
      (fun t => t.r0 == 0xF483 && t.pc == 0x1004) = true := by
  decide

/-- `lzh r0,r3,$1`. -/
theorem test_lzhXYN_second :
    runs (base 0x78000130)
      (fun t => t.isp == 0x4FF8 && t.sr == 0x800 && t.pc == 0x180 &&
        valueAt .little t.mem 0x4FFC .word == 0x00001004 &&
        valueAt .little t.mem 0x4FF8 .word == 0x00000000) = true := by
  decide

/-- `lzhu r0,r3,$6`. -/
theorem test_lzhuXYN :
    runs (base 0x79000630)
      (fun t => t.r0 == 0x8877 && t.r3 == 0x2002 && t.pc == 0x1004) = true := by
  decide

/-- `lsh r0,r3,$2`. -/
theorem test_lshXYN :
    runs (base 0x7C000230)
      (fun t => t.r0 == 0xFFFFF483 && t.pc == 0x1004) = true := by
  decide

/-- `lshi r0,r3,r8`. -/
theorem test_lshiXYZ :
    runs (base 0x7E000830)
      (fun t => t.r0 == 0x6655 && t.pc == 0x1004) = true := by
  decide

/-- `lshui r0,r3,r8`. -/
theorem test_lshuiXYZ :
    runs (base 0x7F000830)
      (fun t => t.r0 == 0x6655 && t.r3 == 0x2002 && t.pc == 0x1004) = true := by
  decide

/-! Loads that 95_test_vectors.md has no vector for, from the bytes of its base state. -/

/-- `lzbui r0,r3,r2`: the byte at 0x2003. -/
theorem test_lzbuiXYZ :
    runs (base 0x73000230) (fun t => t.r0 == 0xF4 && t.r3 == 0x2001 && t.pc == 0x1004) = true := by
  decide

/-- `lsbu r0,r3,$2`: the byte at 0x2002. -/
theorem test_lsbuXYN :
    runs (base 0x75000230) (fun t => t.r0 == 0xFFFFFF83 && t.r3 == 0x2001 && t.pc == 0x1004) = true := by
  decide

/-- `lsbi r0,r3,r2`: the byte at 0x2003. -/
theorem test_lsbiXYZ :
    runs (base 0x76000230) (fun t => t.r0 == 0xFFFFFFF4 && t.r3 == 0x2000 && t.pc == 0x1004) = true := by
  decide

/-- `lzhi r0,r3,r2` with `r2` = 2: the half at 0x2002. -/
theorem test_lzhiXYZ :
    runs { base 0x7A000230 with r2 := 2 } (fun t => t.r0 == 0xF483 && t.r3 == 0x2000) = true := by
  decide

/-- `lzhui r0,r3,r8`: the half at 0x2004. -/
theorem test_lzhuiXYZ :
    runs (base 0x7B000830) (fun t => t.r0 == 0x6655 && t.r3 == 0x2002) = true := by
  decide

/-- `lshu r0,r3,$2`: the half at 0x2002. -/
theorem test_lshuXYN :
    runs (base 0x7D000230) (fun t => t.r0 == 0xFFFFF483 && t.r3 == 0x2002) = true := by
  decide

/-! Reserved words, pairs, the events of a step boundary and other parameter values. -/

/-- `(reserved 0x50)`: trap 2 (95_test_vectors.md section 2.1). -/
theorem test_reserved :
    runs (base 0x50000210)
      (fun t => t.isp == 0x4FF8 && t.sr == 0x0800 && t.pc == 0x120 && t.wordAt 0x4FFC == 0x1004) = true := by
  decide

/-- A pair with a reserved Instruction 1: trap 2, and Instruction 2 (`mov r1,r2`) is not reached
(46_compact.md R231, R235). -/
theorem test_reservedCompact :
    runs (base 0xA0218800) (fun t => t.pc == 0x120 && t.r1 == 0x10 && t.wordAt 0x4FFC == 0x1004) = true := by
  decide

/-- Instruction 2 of a pair sees the result of Instruction 1: `add r1,r1,r2`, then `mov r0,r1`
(46_compact.md R231). -/
theorem test_pair :
    runs (base 0xA010C021) (fun t => t.r1 == 0x13 && t.r0 == 0x13 && t.pc == 0x1004) = true := by
  decide

/-- The NMI beats a hardware interrupt and enters at `NMI_INDEX` = 0 (60_exceptions.md R248, R268). -/
theorem test_nmi :
    runs { base 0x40000210 with env := [⟨true, some 3, true⟩] }
      (fun t => t.pc == 0x100 && t.sr == 0x0100 && t.wordAt 0x4FFC == 0x1000 && t.env == []) = true := by
  decide

/-- A hardware interrupt waits while `I` = 1 and wakes a halted machine when `I` = 0
(60_exceptions.md R246, R270). -/
theorem test_interrupt :
    runs { base 0x40000210 with sr := 0x0100, env := [⟨false, some 3, true⟩] } (fun t => t.pc == 0x1004) = true ∧
    runs { base 0x40000210 with sr := 0x1000, env := [⟨false, some 3, true⟩] }
      (fun t => t.pc == 0x130 && t.sr == 0x0100 && t.wordAt 0x4FF8 == 0) = true := by
  decide

/-- A halted machine does nothing (60_exceptions.md R270). -/
theorem test_halted :
    runs { base 0x40000210 with sr := 0x1900 } (fun t => t.pc == 0x1000 && t.sr == 0x1900) = true := by
  decide

/-- The reset line (70_reset_and_hazards.md R290 to R292). -/
theorem test_reset :
    runs { base 0x40000210 with env := [⟨true, some 3, false⟩] } (fun t => t.inReset && t.pc == 0x1000) = true ∧
    runs { base 0x40000210 with inReset := true }
      (fun t => t.pc == 0x100 && t.sr == 0x0900 && t.r1 == 0 && t.isp == 0 && !t.inReset) = true := by
  decide

/-- `lw r1,r3,$0` under the big-endian byte order, the word at `pc` laid out in it (20_memory.md R42). -/
theorem test_bigEndian :
    runs (({ base 0 with cfg := { Config.standard with byteOrder := .big } } : State).placeWord 0x6C000031)
      (fun t => t.r1 == 0x112283F4) = true := by
  decide

/-- `shl r0,r1,$2` with `SHIFT_BY_REGISTER` false (90_conflicts.md C3). -/
theorem test_shiftByField :
    runs { base 0x4E000210 with cfg := { Config.standard with shiftByRegister := false } }
      (fun t => t.r0 == 0x40) = true := by
  decide

/-- `mov r0,r7` under the condition `lt` with only `V` set: taken when `SIGNED_COND_USES_V` is true, not
taken when it is false (40_conditional_execution.md R91). -/
theorem test_signedCondition :
    runs { base 0x20050070 with cc0 := 0x40, cfg := { Config.standard with signedCondUsesV := true } }
      (fun t => t.r0 == 0x89ABCDEF) = true ∧
    runs { base 0x20050070 with cc0 := 0x40 } (fun t => t.r0 == 0xAAAAAAAA && t.pc == 0x1004) = true := by
  decide

/-- The first instruction after reset, a standard word and a compact half. -/
theorem test_firstAfterReset :
    runs (State.reset.withFetchWord 32 0x1A00BEEF) (fun t => t.cc0 == 0xBEEF && t.pc == 4) = true ∧
    runs (State.reset.withFetchWord 16 0xAF21) (fun t => t.pc == 4) = true := by
  decide

/-! ### States and operands that meet the hypotheses of the statements -/

/-- A system mode state inside an instruction, interrupts and traps enabled. -/
def sys : State := { State.reset with sr := 0, pc := 0x1004, isp := 0x5000, r1 := 0x80000000, r5 := 0xFFFFFFFF }

/-- A protected mode state inside an instruction, with `S` set. -/
def prot : State := { sys with sr := 0x0600, ssp := 0x9000, spc := 0x600 }

/-- Parameters under which no word access succeeds. -/
def closed : Config :=
  { Config.standard with
    noAccess := [⟨0, 0xFFFFFFFF, .word, .fetch⟩, ⟨0, 0xFFFFFFFF, .word, .read⟩, ⟨0, 0xFFFFFFFF, .word, .write⟩] }

/-- A condition that is legal and false in `sys`. -/
def never : Cond := ⟨.nv, .cc3⟩

theorem sys_runs : sys.Runs .always := ⟨rfl, rfl⟩

theorem prot_runs : prot.Runs .always := ⟨rfl, rfl⟩

theorem sys_inv : sys.Inv := ⟨rfl, rfl, rfl, rfl⟩

/-- In system mode no switch is needed before an entry. -/
theorem sys_switchable : EntrySwitchable sys := fun h => absurd h (by decide)

theorem prot_switchable : EntrySwitchable prot := fun _ => rfl

theorem sys_pushable : EntryPushable sys := ⟨rfl, rfl, rfl⟩

theorem prot_pushable : EntryPushable prot := ⟨rfl, rfl, rfl⟩

theorem sys_trapReady (t : Trap) : EntryReady t.index 0 sys := by
  cases t <;> exact ⟨sys_switchable, sys_pushable, rfl, rfl⟩

theorem prot_trapReady (t : Trap) : EntryReady t.index 0 prot := by
  cases t <;> exact ⟨prot_switchable, prot_pushable, rfl, rfl⟩

theorem sys_interruptReady : EntryReady 0xFF 0x1000 sys := ⟨sys_switchable, sys_pushable, rfl, rfl⟩

theorem prot_interruptReady : EntryReady 0 0x1000 prot := ⟨prot_switchable, prot_pushable, rfl, rfl⟩

theorem witness_DecodeEncodeWellFormed :
    (Instr.addXYZ eq2 .r1 .r2 .r3).wf = true ∧ (Instr.reserved .always 0x7F 3 0xFFFF).wf = true ∧
    (Instr.reservedCompact 0x7FFF).wf = true := by decide

theorem witness_EncodeDecodeStandardWord : (0x7FFFFFFF : Word).getLsbD 31 = false := by decide

theorem witness_StepRunsStandardWord :
    (base 0x40000210).NoEvent ∧ (base 0x40000210).flagF = false ∧ (base 0x40000210).pcAligned ∧
    accessOk (base 0x40000210).cfg .fetch .word (base 0x40000210).pc = true ∧
    (base 0x40000210).wordAt (base 0x40000210).pc = 0x40000210 ∧
    decodeWord 0x40000210 = .single (.addXYZ .always .r0 .r1 .r2) :=
  ⟨⟨rfl, rfl, rfl, .inl rfl⟩, rfl, rfl, rfl, by decide, by decide⟩

/-- Both clauses: an Instruction 1 that completes, and one that traps. -/
theorem witness_StepRunsPair :
    (base 0xA010C021).NoEvent ∧ (base 0xA010C021).flagF = false ∧ (base 0xA010C021).pcAligned ∧
    accessOk (base 0xA010C021).cfg .fetch .word (base 0xA010C021).pc = true ∧
    (base 0xA010C021).wordAt (base 0xA010C021).pc = 0xA010C021 ∧
    decodeWord 0xA010C021 = .pair (.addXYZ .always .r1 .r1 .r2) (.movXY .always .r0 .r1) ∧
    (∃ s1, exec (.addXYZ .always .r1 .r1 .r2) (base 0xA010C021).beginStep.advance = .next s1 ∧
      s1.entered = false) ∧
    (base 0xA0108800).NoEvent ∧ (base 0xA0108800).wordAt (base 0xA0108800).pc = 0xA0108800 ∧
    decodeWord 0xA0108800 = .pair (.reservedCompact 0x8800) (.movXY .always .r0 .r1) ∧
    (∃ s1, exec (.reservedCompact 0x8800) (base 0xA0108800).beginStep.advance = .next s1 ∧
      s1.entered = true) :=
  ⟨⟨rfl, rfl, rfl, .inl rfl⟩, rfl, rfl, rfl, by decide, by decide, ⟨_, rfl, rfl⟩,
    ⟨rfl, rfl, rfl, .inl rfl⟩, by decide, by decide, ⟨_, rfl, rfl⟩⟩

theorem witness_FailedFetchTraps :
    let s := { base 0x40000210 with cfg := closed }
    s.NoEvent ∧ s.flagF = false ∧ s.pcAligned ∧ accessOk s.cfg .fetch .word s.pc = false :=
  ⟨⟨rfl, rfl, rfl, .inl rfl⟩, rfl, rfl, by decide⟩

/-- The three clauses. -/
theorem witness_EventsAtStepBoundary :
    (let s := { sys with env := [⟨true, some 3, true⟩] };
      s.inputs.resetN = true ∧ s.inReset = false ∧ s.inputs.nmi = true) ∧
    (let s := { sys with env := [⟨false, some 3, true⟩] };
      s.inputs.resetN = true ∧ s.inReset = false ∧ s.inputs.nmi = false ∧ s.inputs.irq = some 3 ∧
        s.flagI = false) ∧
    (let s := { sys with sr := 0x1100, env := [⟨false, some 3, true⟩] };
      s.inputs.resetN = true ∧ s.inReset = false ∧ s.inputs.nmi = false ∧
        (s.inputs.irq = none ∨ s.flagI = true) ∧ s.flagF = true) :=
  ⟨⟨rfl, rfl, rfl⟩, ⟨rfl, rfl, rfl, rfl, rfl⟩, ⟨rfl, rfl, rfl, .inr rfl, rfl⟩⟩

/-- The line low; the vector readable and aligned, not readable, misaligned. -/
theorem witness_ResetLine :
    ({ sys with env := [⟨false, none, false⟩] } : State).inputs.resetN = false ∧
    (let s := { sys with inReset := true };
      s.inputs.resetN = true ∧ s.inReset = true ∧ accessOk s.cfg .read .word 0 = true ∧
        misaligned4 (s.wordAt 0) = false) ∧
    (let s := { sys with inReset := true, cfg := closed };
      s.inputs.resetN = true ∧ s.inReset = true ∧ accessOk s.cfg .read .word 0 = false) ∧
    (let s := { sys with inReset := true, mem := [(0, 1)] };
      s.inputs.resetN = true ∧ s.inReset = true ∧ accessOk s.cfg .read .word 0 = true ∧
        misaligned4 (s.wordAt 0) = true) :=
  ⟨rfl, ⟨rfl, rfl, rfl, rfl⟩, ⟨rfl, rfl, by decide⟩, ⟨rfl, rfl, rfl, by decide⟩⟩

theorem witness_StepKeepsInvariant : State.reset.Inv ∧ ∃ t, step State.reset = .next t :=
  ⟨⟨rfl, rfl, rfl, rfl⟩, _, rfl⟩

theorem witness_StepKeepsParameters : ∃ t, step { sys with env := [⟨true, none, false⟩] } = .next t := ⟨_, rfl⟩

/-- An instruction that stays in protected mode, and one that leaves it. -/
theorem witness_ProtectedModeIsConfined :
    prot.flagP = true ∧ (∃ t, exec (.addXYZ .always .r0 .r1 .r2) prot = .next t ∧ t.flagP = true) ∧
    (∃ t, exec (.brk .always) prot = .next t ∧ t.flagP = false) :=
  ⟨rfl, ⟨_, rfl, rfl⟩, ⟨_, rfl, rfl⟩⟩

/-- A handler that stored below the frame and used a register. -/
theorem witness_InterruptThenRfiResumes :
    sys.Inv ∧ sys.flagP = false ∧ ∃ t, interruptEntry 3 sys = .next t ∧
      (let u := { t.store .word 0x4FF4 0xFFFFFFFF with r1 := 7, sr := 0x0900 };
        u.mem ≠ t.mem ∧ u.isp = t.isp ∧ u.wordAt u.isp = t.wordAt t.isp ∧
        u.wordAt (u.isp + 4) = t.wordAt (t.isp + 4) ∧ u.flagP = false ∧ u.Runs .always ∧
        accessOk u.cfg .read .word u.isp = true ∧ accessOk u.cfg .read .word (u.isp + 4) = true) :=
  ⟨sys_inv, rfl, _, rfl, by decide, rfl, by decide, by decide, rfl, ⟨rfl, rfl⟩, rfl, rfl⟩

/-- Both call instructions; a callee that stored above the frame and used `dsp`. -/
theorem witness_CallThenRetReturns :
    sys.Inv ∧ sys.Runs .always ∧
    (∃ t, exec (.callN .always 0xFFFF) sys = .next t ∧ t.entered = false ∧
      (let u := { t.store .byte 0x5000 0xFF with dsp := 0x7000 };
        u.mem ≠ t.mem ∧ u.isp = t.isp ∧ u.wordAt u.isp = t.wordAt t.isp ∧
        u.wordAt (u.isp + 4) = t.wordAt (t.isp + 4) ∧ u.Runs .always ∧
        accessOk u.cfg .read .word u.isp = true ∧ accessOk u.cfg .read .word (u.isp + 4) = true)) ∧
    (∃ t, exec (.callrN .always 0x8000) sys = .next t ∧ t.entered = false ∧ t.Runs .always ∧
      accessOk t.cfg .read .word t.isp = true ∧ accessOk t.cfg .read .word (t.isp + 4) = true) :=
  ⟨sys_inv, sys_runs, ⟨_, rfl, rfl, by decide, rfl, by decide, by decide, ⟨rfl, rfl⟩, rfl, rfl⟩,
    ⟨_, rfl, rfl, ⟨rfl, rfl⟩, rfl, rfl⟩⟩

/-- A plain register; `pc` with an aligned and a misaligned value; `sr` in system mode; in protected mode with
`S` set and bits 8 to 12 changed, `S` set and them kept, `S` clear. -/
theorem witness_RegisterWriteRule :
    Reg.plain .cc10 = true ∧ misaligned4 0xFFFFFFFC = false ∧ misaligned4 0xFFFFFFFD = true ∧
    sys.flagP = false ∧ prot.flagP = true ∧ prot.flagS = true ∧
    (0x0700 : Word).extractLsb' 8 5 ≠ prot.sr.extractLsb' 8 5 ∧
    (0xFFFFE6FF : Word).extractLsb' 8 5 = prot.sr.extractLsb' 8 5 ∧
    ({ prot with sr := 0x0200 } : State).flagP = true ∧ ({ prot with sr := 0x0200 } : State).flagS = false := by
  decide

/-- A reserved code, and a legal one that is false. -/
theorem witness_ConditionBeforeExecution :
    condOf (.brk ⟨.res15, .cc1⟩) = some ⟨.res15, .cc1⟩ ∧ condReserved .res15 = true ∧
    condOf (.brk never) = some never ∧ condReserved never.code = false ∧ condTrue never prot = false := by
  decide

/-- One witness for the statements about results in a plain register: `AddSubtractResults`, `LogicResults`,
`RotateResults`, `MultiplyResults`, `MoveAndExtendResults`, `HalfMoveResults`; register 10 included. -/
theorem witness_plainDestination :
    sys.Runs .always ∧ prot.Runs .always ∧ Reg.plain .r0 = true ∧ Reg.plain .cc10 = true :=
  ⟨sys_runs, prot_runs, rfl, rfl⟩

/-- An amount from a register, 2^32 - 1, and from the field. -/
theorem witness_ShiftResults :
    sys.Runs .always ∧ Reg.plain .r0 = true ∧
    0xFFFFFFFF = (if sys.cfg.shiftByRegister then (sys.reg .r5).toNat else (Reg.toBits .r5).toNat) ∧
    (let s := { sys with cfg := { Config.standard with shiftByRegister := false } };
      s.Runs .always ∧ 5 = (if s.cfg.shiftByRegister then (s.reg .r5).toNat else (Reg.toBits .r5).toNat)) :=
  ⟨sys_runs, rfl, rfl, ⟨rfl, rfl⟩, rfl⟩

/-- `r1` = -2^31 divided by `r5` = -1. -/
theorem witness_DivideResults :
    sys.Runs .always ∧ Reg.plain .r0 = true ∧ sys.reg .r1 = 0x80000000 ∧ sys.reg .r5 ≠ 0 :=
  ⟨sys_runs, rfl, rfl, by decide⟩

theorem witness_DivideByZeroTraps :
    sys.Runs .always ∧ sys.reg .r2 = 0 ∧ prot.Runs .always ∧ prot.reg .r2 = 0 :=
  ⟨sys_runs, rfl, prot_runs, rfl⟩

/-- Plain operands; an aligned and a misaligned target; a register with itself. -/
theorem witness_SwapExchanges :
    sys.Runs .always ∧ Reg.plain .r1 = true ∧ Reg.plain .cc10 = true ∧ misaligned4 (sys.reg .r1) = false ∧
    misaligned4 (sys.reg .r5) = true ∧ sys.Inv :=
  ⟨sys_runs, rfl, rfl, rfl, rfl, sys_inv⟩

theorem witness_CompareWritesFlags : sys.Runs .always ∧ sys.srLegal ∧ prot.Runs .always ∧ prot.srLegal :=
  ⟨sys_runs, rfl, prot_runs, rfl⟩

/-- One, two and three writes; a division; a context move; then the ends: writes that stand in system and in
protected mode, a second write that traps, `P` set by the second of two writes with `spc` aligned and
misaligned. -/
theorem witness_RegisterWritesInOrder :
    (registerWrites (.addXYZ .always .pc .r1 .r2) sys).isSome = true ∧
    (registerWrites (.fcallN .always 0xFFFF) sys).isSome = true ∧
    (registerWrites (.sdivXYZ .always .sr .r1 .r5) sys).isSome = true ∧
    (registerWrites (.movXSpc .always .r0) sys).isSome = true ∧ sys.Runs .always ∧ prot.Runs .always ∧
    registerWrites (.swpXY .always .r1 .sr) sys = some (.always, [(.r1, 0), (.sr, 0x80000000)]) ∧
    (∃ u, writeAll [(.r1, 0), (.sr, 0x80000000)] sys = .ok u ∧ sys.flagP = false ∧ u.flagP = false) ∧
    registerWrites (.swpXY .always .r0 .sr) prot = some (.always, [(.r0, 0x0600), (.sr, 0)]) ∧
    writeAll [(.r0, 0x0600), (.sr, 0)] prot = .error .srWrite ∧
    (∃ u, writeAll [(.r0, 0x0600), (.sr, 0x0600)] prot = .ok u ∧ prot.flagP = true) ∧
    registerWrites (.swpXY .always .r5 .sr) sys = some (.always, [(.r5, 0), (.sr, 0xFFFFFFFF)]) ∧
    (∃ u, writeAll [(.r5, 0), (.sr, 0xFFFFFFFF)] sys = .ok u ∧ u.flagP = true ∧ misaligned4 u.spc = false) ∧
    (∃ u, writeAll [(.r5, 0), (.sr, 0xFFFFFFFF)] { sys with spc := 3 } = .ok u ∧ u.flagP = true ∧
      misaligned4 u.spc = true) :=
  ⟨rfl, rfl, rfl, rfl, sys_runs, prot_runs, rfl, ⟨_, rfl, rfl, rfl⟩, rfl, rfl, ⟨_, rfl, rfl⟩, rfl,
    ⟨_, rfl, rfl, rfl⟩, ⟨_, rfl, rfl, rfl⟩⟩

/-- An aligned and a misaligned value. -/
theorem witness_PcDestination :
    sys.Runs .always ∧
    registerWrites (.movXY .always .pc .r1) sys = some (.always, [(.pc, 0x80000000)]) ∧
    misaligned4 0x80000000 = false ∧
    registerWrites (.movXY .always .pc .r5) sys = some (.always, [(.pc, 0xFFFFFFFF)]) ∧
    misaligned4 0xFFFFFFFF = true :=
  ⟨sys_runs, rfl, rfl, rfl, rfl⟩

/-- System mode with `P` clear, with `P` set and `spc` aligned, misaligned; protected mode with a change of
bits 8 to 12, without one, with `S` clear. -/
theorem witness_SrDestination :
    sys.Runs .always ∧ prot.Runs .always ∧
    registerWrites (.movXY .always .sr .r1) sys = some (.always, [(.sr, 0x80000000)]) ∧
    (0x80000000 : Word).getLsbD 9 = false ∧ sys.flagP = false ∧
    registerWrites (.movXY .always .sr .r5) sys = some (.always, [(.sr, 0xFFFFFFFF)]) ∧
    (0xFFFFFFFF : Word).getLsbD 9 = true ∧ misaligned4 sys.spc = false ∧
    misaligned4 ({ sys with spc := 3 } : State).spc = true ∧
    registerWrites (.movXY .always .sr .r5) prot = some (.always, [(.sr, 0xFFFFFFFF)]) ∧
    prot.flagP = true ∧ prot.flagS = true ∧ (0xFFFFFFFF : Word).extractLsb' 8 5 ≠ prot.sr.extractLsb' 8 5 ∧
    registerWrites (.movXY .always .sr .sr) prot = some (.always, [(.sr, 0x0600)]) ∧
    (0x0600 : Word).extractLsb' 8 5 = prot.sr.extractLsb' 8 5 ∧
    ({ prot with sr := 0x0200 } : State).flagP = true ∧ ({ prot with sr := 0x0200 } : State).flagS = false :=
  ⟨sys_runs, prot_runs, rfl, rfl, rfl, rfl, rfl, rfl, rfl, rfl, rfl, rfl, by decide, rfl, rfl, rfl, rfl⟩

/-- A canonical memory, the byte past a word that ends at the top of the address space, and the byte before
it; the bytes of a word and of a half are at every `k` below 4 and 2. -/
theorem witness_MemoryReadsLastWrite :
    Memory.wf [(0, 1), (0xFFFFFFFF, 2)] = true ∧ widthBytes .word ≤ (0 : Word) - 0xFFFFFFFC ∧
    widthBytes .word ≤ (0xFFFFFFFB : Word) - 0xFFFFFFFC := by
  decide

/-- `stwu`, at the last word of the address space; `stb` on `pc` with the displacement 0xFF, unsigned and
signed. -/
theorem witness_StoresComplete :
    let s := { sys with r3 := 0xFFFFFFFC }
    s.Runs .always ∧ s.memCanonical ∧
    storeParts (.stwuXYN .always .r3 .r1 0) s = some (.always, .word, true, .r3, .r1, 0) ∧
    misaligned .word (s.reg .r3 + 0) = false ∧ accessOk s.cfg .write .word (s.reg .r3 + 0) = true ∧
    Reg.plain .r3 = true ∧
    storeParts (.stbXYN .always .pc .r1 0xFF) s = some (.always, .byte, false, .pc, .r1, 0xFF) ∧
    misaligned .byte (s.reg .pc + 0xFF) = false ∧ accessOk s.cfg .write .byte (s.reg .pc + 0xFF) = true ∧
    storeParts (.stbXYN .always .pc .r1 0xFF) { s with cfg := { Config.standard with disp8Signed := true } } =
      some (.always, .byte, false, .pc, .r1, 0xFFFFFFFF) :=
  ⟨⟨rfl, rfl⟩, rfl, rfl, rfl, rfl, rfl, rfl, rfl, rfl, rfl⟩

/-- `pop` of a register into itself at the last word, `lsh` without update from `pc`, and `lzb` with the
displacement 0x80, unsigned and signed. -/
theorem witness_LoadsComplete :
    let s := { sys with r3 := 0xFFFFFFFC }
    s.Runs .always ∧
    loadParts (.popXY .always .r3 .r3) s = some (.always, .word, .zero, true, .r3, .r3, 0) ∧
    misaligned .word (s.reg .r3 + 0) = false ∧ accessOk s.cfg .read .word (s.reg .r3 + 0) = true ∧
    Reg.plain .r3 = true ∧
    loadParts (.lshXYN .always .r0 .pc 2) s = some (.always, .half, .sign, false, .r0, .pc, 2) ∧
    misaligned .half (s.reg .pc + 2) = false ∧ accessOk s.cfg .read .half (s.reg .pc + 2) = true ∧
    Reg.plain .r0 = true ∧
    loadParts (.lzbXYN .always .r0 .r3 0x80) s = some (.always, .byte, .zero, false, .r0, .r3, 0x80) ∧
    loadParts (.lzbXYN .always .r0 .r3 0x80) { s with cfg := { Config.standard with disp8Signed := true } } =
      some (.always, .byte, .zero, false, .r0, .r3, 0xFFFFFF80) :=
  ⟨⟨rfl, rfl⟩, rfl, rfl, rfl, rfl, rfl, rfl, rfl, rfl, rfl, rfl⟩

/-- A misaligned and a failing access, for a store, a load, `push`, the calls and `ret`. -/
theorem witness_FailedAccessTraps :
    let s := { sys with r3 := 0xFFFFFFFD, isp := 2 }
    let t := { sys with cfg := closed }
    s.Runs .always ∧ t.Runs .always ∧
    storeParts (.sthXYN .always .r3 .r1 0) s = some (.always, .half, false, .r3, .r1, 0) ∧
    misaligned .half (s.reg .r3 + 0) = true ∧
    storeParts (.stwXYN .always .r3 .r1 0) t = some (.always, .word, false, .r3, .r1, 0) ∧
    misaligned .word (t.reg .r3 + 0) = false ∧ accessOk t.cfg .write .word (t.reg .r3 + 0) = false ∧
    loadParts (.lwXYN .always .r0 .r3 0) s = some (.always, .word, .zero, false, .r0, .r3, 0) ∧
    misaligned .word (s.reg .r3 + 0) = true ∧
    loadParts (.lwXYN .always .r0 .r3 0) t = some (.always, .word, .zero, false, .r0, .r3, 0) ∧
    accessOk t.cfg .read .word (t.reg .r3 + 0) = false ∧
    misaligned4 (s.reg .r3 - 4) = true ∧ misaligned4 (t.reg .r3 - 4) = false ∧
    accessOk t.cfg .write .word (t.reg .r3 - 4) = false ∧
    misaligned4 s.isp = true ∧ misaligned4 t.isp = false ∧
    accessOk t.cfg .write .word (t.isp - 4) = false ∧ accessOk t.cfg .read .word t.isp = false :=
  ⟨⟨rfl, rfl⟩, ⟨rfl, rfl⟩, rfl, rfl, rfl, rfl, by decide, rfl, rfl, rfl, by decide, rfl, rfl, by decide, rfl, rfl,
    by decide, by decide⟩

/-- A store that updates `pc`, a load into `sr` and one into `pc` that traps, a push on `pc` and one on `sr`
that traps; then loads into `sr` that set `P`, with `spc` aligned and misaligned. -/
theorem witness_MemoryFormsOnAnyRegister :
    sys.Runs .always ∧
    storeParts (.stbuXYN .always .pc .r1 0) sys = some (.always, .byte, true, .pc, .r1, 0) ∧
    misaligned .byte (sys.reg .pc + 0) = false ∧ accessOk sys.cfg .write .byte (sys.reg .pc + 0) = true ∧
    loadParts (.lwXYN .always .sr .r3 0) sys = some (.always, .word, .zero, false, .sr, .r3, 0) ∧
    misaligned .word (sys.reg .r3 + 0) = false ∧ accessOk sys.cfg .read .word (sys.reg .r3 + 0) = true ∧
    LoadedFrom sys .zero .word (sys.reg .r3 + 0) 0 ∧ (∃ s1, writeReg .sr 0 sys = .ok s1) ∧
    loadParts (.lzbXYN .always .pc .r3 0) { sys with mem := [(0, 1)] } =
      some (.always, .byte, .zero, false, .pc, .r3, 0) ∧
    LoadedFrom { sys with mem := [(0, 1)] } .zero .byte (sys.reg .r3 + 0) 1 ∧
    writeReg .pc 1 { sys with mem := [(0, 1)] } = .error .pcAlignment ∧
    misaligned4 (sys.reg .pc - 4) = false ∧ accessOk sys.cfg .write .word (sys.reg .pc - 4) = true ∧
    (∃ s1, writeReg .pc (sys.reg .pc - 4) sys = .ok s1) ∧
    misaligned4 (prot.reg .sr - 4) = false ∧ accessOk prot.cfg .write .word (prot.reg .sr - 4) = true ∧
    writeReg .sr (prot.reg .sr - 4) prot = .error .srWrite ∧
    (let s := { sys with mem := [(1, 2)] };
      LoadedFrom s .zero .word (s.reg .r3 + 0) 0x0200 ∧
      ∃ u, writeReg .sr 0x0200 s = .ok u ∧ s.flagP = false ∧ u.flagP = true ∧ misaligned4 u.spc = false) ∧
    (let s := { sys with mem := [(1, 2)], spc := 1 };
      LoadedFrom s .zero .word (s.reg .r3 + 0) 0x0200 ∧
      ∃ u, writeReg .sr 0x0200 s = .ok u ∧ s.flagP = false ∧ u.flagP = true ∧ misaligned4 u.spc = true) :=
  ⟨sys_runs, rfl, rfl, rfl, rfl, rfl, rfl, rfl, ⟨_, rfl⟩, rfl, rfl, rfl, rfl, rfl, ⟨_, rfl⟩, rfl, rfl, rfl,
    ⟨by show (0x0200 : Word) = State.wordAt _ _; decide, _, rfl, rfl, rfl, rfl⟩,
    ⟨by show (0x0200 : Word) = State.wordAt _ _; decide, _, rfl, rfl, rfl, rfl⟩⟩

/-- A push that wraps below address 0, with `y` = `x` or not. -/
theorem witness_PushCompletes :
    sys.Runs .always ∧ sys.memCanonical ∧ Reg.r3 ≠ Reg.sr ∧ sys.reg .r3 = 0 ∧
    misaligned4 (sys.reg .r3 - 4) = false ∧ accessOk sys.cfg .write .word (sys.reg .r3 - 4) = true :=
  ⟨sys_runs, rfl, by decide, rfl, rfl, rfl⟩

/-- For `BranchesJump` and `FastCallsLinkAndJump`. -/
theorem witness_BranchesJump : sys.Runs .always ∧ sys.pcAligned := ⟨sys_runs, rfl⟩

/-- A stack that wraps below address 0. -/
theorem witness_CallsPushAndJump :
    let s := { sys with isp := 4 }
    s.Runs .always ∧ s.pcAligned ∧ s.memCanonical ∧ misaligned4 s.isp = false ∧
    accessOk s.cfg .write .word (s.isp - 4) = true ∧ accessOk s.cfg .write .word (s.isp - 8) = true :=
  ⟨⟨rfl, rfl⟩, rfl, rfl, rfl, rfl, rfl⟩

/-- The second parts of this statement, of `FretRestores`, `SoftwareInterruptTraps` and
`ContextRegisterWrites` need only a well-formed condition. -/
theorem witness_LoadConditionLiterals : sys.Runs .always ∧ eq2.wf = true := ⟨sys_runs, rfl⟩

/-- In both modes, at the last and the first index. -/
theorem witness_SoftwareInterruptEnters :
    sys.Runs .always ∧ sys.flagI = false ∧ sys.memCanonical ∧
    EntryReady ((0xABFF : Half).extractLsb' 0 8) 0x1000 sys ∧
    prot.Runs .always ∧ prot.flagI = false ∧ prot.memCanonical ∧
    EntryReady ((0xFF00 : Half).extractLsb' 0 8) 0x1000 prot :=
  ⟨sys_runs, rfl, rfl, sys_interruptReady, prot_runs, rfl, rfl, prot_interruptReady⟩

theorem witness_SoftwareInterruptTraps :
    (let s := { sys with sr := 0x0100 };
      s.Runs .always ∧ s.flagI = true) ∧
    (let s := { prot with sr := 0x0300 };
      s.Runs .always ∧ s.flagI = true) :=
  ⟨⟨⟨rfl, rfl⟩, rfl⟩, ⟨⟨rfl, rfl⟩, rfl⟩⟩

/-- An aligned and a misaligned return address. -/
theorem witness_RetPops :
    (sys.Runs .always ∧ misaligned4 sys.isp = false ∧ accessOk sys.cfg .read .word sys.isp = true ∧
      accessOk sys.cfg .read .word (sys.isp + 4) = true ∧ misaligned4 (sys.wordAt (sys.isp + 4)) = false) ∧
    (let s := { sys with mem := [(0x5004, 2)] };
      s.Runs .always ∧ misaligned4 s.isp = false ∧ accessOk s.cfg .read .word s.isp = true ∧
        accessOk s.cfg .read .word (s.isp + 4) = true ∧ misaligned4 (s.wordAt (s.isp + 4)) = true) :=
  ⟨⟨sys_runs, rfl, rfl, rfl, by decide⟩, ⟨⟨rfl, rfl⟩, rfl, rfl, rfl, by decide⟩⟩

theorem witness_FretRestores :
    sys.Runs .always ∧ misaligned4 sys.r9 = false ∧
    (let s := { sys with r9 := 1 };
      s.Runs .always ∧ misaligned4 s.r9 = true) :=
  ⟨sys_runs, rfl, ⟨rfl, rfl⟩, rfl⟩

theorem witness_SleepAndBreakInSystemMode : sys.Runs .always ∧ sys.flagP = false := ⟨sys_runs, rfl⟩

/-- A misaligned stack; a failing read; a misaligned popped `pc`; `P` = 0 popped; `P` = 1 popped with `spc`
aligned and misaligned. -/
theorem witness_RfiPops :
    (let s := { sys with isp := 2 };
      s.Runs .always ∧ s.flagP = false ∧ misaligned4 s.isp = true) ∧
    (let s := { sys with cfg := closed };
      s.Runs .always ∧ s.flagP = false ∧ misaligned4 s.isp = false ∧ accessOk s.cfg .read .word s.isp = false) ∧
    (accessOk sys.cfg .read .word sys.isp = true ∧ accessOk sys.cfg .read .word (sys.isp + 4) = true) ∧
    (let s := { sys with mem := [(0x5004, 2)] };
      s.Runs .always ∧ s.flagP = false ∧ misaligned4 (s.wordAt (s.isp + 4)) = true) ∧
    (sys.Runs .always ∧ sys.flagP = false ∧ misaligned4 (sys.wordAt (sys.isp + 4)) = false ∧
      (sys.wordAt sys.isp).getLsbD 9 = false) ∧
    (let s := { sys with mem := [(0x5001, 2)] };
      s.Runs .always ∧ s.flagP = false ∧ misaligned4 (s.wordAt (s.isp + 4)) = false ∧
        (s.wordAt s.isp).getLsbD 9 = true ∧ misaligned4 s.spc = false) ∧
    misaligned4 ({ sys with mem := [(0x5001, 2)], spc := 1 } : State).spc = true :=
  ⟨⟨⟨rfl, rfl⟩, rfl, rfl⟩, ⟨⟨rfl, rfl⟩, rfl, rfl, by decide⟩, ⟨rfl, rfl⟩, ⟨⟨rfl, rfl⟩, rfl, by decide⟩,
    ⟨sys_runs, rfl, by decide, by decide⟩, ⟨⟨rfl, rfl⟩, rfl, by decide, by decide, rfl⟩, rfl⟩

/-- For `ContextRegisterWrites` (both modes) and `ContextRegisterReads`. -/
theorem witness_ContextRegisterWrites :
    sys.Runs .always ∧ sys.flagP = false ∧ Reg.plain .r0 = true ∧ prot.Runs .always ∧ prot.flagP = true :=
  ⟨sys_runs, rfl, rfl, prot_runs, rfl⟩

theorem witness_PrivilegedInstructionsTrap : prot.Runs .always ∧ prot.flagP = true := ⟨prot_runs, rfl⟩

/-- The halt; the entry in system mode and in protected mode. -/
theorem witness_ReservedEncodingsTrap :
    (let s := { sys with sr := 0x0800 };
      s.Runs .always ∧ s.flagT = true ∧ s.flagP = false) ∧
    (sys.Runs .always ∧ sys.flagT = false ∧ sys.memCanonical ∧ EntryReady 2 0 sys) ∧
    (prot.Runs .always ∧ prot.flagP = true ∧ prot.memCanonical ∧ EntryReady 1 0 prot ∧ EntryReady 2 0 prot ∧
      EntryReady 3 0 prot) :=
  ⟨⟨⟨rfl, rfl⟩, rfl, rfl⟩, ⟨sys_runs, rfl, rfl, sys_trapReady .invalidOpcode⟩,
    ⟨prot_runs, rfl, rfl, prot_trapReady .brk, prot_trapReady .invalidOpcode, prot_trapReady .protection⟩⟩

theorem witness_TrapEntryState :
    (let s := { sys with sr := 0x0800 };
      s.flagT = true ∧ s.flagP = false) ∧
    (sys.flagT = false ∧ sys.memCanonical ∧ ∀ t : Trap, EntryReady t.index 0 sys) ∧
    (prot.flagP = true ∧ prot.memCanonical ∧ ∀ t : Trap, EntryReady t.index 0 prot) :=
  ⟨⟨rfl, rfl⟩, ⟨rfl, rfl, sys_trapReady⟩, ⟨rfl, rfl, prot_trapReady⟩⟩

theorem witness_InterruptEntryState :
    (sys.memCanonical ∧ EntryReady 0xFF 0x1000 sys) ∧ (prot.memCanonical ∧ EntryReady 0 0x1000 prot) :=
  ⟨⟨rfl, sys_interruptReady⟩, ⟨rfl, prot_interruptReady⟩⟩

/-- A misaligned `spc`; a misaligned stack; a table entry that cannot be read; a misaligned one; each for an
interrupt and for a trap, from protected mode and, the last three, from system mode with `T` = 0. -/
theorem witness_EntryStops :
    (let s := { prot with spc := 1 };
      s.flagP = true ∧ ¬ EntrySwitchable s) ∧
    (let s := { sys with isp := 2 };
      s.flagT = false ∧ EntrySwitchable s ∧ ¬ EntryPushable s) ∧
    (let s := { sys with cfg := { Config.standard with noAccess := [⟨0, 0x3FF, .word, .read⟩] } };
      s.flagT = false ∧ EntrySwitchable s ∧ EntryPushable s ∧
        accessOk s.cfg .read .word (BitVec.ofNat 32 (4 * (0xFF : Byte).toNat)) = false ∧
        accessOk s.cfg .read .word (BitVec.ofNat 32 (4 * Trap.access.index.toNat)) = false) ∧
    (let s := { sys with mem := [(0x24, 2), (0x3FC, 1)] };
      s.flagT = false ∧ EntrySwitchable s ∧ EntryPushable s ∧
        accessOk s.cfg .read .word (BitVec.ofNat 32 (4 * (0xFF : Byte).toNat)) = true ∧
        misaligned4 (entryVector 0xFF 0x1000 s) = true ∧
        accessOk s.cfg .read .word (BitVec.ofNat 32 (4 * Trap.access.index.toNat)) = true ∧
        misaligned4 (entryVector Trap.access.index 0 s) = true) :=
  ⟨⟨rfl, fun h => absurd (h rfl) (by decide)⟩, ⟨rfl, fun h => absurd h (by decide), fun h => absurd h.1 (by decide)⟩,
    ⟨rfl, fun h => absurd h (by decide), ⟨rfl, rfl, rfl⟩, by decide, by decide⟩,
    ⟨rfl, fun h => absurd h (by decide), ⟨rfl, rfl, rfl⟩, rfl, by decide, rfl, by decide⟩⟩

end Sys2Proof.Tests
end

