-- ==== Sys2Proof/Proofs/RegisterRead.lean ====
section
/-!
PROOFS. What a read of a numbered register returns (10_state.md R20).
-/

namespace Sys2Proof.Machine

/-- Reading a register by its number is reading the register (10_state.md R12). -/
theorem reg_ofBits_toBits (s : State) (x : Reg) : s.reg (Reg.ofBits x.toBits) = s.reg x := by
  rw [Reg.ofBits_toBits]

/-- The one read that is no field or pair of fields: `sr` under 16 zero bits (10_state.md R20). -/
theorem reg_sr_eq_zero_append (s : State) : s.reg .sr = 0#16 ++ s.sr :=
  (BitVec.setWidth_eq_append (by decide : 16 ≤ 32)).trans (BitVec.cast_eq _ _)

/-- Settles O18, number by number: each names its register, and the read is that register's field or pair of
halves; number 14 is the zero extension of `sr`. -/
theorem readRegisterNumbers : Obligations.ReadRegisterNumbers := by
  intro s
  have number := reg_ofBits_toBits s
  exact ⟨number .r0, number .r1, number .r2, number .r3, number .r4, number .r5, number .r6, number .r7,
    number .r8, number .r9, number .cc10, number .cc32, number .dsp, number .isp,
    (number .sr).trans (reg_sr_eq_zero_append s), number .pc⟩

end Sys2Proof.Machine
end

/-!
PROOFS. The writes of the context registers, `mov ssp,y` and `mov spc,y` (43_two_operand.md R191, R192).
-/

namespace Sys2Proof

/-- The word of the register form of two operands, as the spec writes the row: the opcode byte, `VV` = 00,
`rr`, `cccc`, a zero byte and the two register numbers (30_encoding.md R61, R65). -/
theorem toWord_fieldsXY {op : BitVec 7} {opByte : Byte} {x : Reg} {xBits : BitVec 4}
    (hop : opByte = 0#1 ++ op) (hx : xBits = x.toBits) (c : Cond) (y : Reg) :
    (fieldsXY op c x y).toWord =
      opByte ++ 0#2 ++ c.reg.toBits ++ c.code.toBits ++ 0#8 ++ y.toBits ++ xBits := by
  subst hop hx
  ext i hi
  simp only [fieldsXY, fieldsOf, Fields.toWord, BitVec.getElem_eq_testBit_toNat, BitVec.testBit_toNat,
    BitVec.getLsbD_append]
  grind

/-- A well-formed instruction that is no reserved half is decoded from the word of its fields
(30_encoding.md R79). -/
theorem decodeStandard_toWord {i : Instr} (rt : Laws.FieldsRoundTrip.Statement i) (hw : i.wf = true)
    (hi : ∀ h, i ≠ .reservedCompact h) : decodeStandard (encodeFields i).toWord = i := by
  obtain ⟨h, e⟩ | row := rt hw
  · exact absurd e (hi h)
  · rw [decodeStandard, Fields.ofWord_toWord, row]

/-- The same of an instruction in the register form of two operands, its word written as the spec's row. -/
theorem decodeStandard_fieldsXY {i : Instr} {op : BitVec 7} {opByte : Byte} {c : Cond} {x y : Reg}
    {xBits : BitVec 4} (hf : encodeFields i = fieldsXY op c x y) (hop : opByte = 0#1 ++ op)
    (hx : xBits = x.toBits) (rt : Laws.FieldsRoundTrip.Statement i) (hw : i.wf = true)
    (hi : ∀ h, i ≠ .reservedCompact h) :
    decodeStandard (opByte ++ 0#2 ++ c.reg.toBits ++ c.code.toBits ++ 0#8 ++ y.toBits ++ xBits) = i := by
  rw [← toWord_fieldsXY hop hx, ← hf, decodeStandard_toWord rt hw hi]

namespace Machine

/-! ### What the two instructions do once their condition holds -/

theorem exec_movSspY {s : State} {c : Cond} (hc : s.Runs c) (y : Reg) :
    exec (.movSspY c y) s = systemOnly .protection s (.next (s.setSsp (s.reg y))) :=
  conditionally_runs hc _

theorem exec_movSpcY {s : State} {c : Cond} (hc : s.Runs c) (y : Reg) :
    exec (.movSpcY c y) s = systemOnly .protection s (.next (s.setSpc (s.reg y))) :=
  conditionally_runs hc _

/-! ### Their words -/

/-- `OP` = 0x34 with `X` = 13 (43_two_operand.md R191). -/
theorem decodeStandard_movSspY {c : Cond} (hc : c.wf = true) (y : Reg) :
    decodeStandard (0x34#8 ++ 0#2 ++ c.reg.toBits ++ c.code.toBits ++ 0#8 ++ y.toBits ++ 13#4) =
      .movSspY c y :=
  decodeStandard_fieldsXY (op := 0x34) (x := .isp) rfl rfl rfl (Laws.FieldsRoundTrip.movSspY c y) hc nofun

/-- `OP` = 0x34 with `X` = 15 (43_two_operand.md R192). -/
theorem decodeStandard_movSpcY {c : Cond} (hc : c.wf = true) (y : Reg) :
    decodeStandard (0x34#8 ++ 0#2 ++ c.reg.toBits ++ c.code.toBits ++ 0#8 ++ y.toBits ++ 15#4) =
      .movSpcY c y :=
  decodeStandard_fieldsXY (op := 0x34) (x := .pc) rfl rfl rfl (Laws.FieldsRoundTrip.movSpcY c y) hc nofun

/-- Settles O53, by the mode: system mode lets the write of the context register stand with no check on the
value, protected mode takes the Protection Trap in its place; the words are those of the two rows. -/
theorem contextRegisterWrites : Obligations.ContextRegisterWrites := by
  refine ⟨fun s c y hc => ?_, fun c y hc => ⟨decodeStandard_movSspY hc y, decodeStandard_movSpcY hc y⟩⟩
  rw [exec_movSspY hc, exec_movSpcY hc]
  refine ⟨fun system => ?_, fun protectedMode => ?_⟩
  · rw [systemOnly_system system, systemOnly_system system]
    exact ⟨rfl, rfl⟩
  · rw [systemOnly_protected protectedMode, systemOnly_protected protectedMode]
    exact ⟨rfl, rfl⟩

end Machine

end Sys2Proof

/-!
PROOFS. The loads of the condition registers, `lil $n` and `lih $n` (44_one_operand.md R208, R209).
-/

namespace Sys2Proof

/-- The word of the one-operand form, as the spec writes the row: the opcode byte, `VV` = 00, `rr`, `cccc`
and the immediate in bits 15:0 (30_encoding.md R61, R66). -/
theorem toWord_fieldsN {op : BitVec 7} {opByte : Byte} (hop : opByte = 0#1 ++ op) (c : Cond) (n : Half) :
    (fieldsN op c n).toWord = opByte ++ 0#2 ++ c.reg.toBits ++ c.code.toBits ++ n := by
  subst hop
  ext i hi
  simp only [fieldsN, fieldsOf, Fields.toWord, BitVec.getElem_eq_testBit_toNat, BitVec.testBit_toNat,
    BitVec.getLsbD_append, BitVec.getLsbD_extractLsb']
  grind

/-- A well-formed instruction in the one-operand form is decoded from its word, written as the spec's row. -/
theorem decodeStandard_fieldsN {i : Instr} {op : BitVec 7} {opByte : Byte} {c : Cond} {n : Half}
    (hf : encodeFields i = fieldsN op c n) (hop : opByte = 0#1 ++ op)
    (rt : Laws.FieldsRoundTrip.Statement i) (hw : i.wf = true) (hi : ∀ h, i ≠ .reservedCompact h) :
    decodeStandard (opByte ++ 0#2 ++ c.reg.toBits ++ c.code.toBits ++ n) = i := by
  rw [← toWord_fieldsN hop, ← hf, decodeStandard_toWord rt hw hi]

namespace Machine

/-! ### Writing one half of register 10 -/

/-- `setCc0` leaves every register number but 10 as it was. -/
theorem reg_setCc0_ne (s : State) (v : Half) {j : Reg} (h : j ≠ .cc10) : (s.setCc0 v).reg j = s.reg j := by
  cases j
  case cc10 => exact absurd rfl h
  all_goals rfl

/-- `setCc1` leaves every register number but 10 as it was. -/
theorem reg_setCc1_ne (s : State) (v : Half) {j : Reg} (h : j ≠ .cc10) : (s.setCc1 v).reg j = s.reg j := by
  cases j
  case cc10 => exact absurd rfl h
  all_goals rfl

theorem changes_setCc0 (s : State) (v : Half) : Changes [.cc10] s (s.setCc0 v) :=
  ⟨⟨fun _ hj => reg_setCc0_ne s v (List.ne_of_not_mem_cons hj), rfl, rfl, rfl, rfl, rfl, rfl⟩, fun _ => rfl⟩

theorem changes_setCc1 (s : State) (v : Half) : Changes [.cc10] s (s.setCc1 v) :=
  ⟨⟨fun _ hj => reg_setCc1_ne s v (List.ne_of_not_mem_cons hj), rfl, rfl, rfl, rfl, rfl, rfl⟩, fun _ => rfl⟩

/-! ### What the two loads do once their condition holds -/

theorem exec_lilN {s : State} {c : Cond} (hc : s.Runs c) (n : Half) :
    exec (.lilN c n) s = .next (s.setCc0 n) :=
  conditionally_runs hc _

theorem exec_lihN {s : State} {c : Cond} (hc : s.Runs c) (n : Half) :
    exec (.lihN c n) s = .next (s.setCc1 n) :=
  conditionally_runs hc _

/-! ### Their words -/

/-- `OP` = 0x1A (44_one_operand.md R208). -/
theorem decodeStandard_lilN {c : Cond} (hc : c.wf = true) (n : Half) :
    decodeStandard (0x1A#8 ++ 0#2 ++ c.reg.toBits ++ c.code.toBits ++ n) = .lilN c n :=
  decodeStandard_fieldsN (op := 0x1A) rfl rfl (Laws.FieldsRoundTrip.lilN c n) hc nofun

/-- `OP` = 0x1B (44_one_operand.md R209). -/
theorem decodeStandard_lihN {c : Cond} (hc : c.wf = true) (n : Half) :
    decodeStandard (0x1B#8 ++ 0#2 ++ c.reg.toBits ++ c.code.toBits ++ n) = .lihN c n :=
  decodeStandard_fieldsN (op := 0x1B) rfl rfl (Laws.FieldsRoundTrip.lihN c n) hc nofun

/-- Settles O46: once the condition, tested on the old state, holds, each load replaces its own half of
register 10, so the other half and every other register stand; the words are those of the two rows. -/
theorem loadConditionLiterals : Obligations.LoadConditionLiterals := by
  refine ⟨fun s c n hc => ⟨?lil, ?lih⟩, fun c n hc => ⟨decodeStandard_lilN hc n, decodeStandard_lihN hc n⟩⟩
  case lil => exact ⟨s.setCc0 n, exec_lilN hc n, setCc0_cc0 s n, setCc0_cc1 s n, changes_setCc0 s n⟩
  case lih => exact ⟨s.setCc1 n, exec_lihN hc n, setCc1_cc1 s n, setCc1_cc0 s n, changes_setCc1 s n⟩

end Machine

end Sys2Proof

/-!
PROOFS. The return of a fast call, `fret` (45_zero_operand.md R222).
-/

namespace Sys2Proof

/-- A row with no operands has the fields of the one-operand form with immediate 0
(30_encoding.md R66, R67). -/
theorem fieldsOf_zero_eq_fieldsN (op : BitVec 7) (c : Cond) : fieldsOf op c 0 0 0 0 = fieldsN op c 0 := rfl

namespace Machine

/-! ### What the instruction does once its condition holds -/

theorem exec_fret {s : State} {c : Cond} (hc : s.Runs c) :
    exec (.fret c) s = complete s (fastReturnEffect s) :=
  conditionally_runs hc _

/-- With `r9` aligned both writes stand. -/
theorem fastReturnEffect_aligned {s : State} (h : misaligned4 s.r9 = false) :
    fastReturnEffect s = .ok ((s.setDsp s.r8).setPc s.r9) :=
  writePc_aligned _ h

/-- With `r9` misaligned neither write stands. -/
theorem fastReturnEffect_misaligned {s : State} (h : misaligned4 s.r9 = true) :
    fastReturnEffect s = .error .pcAlignment :=
  writePc_misaligned _ h

theorem changes_setDsp_setPc (s : State) (d p : Word) : Changes [.dsp, .pc] s ((s.setDsp d).setPc p) :=
  (changes_setDsp s d).trans (changes_setPc (s.setDsp d) p)

/-! ### Its words -/

/-- `OP` = 0x09 (45_zero_operand.md R222). -/
theorem decodeStandard_fret {c : Cond} (hc : c.wf = true) :
    decodeStandard (0x09#8 ++ 0#2 ++ c.reg.toBits ++ c.code.toBits ++ 0#16) = .fret c :=
  decodeStandard_fieldsN (fieldsOf_zero_eq_fieldsN 0x09 c) rfl (Laws.FieldsRoundTrip.fret c) hc nofun

/-- Settles O50, by the alignment of `r9`: aligned, the two writes stand and the mode is as before, so no
context switch follows; misaligned, the trap is taken from the starting state, `dsp` not written. -/
theorem fretRestores : Obligations.FretRestores := by
  refine ⟨fun s c hc => ?_, fun c hc => decodeStandard_fret hc⟩
  rw [exec_fret hc]
  refine ⟨fun aligned => ?_, fun misaligned => ?_⟩
  · rw [fastReturnEffect_aligned aligned]
    exact ⟨_, complete_same rfl, rfl, rfl, changes_setDsp_setPc s s.r8 s.r9⟩
  · rw [fastReturnEffect_misaligned misaligned, complete_error]

end Machine

end Sys2Proof

/-!
PROOFS. The Software int Trap of `int $n`, standard and compact (60_exceptions.md R261).
-/

namespace Sys2Proof

/-- With bit 14 clear (the classes 1010oooo and 1001oooo) a compact half stands for the always condition and
its low byte under a zero byte: the fields of the one-operand form (46_compact.md R233). -/
theorem expandHalf_fieldsN {op : BitVec 7} {opByte : Byte} (hop : opByte = 1#1 ++ op)
    (bit6 : op.getLsbD 6 = false) (q : Byte) :
    expandHalf (opByte ++ q) = fieldsN op .always (0#8 ++ q) := by
  have bit14 : (opByte ++ q).getLsbD 14 = false := by
    rw [hop, BitVec.getLsbD_append, BitVec.getLsbD_append]
    exact bit6
  subst hop
  rw [expandHalf, bit14, if_neg Bool.false_ne_true, fieldsN, fieldsOf, Fields.mk.injEq]
  refine ⟨?_, rfl, rfl, rfl, ?_, ?_, ?_, ?_⟩
  all_goals
    ext i hi
    simp only [BitVec.getElem_extractLsb', BitVec.getLsbD_append]
    grind

/-- A half that is not reserved decodes to the well-formed instruction whose fields it expands to. -/
theorem decodeHalf_eq_of_expandHalf_eq {h : Half} {i : Instr} (hh : reservedHalf h = false)
    (hf : expandHalf h = encodeFields i) (rt : Laws.FieldsRoundTrip.Statement i) (hw : i.wf = true)
    (hi : ∀ k, i ≠ .reservedCompact k) : decodeHalf h = i := by
  obtain ⟨k, e⟩ | row := rt hw
  · exact absurd e (hi k)
  · rw [decodeHalf, hh, if_neg Bool.false_ne_true, hf, row]

/-- A half with bit 15 set and bits 14:12 not 000 is not reserved (46_compact.md R235). -/
theorem reservedHalf_append {opByte : Byte} (bit7 : opByte.getLsbD 7 = true)
    (class_ne : opByte.extractLsb' 4 3 ≠ 0) (q : Byte) : reservedHalf (opByte ++ q) = false := by
  have bit15 : (opByte ++ q).getLsbD 15 = true := by
    rw [BitVec.getLsbD_append]
    exact bit7
  have bits : (opByte ++ q).extractLsb' 12 3 = opByte.extractLsb' 4 3 := by
    ext i hi
    simp only [BitVec.getElem_extractLsb', BitVec.getLsbD_append]
    grind
  rw [reservedHalf, bit15, bits, beq_eq_false_iff_ne.2 class_ne]
  rfl

namespace Machine

/-! ### What the instruction does once its condition holds -/

/-- `I` alone chooses between the trap and the interrupt entry; the mode is not consulted
(44_one_operand.md R207). -/
theorem exec_intN {s : State} {c : Cond} (hc : s.Runs c) (n : Half) :
    exec (.intN c n) s =
      if s.flagI then trapEntry .softwareInt s else interruptEntry (n.setWidth 8) s :=
  conditionally_runs hc _

/-! ### Its words -/

/-- `OP` = 0x18 (44_one_operand.md R207). -/
theorem decodeStandard_intN {c : Cond} (hc : c.wf = true) (n : Half) :
    decodeStandard (0x18#8 ++ 0#2 ++ c.reg.toBits ++ c.code.toBits ++ n) = .intN c n :=
  decodeStandard_fieldsN (op := 0x18) rfl rfl (Laws.FieldsRoundTrip.intN c n) hc nofun

/-- The compact opcode byte 0x98 (46_compact.md R234). -/
theorem decodeHalf_intN (q : Byte) : decodeHalf (0x98#8 ++ q) = .intN .always (0#8 ++ q) :=
  decodeHalf_eq_of_expandHalf_eq (reservedHalf_append rfl (by decide) q)
    (expandHalf_fieldsN (op := 0x18) rfl rfl q) (Laws.FieldsRoundTrip.intN .always (0#8 ++ q)) rfl nofun

/-- Settles O48: with `I` set the instruction is the trap entry, for every operand and in either mode; the
standard word and the compact half are those of the two rows. -/
theorem softwareInterruptTraps : Obligations.SoftwareInterruptTraps := by
  refine ⟨fun s c n hc flagI => ?trap, rfl, fun c n hc => decodeStandard_intN hc n, decodeHalf_intN⟩
  case trap => rw [exec_intN hc, if_pos flagI]

end Machine

end Sys2Proof

/-!
PROOFS. The decoder and the encoder undo each other (30_encoding.md R61, R70 to R73, R79; 46_compact.md R231,
R233, R235).
-/

namespace Sys2Proof

/-! ### From an instruction to its word and back -/

/-- One row per instruction: its fields decode to it. -/
theorem fieldsRoundTrip : ∀ i : Instr, Laws.FieldsRoundTrip.Statement i
  | .addXYZ c x y z => Laws.FieldsRoundTrip.addXYZ c x y z
  | .subXYZ c x y z => Laws.FieldsRoundTrip.subXYZ c x y z
  | .umulXYZ c x y z => Laws.FieldsRoundTrip.umulXYZ c x y z
  | .smulXYZ c x y z => Laws.FieldsRoundTrip.smulXYZ c x y z
  | .udivXYZ c x y z => Laws.FieldsRoundTrip.udivXYZ c x y z
  | .sdivXYZ c x y z => Laws.FieldsRoundTrip.sdivXYZ c x y z
  | .rotlXYZ c x y z => Laws.FieldsRoundTrip.rotlXYZ c x y z
  | .rotrXYZ c x y z => Laws.FieldsRoundTrip.rotrXYZ c x y z
  | .andXYZ c x y z => Laws.FieldsRoundTrip.andXYZ c x y z
  | .orXYZ c x y z => Laws.FieldsRoundTrip.orXYZ c x y z
  | .xorXYZ c x y z => Laws.FieldsRoundTrip.xorXYZ c x y z
  | .sarXYZ c x y z => Laws.FieldsRoundTrip.sarXYZ c x y z
  | .rotlXYN c x y n => Laws.FieldsRoundTrip.rotlXYN c x y n
  | .rotrXYN c x y n => Laws.FieldsRoundTrip.rotrXYN c x y n
  | .shlXYZ c x y z => Laws.FieldsRoundTrip.shlXYZ c x y z
  | .shrXYZ c x y z => Laws.FieldsRoundTrip.shrXYZ c x y z
  | .stbXYN c x y n => Laws.FieldsRoundTrip.stbXYN c x y n
  | .stbuXYN c x y n => Laws.FieldsRoundTrip.stbuXYN c x y n
  | .stbiXYZ c x y z => Laws.FieldsRoundTrip.stbiXYZ c x y z
  | .stbuiXYZ c x y z => Laws.FieldsRoundTrip.stbuiXYZ c x y z
  | .sthXYN c x y n => Laws.FieldsRoundTrip.sthXYN c x y n
  | .sthuXYN c x y n => Laws.FieldsRoundTrip.sthuXYN c x y n
  | .sthiXYZ c x y z => Laws.FieldsRoundTrip.sthiXYZ c x y z
  | .sthuiXYZ c x y z => Laws.FieldsRoundTrip.sthuiXYZ c x y z
  | .stwXYN c x y n => Laws.FieldsRoundTrip.stwXYN c x y n
  | .stwuXYN c x y n => Laws.FieldsRoundTrip.stwuXYN c x y n
  | .stwiXYZ c x y z => Laws.FieldsRoundTrip.stwiXYZ c x y z
  | .stwuiXYZ c x y z => Laws.FieldsRoundTrip.stwuiXYZ c x y z
  | .lwXYN c x y n => Laws.FieldsRoundTrip.lwXYN c x y n
  | .lwuXYN c x y n => Laws.FieldsRoundTrip.lwuXYN c x y n
  | .lwiXYZ c x y z => Laws.FieldsRoundTrip.lwiXYZ c x y z
  | .lwuiXYZ c x y z => Laws.FieldsRoundTrip.lwuiXYZ c x y z
  | .lzbXYN c x y n => Laws.FieldsRoundTrip.lzbXYN c x y n
  | .lzbuXYN c x y n => Laws.FieldsRoundTrip.lzbuXYN c x y n
  | .lzbiXYZ c x y z => Laws.FieldsRoundTrip.lzbiXYZ c x y z
  | .lzbuiXYZ c x y z => Laws.FieldsRoundTrip.lzbuiXYZ c x y z
  | .lsbXYN c x y n => Laws.FieldsRoundTrip.lsbXYN c x y n
  | .lsbuXYN c x y n => Laws.FieldsRoundTrip.lsbuXYN c x y n
  | .lsbiXYZ c x y z => Laws.FieldsRoundTrip.lsbiXYZ c x y z
  | .lsbuiXYZ c x y z => Laws.FieldsRoundTrip.lsbuiXYZ c x y z
  | .lzhXYN c x y n => Laws.FieldsRoundTrip.lzhXYN c x y n
  | .lzhuXYN c x y n => Laws.FieldsRoundTrip.lzhuXYN c x y n
  | .lzhiXYZ c x y z => Laws.FieldsRoundTrip.lzhiXYZ c x y z
  | .lzhuiXYZ c x y z => Laws.FieldsRoundTrip.lzhuiXYZ c x y z
  | .lshXYN c x y n => Laws.FieldsRoundTrip.lshXYN c x y n
  | .lshuXYN c x y n => Laws.FieldsRoundTrip.lshuXYN c x y n
  | .lshiXYZ c x y z => Laws.FieldsRoundTrip.lshiXYZ c x y z
  | .lshuiXYZ c x y z => Laws.FieldsRoundTrip.lshuiXYZ c x y z
  | .movXY c x y => Laws.FieldsRoundTrip.movXY c x y
  | .swpXY c x y => Laws.FieldsRoundTrip.swpXY c x y
  | .notXY c x y => Laws.FieldsRoundTrip.notXY c x y
  | .cmpXY c x y => Laws.FieldsRoundTrip.cmpXY c x y
  | .sxbXY c x y => Laws.FieldsRoundTrip.sxbXY c x y
  | .sxwXY c x y => Laws.FieldsRoundTrip.sxwXY c x y
  | .zxbXY c x y => Laws.FieldsRoundTrip.zxbXY c x y
  | .zxwXY c x y => Laws.FieldsRoundTrip.zxwXY c x y
  | .cpr0XY c x y => Laws.FieldsRoundTrip.cpr0XY c x y
  | .cpr1XY c x y => Laws.FieldsRoundTrip.cpr1XY c x y
  | .cpr2XY c x y => Laws.FieldsRoundTrip.cpr2XY c x y
  | .cpr3XY c x y => Laws.FieldsRoundTrip.cpr3XY c x y
  | .mvhhXY c x y => Laws.FieldsRoundTrip.mvhhXY c x y
  | .mvhlXY c x y => Laws.FieldsRoundTrip.mvhlXY c x y
  | .mvlhXY c x y => Laws.FieldsRoundTrip.mvlhXY c x y
  | .mvllXY c x y => Laws.FieldsRoundTrip.mvllXY c x y
  | .addXN c x n => Laws.FieldsRoundTrip.addXN c x n
  | .subXN c x n => Laws.FieldsRoundTrip.subXN c x n
  | .pushXY c x y => Laws.FieldsRoundTrip.pushXY c x y
  | .popXY c x y => Laws.FieldsRoundTrip.popXY c x y
  | .movSspY c y => Laws.FieldsRoundTrip.movSspY c y
  | .movSpcY c y => Laws.FieldsRoundTrip.movSpcY c y
  | .movXSsp c x => Laws.FieldsRoundTrip.movXSsp c x
  | .movXSpc c x => Laws.FieldsRoundTrip.movXSpc c x
  | .baN c n => Laws.FieldsRoundTrip.baN c n
  | .brN c n => Laws.FieldsRoundTrip.brN c n
  | .callN c n => Laws.FieldsRoundTrip.callN c n
  | .callrN c n => Laws.FieldsRoundTrip.callrN c n
  | .fcallN c n => Laws.FieldsRoundTrip.fcallN c n
  | .fcallrN c n => Laws.FieldsRoundTrip.fcallrN c n
  | .intN c n => Laws.FieldsRoundTrip.intN c n
  | .lilN c n => Laws.FieldsRoundTrip.lilN c n
  | .lihN c n => Laws.FieldsRoundTrip.lihN c n
  | .ret c => Laws.FieldsRoundTrip.ret c
  | .fret c => Laws.FieldsRoundTrip.fret c
  | .sleep c => Laws.FieldsRoundTrip.sleep c
  | .rfi c => Laws.FieldsRoundTrip.rfi c
  | .brk c => Laws.FieldsRoundTrip.brk c
  | .reserved c op vv low => Laws.FieldsRoundTrip.reserved c op vv low
  | .reservedCompact h => Laws.FieldsRoundTrip.reservedCompact h

/-- Every instruction but a reserved half is encoded by the word of its fields. -/
theorem encode_eq_word {i : Instr} (hi : ∀ h, i ≠ .reservedCompact h) : encode i = .word (encodeFields i).toWord := by
  unfold encode
  split
  · exact absurd rfl (hi _)
  · rfl

/-- A reserved half decodes to itself (46_compact.md R235). -/
theorem decodeHalf_reserved {h : Half} (hh : reservedHalf h = true) : decodeHalf h = .reservedCompact h :=
  if_pos hh

/-- Any other half means the word it expands to (46_compact.md R233). -/
theorem decodeHalf_expanded {h : Half} (hh : reservedHalf h = false) :
    decodeHalf h = decodeFields (expandHalf h) := by
  rw [decodeHalf, hh, if_neg Bool.false_ne_true]

/-- Settles O2: a reserved half is its own encoding; any other instruction is the instruction of its word's
fields, row by row. -/
theorem decodeEncodeWellFormed : Obligations.DecodeEncodeWellFormed := by
  intro i hw
  by_cases hi : ∃ h, i = .reservedCompact h
  · obtain ⟨h, rfl⟩ := hi
    exact decodeHalf_reserved hw
  · rw [not_exists] at hi
    rw [encode_eq_word hi]
    exact decodeStandard_toWord (fieldsRoundTrip i) hw hi

/-! ### From a word to an instruction and back -/

/-- `i` is a well-formed instruction with a standard word, and the fields of that word are `f`. -/
structure EncodesAs (f : Fields) (i : Instr) : Prop where
  wf : i.wf = true
  fields : encodeFields i = f
  standard : ∀ h, i ≠ .reservedCompact h

/-- The bits `cccc` and `rr` are legal exactly if their condition is (30_encoding.md R63, R72). -/
theorem Fields.cond_wf_iff (f : Fields) : f.cond.wf = true ↔ f.cccc ≠ 0 ∨ f.rr = 0 := by
  have bits : ∀ (k : BitVec 4) (r : BitVec 2),
      (Cond.mk (CondCode.ofBits k) (CcReg.ofBits r)).wf = true ↔ k ≠ 0 ∨ r = 0 := by decide
  exact bits f.cccc f.rr

/-- A word that is no defined instruction keeps every field (30_encoding.md R71, R72, R79). -/
theorem encodesAs_asReserved {f : Fields} (h : definedWord f.cond f.op f.vv f.n16 = false) :
    EncodesAs f f.asReserved where
  wf := by simp only [Fields.asReserved, Instr.wf, h, Bool.not_false]
  fields := by
    simp only [Fields.asReserved, encodeFields, n16_high, n16_z, n16_y, n16_x, Fields.cond,
      CcReg.toBits_ofBits, CondCode.toBits_ofBits]
  standard := nofun

/-! What each layout of bits 15:0 admits, in terms of the nibbles (30_encoding.md R71, R72). -/

theorem h_of_admits_regZ {f : Fields} (ha : Layout.regZ.admits f.n16 = true) : f.h = 0 := by
  simpa only [Layout.admits, n16_high, beq_iff_eq] using ha

theorem h_z_of_admits_regY {f : Fields} (ha : Layout.regY.admits f.n16 = true) : f.h = 0 ∧ f.z = 0 :=
  (byte_zero f.h f.z).1 (beq_iff_eq.1 (n16_top f ▸ ha))

theorem nibbles_of_admits_zero {f : Fields} (ha : Layout.zero.admits f.n16 = true) :
    f.h = 0 ∧ f.z = 0 ∧ f.y = 0 ∧ f.x = 0 :=
  (half_zero f.h f.z f.y f.x).1 (beq_iff_eq.1 ha)

theorem h_z_x_of_admits_contextX {f : Fields} (ha : Layout.contextX.admits f.n16 = true) :
    (f.h = 0 ∧ f.z = 0) ∧ (f.x = 13 ∨ f.x = 15) := by
  simp only [Layout.admits, n16_top, n16_x, Bool.and_eq_true, Bool.or_eq_true, beq_iff_eq] at ha
  exact ⟨(byte_zero _ _).1 ha.1, ha.2⟩

theorem h_z_y_of_admits_contextY {f : Fields} (ha : Layout.contextY.admits f.n16 = true) :
    (f.h = 0 ∧ f.z = 0) ∧ (f.y = 13 ∨ f.y = 15) := by
  simp only [Layout.admits, n16_top, n16_y, Bool.and_eq_true, Bool.or_eq_true, beq_iff_eq] at ha
  exact ⟨(byte_zero _ _).1 ha.1, ha.2⟩

/-! The nibbles of the 8-bit and the 12-bit immediate (30_encoding.md R64, R65). -/

theorem n8_high (f : Fields) : f.n8.extractLsb' 4 4 = f.h := BitVec.extractLsb'_append_eq_left

theorem n8_low (f : Fields) : f.n8.extractLsb' 0 4 = f.z := BitVec.extractLsb'_append_eq_right

theorem n12_high (f : Fields) : f.n12.extractLsb' 8 4 = f.h :=
  (BitVec.extractLsb'_append_eq_of_le (by decide)).trans BitVec.extractLsb'_append_eq_left

theorem n12_mid (f : Fields) : f.n12.extractLsb' 4 4 = f.z :=
  (BitVec.extractLsb'_append_eq_of_le (by decide)).trans BitVec.extractLsb'_append_eq_right

theorem n12_low (f : Fields) : f.n12.extractLsb' 0 4 = f.y := BitVec.extractLsb'_append_eq_right

/-- Bits 31:16 of a word are legal, and bits 15:0 are as the row of its opcode byte draws them. -/
structure DefinedFields (f : Fields) : Prop where
  vv : f.vv = 0
  cond : f.cond.wf = true
  admits : (layoutOf f.op).admits f.n16 = true

/-- An instruction with the condition, the opcode byte and the nibbles of `f` encodes as `f`. -/
theorem DefinedFields.encodesAs {f : Fields} {i : Instr} (d : DefinedFields f) (hw : i.wf = f.cond.wf)
    (hi : ∀ h, i ≠ .reservedCompact h) (he : encodeFields i = fieldsOf f.op f.cond f.h f.z f.y f.x) :
    EncodesAs f i where
  wf := hw.trans d.cond
  fields := by simp only [he, fieldsOf, ← d.vv, Fields.cond, CcReg.toBits_ofBits, CondCode.toBits_ofBits]
  standard := hi

/-! The rows of one layout, each with the encoding its instructions share (30_encoding.md R64 to R67). -/

section Rows

variable {f : Fields} {i : Instr} (d : DefinedFields f) (hw : i.wf = f.cond.wf)
  (hi : ∀ h, i ≠ .reservedCompact h)
include d hw hi

theorem encodesAs_regZ (hl : layoutOf f.op = .regZ)
    (he : encodeFields i = fieldsXYZ f.op f.cond (Reg.ofBits f.x) (Reg.ofBits f.y) (Reg.ofBits f.z)) :
    EncodesAs f (if f.h = 0 then i else f.asReserved) := by
  have hh := h_of_admits_regZ (hl ▸ d.admits)
  rw [if_pos hh]
  exact d.encodesAs hw hi (by simp only [he, fieldsXYZ, Reg.toBits_ofBits, hh])

theorem encodesAs_regY (hl : layoutOf f.op = .regY)
    (he : encodeFields i = fieldsXY f.op f.cond (Reg.ofBits f.x) (Reg.ofBits f.y)) :
    EncodesAs f (if f.h = 0 ∧ f.z = 0 then i else f.asReserved) := by
  have hz := h_z_of_admits_regY (hl ▸ d.admits)
  rw [if_pos hz]
  exact d.encodesAs hw hi (by simp only [he, fieldsXY, Reg.toBits_ofBits, hz])

theorem encodesAs_zero (hl : layoutOf f.op = .zero) (he : encodeFields i = fieldsOf f.op f.cond 0 0 0 0) :
    EncodesAs f (if f.h = 0 ∧ f.z = 0 ∧ f.y = 0 ∧ f.x = 0 then i else f.asReserved) := by
  have hz := nibbles_of_admits_zero (hl ▸ d.admits)
  rw [if_pos hz]
  exact d.encodesAs hw hi (by simp only [he, hz])

theorem encodesAs_XYN
    (he : encodeFields i = fieldsXYN f.op f.cond (Reg.ofBits f.x) (Reg.ofBits f.y) f.n8) : EncodesAs f i :=
  d.encodesAs hw hi (by simp only [he, fieldsXYN, Reg.toBits_ofBits, n8_high, n8_low])

theorem encodesAs_XN (he : encodeFields i = fieldsXN f.op f.cond (Reg.ofBits f.x) f.n12) : EncodesAs f i :=
  d.encodesAs hw hi (by simp only [he, fieldsXN, Reg.toBits_ofBits, n12_high, n12_mid, n12_low])

theorem encodesAs_N (he : encodeFields i = fieldsN f.op f.cond f.n16) : EncodesAs f i :=
  d.encodesAs hw hi (by simp only [he, fieldsN, n16_high, n16_z, n16_y, n16_x])

end Rows

/-! The opcode bytes of each layout, and what their rows decode to (30_encoding.md R70). No opcode byte with a
row is missed, since the lists are checked against the opcode map. -/

theorem decodeRow_encodesAs_zero {f : Fields} (d : DefinedFields f) (hl : layoutOf f.op = .zero) :
    EncodesAs f (decodeRow f) := by
  have opcodes : ∀ op, layoutOf op = .zero → op ∈ [0x08#7, 0x09, 0x0A, 0x0B, 0x0F] := by decide
  have hop := opcodes f.op hl
  rcases f with ⟨op, vv, rr, cccc, h, z, y, x⟩
  fin_cases hop
  all_goals exact encodesAs_zero d rfl nofun hl rfl

theorem decodeRow_encodesAs_regY {f : Fields} (d : DefinedFields f) (hl : layoutOf f.op = .regY) :
    EncodesAs f (decodeRow f) := by
  have opcodes : ∀ op, layoutOf op = .regY → op ∈ [0x20#7, 0x21, 0x22, 0x23, 0x24, 0x25, 0x26, 0x27, 0x28, 0x29,
      0x2A, 0x2B, 0x2C, 0x2D, 0x2E, 0x2F, 0x32, 0x33] := by decide
  have hop := opcodes f.op hl
  rcases f with ⟨op, vv, rr, cccc, h, z, y, x⟩
  fin_cases hop
  all_goals exact encodesAs_regY d rfl nofun hl rfl

theorem decodeRow_encodesAs_regZ {f : Fields} (d : DefinedFields f) (hl : layoutOf f.op = .regZ) :
    EncodesAs f (decodeRow f) := by
  have opcodes : ∀ op, layoutOf op = .regZ → op ∈ [0x40#7, 0x41, 0x42, 0x43, 0x44, 0x45, 0x46, 0x47, 0x48, 0x49,
      0x4A, 0x4B, 0x4E, 0x4F, 0x62, 0x63, 0x66, 0x67, 0x6A, 0x6B, 0x6E, 0x6F, 0x72, 0x73, 0x76, 0x77, 0x7A, 0x7B,
      0x7E, 0x7F] := by decide
  have hop := opcodes f.op hl
  rcases f with ⟨op, vv, rr, cccc, h, z, y, x⟩
  fin_cases hop
  all_goals exact encodesAs_regZ d rfl nofun hl rfl

theorem decodeRow_encodesAs_operands {f : Fields} (d : DefinedFields f) (hl : layoutOf f.op = .operands) :
    EncodesAs f (decodeRow f) := by
  have opcodes : ∀ op, layoutOf op = .operands →
      op ∈ [0x10#7, 0x11, 0x14, 0x15, 0x16, 0x17, 0x18, 0x1A, 0x1B] ∨ op ∈ [0x30#7, 0x31] ∨
        op ∈ [0x4C#7, 0x4D, 0x60, 0x61, 0x64, 0x65, 0x68, 0x69, 0x6C, 0x6D, 0x70, 0x71, 0x74, 0x75, 0x78, 0x79,
          0x7C, 0x7D] := by decide
  have hop := opcodes f.op hl
  rcases f with ⟨op, vv, rr, cccc, h, z, y, x⟩
  obtain hop | hop | hop := hop
  · fin_cases hop
    all_goals exact encodesAs_N d rfl nofun rfl
  · fin_cases hop
    all_goals exact encodesAs_XN d rfl nofun rfl
  · fin_cases hop
    all_goals exact encodesAs_XYN d rfl nofun rfl

/-- The row of opcode 0x34, its `X` 13 or 15 (43_two_operand.md R191, R192). -/
theorem decodeRow_encodesAs_contextX {f : Fields} (d : DefinedFields f) (hl : layoutOf f.op = .contextX) :
    EncodesAs f (decodeRow f) := by
  have opcode : ∀ op, layoutOf op = .contextX → op = 0x34 := by decide
  have hop := opcode f.op hl
  obtain ⟨hz, hx⟩ := h_z_x_of_admits_contextX (hl ▸ d.admits)
  rcases f with ⟨op, vv, rr, cccc, h, z, y, x⟩
  obtain ⟨rfl, rfl⟩ := hz
  subst hop
  obtain rfl | rfl := hx
  · exact d.encodesAs (i := .movSspY _ (Reg.ofBits y)) rfl nofun
      (by simp only [encodeFields, fieldsXY, Reg.toBits_ofBits]; rfl)
  · exact d.encodesAs (i := .movSpcY _ (Reg.ofBits y)) rfl nofun
      (by simp only [encodeFields, fieldsXY, Reg.toBits_ofBits]; rfl)

/-- The row of opcode 0x35, its `Y` 13 or 15 (43_two_operand.md R193, R194). -/
theorem decodeRow_encodesAs_contextY {f : Fields} (d : DefinedFields f) (hl : layoutOf f.op = .contextY) :
    EncodesAs f (decodeRow f) := by
  have opcode : ∀ op, layoutOf op = .contextY → op = 0x35 := by decide
  have hop := opcode f.op hl
  obtain ⟨hz, hy⟩ := h_z_y_of_admits_contextY (hl ▸ d.admits)
  rcases f with ⟨op, vv, rr, cccc, h, z, y, x⟩
  obtain ⟨rfl, rfl⟩ := hz
  subst hop
  obtain rfl | rfl := hy
  · exact d.encodesAs (i := .movXSsp _ (Reg.ofBits x)) rfl nofun
      (by simp only [encodeFields, fieldsXY, Reg.toBits_ofBits]; rfl)
  · exact d.encodesAs (i := .movXSpc _ (Reg.ofBits x)) rfl nofun
      (by simp only [encodeFields, fieldsXY, Reg.toBits_ofBits]; rfl)

/-- A defined word is decoded by its row to an instruction that encodes as it. -/
theorem decodeRow_encodesAs {f : Fields} (d : DefinedFields f) : EncodesAs f (decodeRow f) := by
  cases hl : layoutOf f.op with
  | none =>
    have none_admits : Layout.none.admits f.n16 = true := hl ▸ d.admits
    cases none_admits
  | operands => exact decodeRow_encodesAs_operands d hl
  | regZ => exact decodeRow_encodesAs_regZ d hl
  | regY => exact decodeRow_encodesAs_regY d hl
  | contextX => exact decodeRow_encodesAs_contextX d hl
  | contextY => exact decodeRow_encodesAs_contextY d hl
  | zero => exact decodeRow_encodesAs_zero d hl

/-- Every combination of fields decodes to a well-formed instruction that encodes as it: by the check on `VV`
and the condition bits, then by the row (30_encoding.md R72, R79). -/
theorem decodeFields_encodesAs (f : Fields) : EncodesAs f (decodeFields f) := by
  unfold decodeFields
  split
  next legal =>
    have hc := f.cond_wf_iff.2 legal.2
    cases ha : (layoutOf f.op).admits f.n16 with
    | false =>
      rw [Laws.decodeRow_reserved ha]
      exact encodesAs_asReserved (by rw [definedWord, ha, Bool.and_false])
    | true => exact decodeRow_encodesAs ⟨legal.1, hc, ha⟩
  next illegal =>
    refine encodesAs_asReserved (Bool.eq_false_iff.2 fun defined => illegal ?_)
    simp only [definedWord, Bool.and_eq_true, beq_iff_eq, f.cond_wf_iff] at defined
    exact defined.1

/-- Settles O3: the instruction of the word's fields encodes as those fields, which are the whole word when bit 31
is clear. -/
theorem encodeDecodeStandardWord : Obligations.EncodeDecodeStandardWord := by
  intro w hw
  have enc := decodeFields_encodesAs (Fields.ofWord w)
  exact ⟨enc.wf, by rw [decodeStandard, encode_eq_word enc.standard, enc.fields, Fields.toWord_ofWord w hw]⟩

/-! ### From a half to an instruction and back -/

theorem reservedHalf_eq_false_iff {h : Half} :
    reservedHalf h = false ↔ h.getLsbD 15 = true ∧ h.extractLsb' 12 3 ≠ 0 := by
  simp only [reservedHalf, Bool.or_eq_false_iff, Bool.not_eq_false', beq_eq_false_iff_ne, ne_eq]

/-- `Expand` undone (46_compact.md R233): bit 15, the opcode byte, `q` from `Z` in the class 110ooooo and from `Y`
in the others, and `w`. -/
theorem join_expandHalf {h : Half} (bit15 : h.getLsbD 15 = true) :
    1#1 ++ (expandHalf h).op ++
        (if (expandHalf h).op.getLsbD 6 && !(expandHalf h).op.getLsbD 5 then (expandHalf h).z
          else (expandHalf h).y) ++ (expandHalf h).x = h := by
  have op : (expandHalf h).op = h.extractLsb' 8 7 := by unfold expandHalf; split <;> [split; skip] <;> rfl
  have x : (expandHalf h).x = h.extractLsb' 0 4 := by unfold expandHalf; split <;> [split; skip] <;> rfl
  have q : (if h.getLsbD 14 && !h.getLsbD 13 then (expandHalf h).z else (expandHalf h).y) = h.extractLsb' 4 4 := by
    unfold expandHalf
    cases h.getLsbD 14 <;> cases h.getLsbD 13 <;> rfl
  have b6 : (h.extractLsb' 8 7).getLsbD 6 = h.getLsbD 14 := by simp
  have b5 : (h.extractLsb' 8 7).getLsbD 5 = h.getLsbD 13 := by simp
  rw [op, x, b6, b5, q]
  ext i hi
  simp only [BitVec.getElem_append, BitVec.getElem_extractLsb']
  grind

/-- An instruction whose word is the expansion of a half that is not reserved has that half as its compact
encoding. -/
theorem encodeCompact_expanded {h : Half} {i : Instr} (hh : reservedHalf h = false)
    (enc : EncodesAs (expandHalf h) i) : encodeCompact i = some h := by
  have join := join_expandHalf (reservedHalf_eq_false_iff.1 hh).1
  unfold encodeCompact
  split
  · exact absurd rfl (enc.standard _)
  · simp only [enc.fields, join, hh, beq_self_eq_true, Bool.not_false, Bool.and_self, if_true]

/-- Settles O4: a reserved half is carried whole; any other half is recovered from the fields it expands to. -/
theorem compactHalfRoundTrip : Obligations.CompactHalfRoundTrip := by
  intro h
  cases hh : reservedHalf h with
  | true =>
    rw [decodeHalf_reserved hh]
    exact ⟨hh, rfl⟩
  | false =>
    have enc := decodeFields_encodesAs (expandHalf h)
    rw [decodeHalf_expanded hh]
    exact ⟨enc.wf, encodeCompact_expanded hh enc⟩

/-! ### The compact table -/

/-- Bit 15 and one of bits 14:12 set: the half is of one of the five classes (46_compact.md R232, R235). -/
theorem reservedHalf_of_bits {h : Half} (bit15 : h.getLsbD 15 = true)
    (cls : h.getLsbD 14 = true ∨ h.getLsbD 13 = true ∨ h.getLsbD 12 = true) : reservedHalf h = false := by
  refine reservedHalf_eq_false_iff.2 ⟨bit15, fun zero => ?_⟩
  have bit k (hk : k < 3) : h.getLsbD (12 + k) = false := by
    have e := congrArg (fun b => b.getLsbD k) zero
    simpa [hk] using e
  have b12 := bit 0 (by decide)
  have b13 := bit 1 (by decide)
  have b14 := bit 2 (by decide)
  simp_all

/-- A half of a class means the standard word of its expansion (46_compact.md R233). -/
theorem decodeHalf_eq_decodeStandard {h : Half} {w : Word} (bit15 : h.getLsbD 15 = true)
    (cls : h.getLsbD 14 = true ∨ h.getLsbD 13 = true ∨ h.getLsbD 12 = true)
    (hw : (expandHalf h).toWord = w) : decodeHalf h = decodeStandard w := by
  rw [decodeHalf_expanded (reservedHalf_of_bits bit15 cls), decodeStandard, ← hw, Fields.ofWord_toWord]

/-! The classes by the bits that name them, each with the fields of its expansion (46_compact.md R233). -/

theorem decodeHalf_threeOperand {h : Half} {w : Word} (b15 : h.getLsbD 15 = true) (b14 : h.getLsbD 14 = true)
    (b13 : h.getLsbD 13 = false)
    (hw : Fields.toWord
      ⟨h.extractLsb' 8 7, 0, 0, 0, 0, h.extractLsb' 4 4, h.extractLsb' 0 4, h.extractLsb' 0 4⟩ = w) :
    decodeHalf h = decodeStandard w :=
  decodeHalf_eq_decodeStandard b15 (.inl b14)
    (by simpa only [expandHalf, b14, b13, if_true, Bool.false_eq_true, if_false] using hw)

theorem decodeHalf_loadStore {h : Half} {w : Word} (b15 : h.getLsbD 15 = true) (b14 : h.getLsbD 14 = true)
    (b13 : h.getLsbD 13 = true) {indexed : Bool} (b9 : h.getLsbD 9 = indexed)
    (hw : Fields.toWord
      ⟨h.extractLsb' 8 7, 0, 0, 0, 0, if indexed then 8 else 0, h.extractLsb' 4 4, h.extractLsb' 0 4⟩ = w) :
    decodeHalf h = decodeStandard w :=
  decodeHalf_eq_decodeStandard b15 (.inl b14) (by simpa only [expandHalf, b14, b13, b9, if_true] using hw)

theorem decodeHalf_fewOperands {h : Half} {w : Word} (b15 : h.getLsbD 15 = true) (b14 : h.getLsbD 14 = false)
    (b13_or_b12 : h.getLsbD 13 = true ∨ h.getLsbD 12 = true)
    (hw : Fields.toWord ⟨h.extractLsb' 8 7, 0, 0, 0, 0, 0, h.extractLsb' 4 4, h.extractLsb' 0 4⟩ = w) :
    decodeHalf h = decodeStandard w :=
  decodeHalf_eq_decodeStandard b15 (.inr b13_or_b12)
    (by simpa only [expandHalf, b14, Bool.false_eq_true, if_false] using hw)

theorem decodeHalf_reservedClass (r : BitVec 12) : decodeHalf (0b1000#4 ++ r) = .reservedCompact (0b1000#4 ++ r) := by
  have cls : (0b1000#4 ++ r).extractLsb' 12 3 = 0 := BitVec.extractLsb'_append_eq_of_le (by decide)
  refine decodeHalf_reserved ?_
  rw [reservedHalf, cls]
  exact Bool.or_true _

theorem decodeHalf_bit15Clear (r : BitVec 15) : decodeHalf (0#1 ++ r) = .reservedCompact (0#1 ++ r) := by
  have bit15 : (0#1 ++ r).getLsbD 15 = false := by
    rw [BitVec.getLsbD_append]
    rfl
  refine decodeHalf_reserved ?_
  rw [reservedHalf, bit15]
  rfl

/-- Settles O5, class by class: the bits that name the class are read off the half, and the expansion is the table's
word, bit by bit; the halves outside the classes are reserved. -/
theorem compactHalfMeansStandardWord : Obligations.CompactHalfMeansStandardWord := by
  refine ⟨fun o q w => decodeHalf_threeOperand ?_ ?_ ?_ ?threeOperand,
    fun k u q w => decodeHalf_loadStore (indexed := false) ?_ ?_ ?_ ?_ ?immediate,
    fun k u q w => decodeHalf_loadStore (indexed := true) ?_ ?_ ?_ ?_ ?indexed,
    fun o q w => decodeHalf_fewOperands ?_ ?_ (.inl ?_) ?twoOperand,
    fun o q w => decodeHalf_fewOperands ?_ ?_ (.inr ?_) ?oneOperand,
    decodeHalf_reservedClass, decodeHalf_bit15Clear⟩
  case' threeOperand | immediate | indexed | twoOperand | oneOperand =>
    ext i hi
    simp only [Fields.toWord, BitVec.getElem_eq_testBit_toNat, BitVec.testBit_toNat]
    interval_cases i
  all_goals
    simp only [BitVec.getLsbD_append, BitVec.getLsbD_extractLsb']
    rfl

/-- Settles O1: each word is decoded by evaluation. -/
theorem specWordsDecode : Obligations.SpecWordsDecode := by
  unfold Obligations.SpecWordsDecode
  decide

end Sys2Proof

/-!
PROOFS. What one instruction and one step can do, and what they keep (10_state.md R14, R26, R31;
40_conditional_execution.md R90, R96; 60_exceptions.md R241 to R251; 70_reset_and_hazards.md R290 to R293).
-/

namespace Sys2Proof.Machine

/-! ### Legal values of `sr` -/

/-- Bits that two values of `sr` leave 0, their union leaves 0. -/
theorem legal_or {a b : Half} (ha : a &&& ~~~srMask = 0) (hb : b &&& ~~~srMask = 0) :
    (a ||| b) &&& ~~~srMask = 0 := by
  rw [BitVec.and_or_distrib_right, ha, hb]
  rfl

/-- Clearing bits keeps a value of `sr` legal. -/
theorem legal_and {a : Half} (ha : a &&& ~~~srMask = 0) (b : Half) : (a &&& b) &&& ~~~srMask = 0 := by
  rw [BitVec.and_assoc, BitVec.and_comm b, ← BitVec.and_assoc, ha]
  exact BitVec.zero_and

/-- A flag word holds implemented bits only (10_state.md R24, R30). -/
theorem flagsOf_legal (a b : Word) : flagsOf a b &&& ~~~srMask = 0 := by
  have legal : ∀ z c v n, flagWord z c v n &&& ~~~srMask = 0 := by decide
  exact legal ..

/-- A flag word has none of bits 8 to 12 (10_state.md R24, R30). -/
theorem flagsOf_and_control (a b : Word) : flagsOf a b &&& srControlMask = 0 := by
  have control : ∀ z c v n, flagWord z c v n &&& srControlMask = 0 := by decide
  exact control ..

/-- `cmp` leaves bits 8 to 12 of `sr` (10_state.md R174). -/
theorem compareSr_and_control (a b : Word) (s : State) :
    compareSr a b s &&& srControlMask = s.sr &&& srControlMask := by
  rw [compareSr, BitVec.and_or_distrib_right, flagsOf_and_control, BitVec.and_assoc, BitVec.and_self]
  exact BitVec.or_zero

theorem compareSr_legal (a b : Word) (s : State) : compareSr a b s &&& ~~~srMask = 0 := by
  refine legal_or ?_ (flagsOf_legal a b)
  rw [BitVec.and_comm s.sr]
  exact legal_and rfl s.sr

/-! ### What the effects outside `complete` keep -/

theorem keeps_compare (a b : Word) (s : State) : EffectKeeps s (s.setSr (compareSr a b s)) :=
  keeps_setSr s (compareSr_legal a b s) fun _ => compareSr_and_control a b s

theorem keeps_setCc0 (s : State) (v : Half) : EffectKeeps s (s.setCc0 v) :=
  ⟨id, id, id, rfl, rfl, rfl, rfl, rfl, rfl, fun _ => rfl⟩

theorem keeps_setCc1 (s : State) (v : Half) : EffectKeeps s (s.setCc1 v) :=
  ⟨id, id, id, rfl, rfl, rfl, rfl, rfl, rfl, fun _ => rfl⟩

theorem keeps_setCc2 (s : State) (v : Half) : EffectKeeps s (s.setCc2 v) :=
  ⟨id, id, id, rfl, rfl, rfl, rfl, rfl, rfl, fun _ => rfl⟩

theorem keeps_setCc3 (s : State) (v : Half) : EffectKeeps s (s.setCc3 v) :=
  ⟨id, id, id, rfl, rfl, rfl, rfl, rfl, rfl, fun _ => rfl⟩

/-- `sleep` runs in system mode only, where bits 8 to 12 of `sr` are free (45_zero_operand.md R223). -/
theorem keeps_sleep {s : State} (system : s.flagP = false) : EffectKeeps s (s.setSr (s.sr ||| srF)) :=
  ⟨id, fun legal => legal_or legal rfl, id, rfl, rfl, rfl, rfl, rfl, rfl,
    fun prot => absurd prot (by simp [system])⟩

/-! ### Every next state an instruction can answer -/

/-- How an instruction that answers a next state got there: by a trap, by a software interrupt, by writes that
stand, by writes that set `P` in system mode and the context switch after them, or by a write of a context
register in system mode. -/
inductive ExecOutcome (s : State) : State → Prop
  | trap {t : State} (k : Trap) (h : trapEntry k s = .next t) : ExecOutcome s t
  | interrupt {t : State} (k : Byte) (h : interruptEntry k s = .next t) : ExecOutcome s t
  | wrote {t : State} (h : EffectKeeps s t) : ExecOutcome s t
  | switched {u t : State} (system : s.flagP = false) (h : EffectKeeps s u)
      (hs : contextSwitch .protected_ u = .next t) : ExecOutcome s t
  | ssp (system : s.flagP = false) (v : Word) : ExecOutcome s (s.setSsp v)
  | spc (system : s.flagP = false) (v : Word) : ExecOutcome s (s.setSpc v)

namespace ExecOutcome

variable {s t : State} {c : Cond}

/-- A reserved condition traps, a false one changes nothing (40_conditional_execution.md R96). -/
theorem of_conditionally {run : Result} (h : conditionally c s run = .next t)
    (hr : run = .next t → ExecOutcome s t) : ExecOutcome s t := by
  unfold conditionally at h
  split at h
  · exact .trap _ h
  · split at h
    · exact hr h
    · cases h
      exact .wrote (.refl s)

theorem of_systemOnly {k : Trap} {run : Result} (h : systemOnly k s run = .next t)
    (hr : s.flagP = false → run = .next t → ExecOutcome s t) : ExecOutcome s t := by
  cases hp : s.flagP with
  | true => exact .trap k (systemOnly_protected hp k run ▸ h)
  | false => exact hr hp (systemOnly_system hp k run ▸ h)

theorem of_complete {effect : Except Trap State} (h : complete s effect = .next t)
    (keeps : ∀ u, effect = .ok u → EffectKeeps s u) : ExecOutcome s t := by
  cases effect with
  | error k => exact .trap k h
  | ok u =>
    have hk := keeps u rfl
    cases hp : s.flagP with
    | true =>
      rw [complete_stays (.inl hp)] at h
      cases h
      exact .wrote hk
    | false =>
      cases hq : u.flagP with
      | true =>
        rw [complete_switches hp hq] at h
        exact .switched hp hk h
      | false =>
        rw [complete_stays (.inr hq)] at h
        cases h
        exact .wrote hk

theorem of_conditional_complete {effect : Except Trap State}
    (h : conditionally c s (complete s effect) = .next t) (keeps : ∀ u, effect = .ok u → EffectKeeps s u) :
    ExecOutcome s t :=
  of_conditionally h fun h => of_complete h keeps

/-- A conditional instruction whose one effect never traps. -/
theorem of_conditional_next {u : State} (h : conditionally c s (.next u) = .next t) (keeps : EffectKeeps s u) :
    ExecOutcome s t :=
  of_conditionally h fun h => by
    cases h
    exact .wrote keeps

/-! The shapes that several instructions share. -/

theorem of_writeResult {x : Reg} {v : Word} (h : writeResult c x v s = .next t) : ExecOutcome s t :=
  of_conditional_complete h fun _ => keeps_writeReg

theorem of_writeProduct {x : Reg} {p : BitVec 64} (h : writeProduct c x p s = .next t) : ExecOutcome s t :=
  of_conditional_complete h fun _ => keeps_writePair

theorem of_writeDivision {x : Reg} {d q r : Word} (h : writeDivision c x d q r s = .next t) : ExecOutcome s t := by
  refine of_conditional_complete h fun u hu => ?_
  split at hu
  · cases hu
  · exact keeps_writePair hu

theorem of_storeInstr {w : Width} {u : Bool} {x y : Reg} {off : Word}
    (h : storeInstr c w u x y off s = .next t) : ExecOutcome s t :=
  of_conditional_complete h fun _ => keeps_storeEffect

theorem of_loadInstr {w : Width} {e : Extension} {u : Bool} {x y : Reg} {off : Word}
    (h : loadInstr c w e u x y off s = .next t) : ExecOutcome s t :=
  of_conditional_complete h fun _ => keeps_loadEffect

theorem of_branchTo {a : Word} (h : branchTo c a s = .next t) : ExecOutcome s t :=
  of_conditional_complete h fun _ => keeps_writePc

theorem of_reserved {op : BitVec 7} {vv : BitVec 2} {low : Half} (h : execReserved c op vv low s = .next t) :
    ExecOutcome s t := by
  refine of_conditionally h fun h => ?_
  split at h
  · exact .trap _ h
  · exact .trap _ h

theorem of_intN {n : Half} (h : execIntN c n s = .next t) : ExecOutcome s t := by
  refine of_conditionally h fun h => ?_
  split at h
  · exact .trap _ h
  · exact .interrupt _ h

end ExecOutcome

/-- Every instruction ends in one of those ways. -/
theorem exec_outcome {i : Instr} {s t : State} (h : exec i s = .next t) : ExecOutcome s t := by
  cases i with
  | addXYZ | subXYZ | rotlXYZ | rotrXYZ | andXYZ | orXYZ | xorXYZ | sarXYZ | rotlXYN | rotrXYN | shlXYZ | shrXYZ
  | movXY | notXY | sxbXY | sxwXY | zxbXY | zxwXY | mvhhXY | mvhlXY | mvlhXY | mvllXY | addXN | subXN =>
    exact .of_writeResult h
  | umulXYZ | smulXYZ => exact .of_writeProduct h
  | udivXYZ | sdivXYZ => exact .of_writeDivision h
  | stbXYN | stbuXYN | stbiXYZ | stbuiXYZ | sthXYN | sthuXYN | sthiXYZ | sthuiXYZ | stwXYN | stwuXYN | stwiXYZ
  | stwuiXYZ => exact .of_storeInstr h
  | lwXYN | lwuXYN | lwiXYZ | lwuiXYZ | lzbXYN | lzbuXYN | lzbiXYZ | lzbuiXYZ | lsbXYN | lsbuXYN | lsbiXYZ
  | lsbuiXYZ | lzhXYN | lzhuXYN | lzhiXYZ | lzhuiXYZ | lshXYN | lshuXYN | lshiXYZ | lshuiXYZ | popXY =>
    exact .of_loadInstr h
  | swpXY => exact .of_conditional_complete h fun _ => keeps_swapEffect
  | pushXY => exact .of_conditional_complete h fun _ => keeps_pushEffect
  | cmpXY => exact .of_conditional_next h (keeps_compare ..)
  | cpr0XY | lilN => exact .of_conditional_next h (keeps_setCc0 ..)
  | cpr1XY | lihN => exact .of_conditional_next h (keeps_setCc1 ..)
  | cpr2XY => exact .of_conditional_next h (keeps_setCc2 ..)
  | cpr3XY => exact .of_conditional_next h (keeps_setCc3 ..)
  | movSspY =>
    exact .of_conditionally h fun h => .of_systemOnly h fun system h => by
      cases h
      exact .ssp system _
  | movSpcY =>
    exact .of_conditionally h fun h => .of_systemOnly h fun system h => by
      cases h
      exact .spc system _
  | movXSsp | movXSpc =>
    exact .of_conditionally h fun h => .of_systemOnly h fun _ h => .of_complete h fun _ => keeps_writeReg
  | baN | brN => exact .of_branchTo h
  | callN | callrN => exact .of_conditional_complete h fun _ => keeps_callEffect
  | fcallN | fcallrN => exact .of_conditional_complete h fun _ => keeps_fastCallEffect
  | intN => exact .of_intN h
  | ret => exact .of_conditional_complete h fun _ => keeps_returnEffect
  | fret => exact .of_conditional_complete h fun _ => keeps_fastReturnEffect
  | sleep =>
    exact .of_conditionally h fun h => .of_systemOnly h fun system h => by
      cases h
      exact .wrote (keeps_sleep system)
  | rfi =>
    exact .of_conditionally h fun h => .of_systemOnly h fun system h => .of_complete h fun _ =>
      keeps_returnFromEntry system
  | brk =>
    exact .of_conditionally h fun h => .of_systemOnly h fun _ h => by
      cases h
      exact .wrote (.refl s)
  | reserved c op vv low => exact .of_reserved (vv := vv) (low := low) h
  | reservedCompact => exact .trap _ h

/-! ### Protected mode is confined -/

/-- From protected mode an entry goes to system mode, with the program's `isp` and `pc` kept
(60_exceptions.md R241, R249, R250). -/
theorem entryDone_from_protected {s : State} (hp : s.flagP = true) (index : Byte) {clear set : Half}
    (hset : set.getLsbD 9 = false) :
    (entryDone clear s index set).flagP = false ∧ (entryDone clear s index set).entered = true ∧
      (entryDone clear s index set).ssp = s.isp ∧ (entryDone clear s index set).spc = s.pc := by
  refine ⟨?_, rfl, ?_, ?_⟩
  · have cleared : (entrySr clear s).getLsbD 9 = false := by simp [entrySr, hp]
    show (entrySr clear s ||| set).getLsbD 9 = false
    rw [BitVec.getLsbD_or, cleared, hset, Bool.or_false]
  · exact (entryBase_ssp clear s).trans (if_pos hp)
  · exact (entryBase_spc clear s).trans (if_pos hp)

/-- Settles O15, by the outcome of the instruction: an entry leaves protected mode, writes that stand keep its
context registers and bits 8 to 12 of `sr`; the other outcomes are of system mode. -/
theorem protectedModeIsConfined : Obligations.ProtectedModeIsConfined := by
  intro i s t hp h
  have not_system (hs : s.flagP = false) : False := Bool.false_ne_true (hs.symm.trans hp)
  cases exec_outcome h with
  | trap k hk =>
    obtain ⟨-, hs, -⟩ | ⟨-, -, rfl⟩ := trapEntry_eq_next hk
    · exact (not_system hs).elim
    · obtain ⟨hq, frame⟩ := entryDone_from_protected hp k.index (clear := 0) (set := srT) rfl
      exact ⟨fun hq' => absurd (hq.symm.trans hq') Bool.false_ne_true, fun _ => frame⟩
  | interrupt k hk =>
    obtain ⟨-, rfl⟩ := enter_eq_next hk
    obtain ⟨hq, frame⟩ := entryDone_from_protected hp k (clear := srF) (set := srI) rfl
    exact ⟨fun hq' => absurd (hq.symm.trans hq') Bool.false_ne_true, fun _ => frame⟩
  | wrote keeps =>
    exact ⟨fun _ => ⟨keeps.ssp, keeps.spc, keeps.control hp⟩,
      fun hq => absurd (hq.symm.trans (keeps.flagP hp)) Bool.false_ne_true⟩
  | switched hs => exact (not_system hs).elim
  | ssp hs => exact (not_system hs).elim
  | spc hs => exact (not_system hs).elim

/-! ### What instructions and entries keep -/

/-- `t` is `s` after instructions and entries: `pc` stays aligned, `sr` legal, memory canonical; the parameters, the
coming inputs and the record of the reset line are untouched. -/
structure RunKeeps (s t : State) : Prop where
  pcAligned : s.pcAligned → t.pcAligned
  srLegal : s.srLegal → t.srLegal
  memCanonical : s.memCanonical → t.memCanonical
  cfg : t.cfg = s.cfg
  env : t.env = s.env
  inReset : t.inReset = s.inReset

theorem RunKeeps.trans {s t u : State} (h : RunKeeps s t) (k : RunKeeps t u) : RunKeeps s u :=
  ⟨k.pcAligned ∘ h.pcAligned, k.srLegal ∘ h.srLegal, k.memCanonical ∘ h.memCanonical, k.cfg.trans h.cfg,
    k.env.trans h.env, k.inReset.trans h.inReset⟩

theorem EffectKeeps.runKeeps {s t : State} (h : EffectKeeps s t) : RunKeeps s t :=
  ⟨h.pcAligned, h.srLegal, h.memCanonical, h.cfg, h.env, h.inReset⟩

theorem runKeeps_advance (s : State) : RunKeeps s s.advance :=
  ⟨fun h => (misaligned4_add4 s.pc).trans h, id, id, rfl, rfl, rfl⟩

/-- A context switch that is not refused brings an aligned `spc` into `pc` (60_exceptions.md R241, R264). -/
theorem runKeeps_contextSwitch_protected {s t : State} (h : contextSwitch .protected_ s = .next t) :
    RunKeeps s t := by
  cases hs : s.spcMisaligned with
  | true =>
    rw [contextSwitch_refused _ hs] at h
    cases h
  | false =>
    rw [contextSwitch_protected hs] at h
    cases h
    exact ⟨fun _ => hs, fun legal => legal_or legal rfl, id, rfl, rfl, rfl⟩

/-- An entry leaves a legal `sr` if the bits it sets are implemented (60_exceptions.md R249, R250). -/
theorem entrySr_legal {s : State} (legal : s.srLegal) (clear : Half) : entrySr clear s &&& ~~~srMask = 0 := by
  unfold entrySr
  split
  · exact legal_and (legal_and legal _) _
  · exact legal_and legal _

theorem runKeeps_enter {index : Byte} {clear set : Half} {s t : State} (hset : set &&& ~~~srMask = 0)
    (h : enter index clear set s = .next t) : RunKeeps s t := by
  obtain ⟨ready, rfl⟩ := enter_eq_next h
  exact ⟨fun _ => ready.aligned, fun legal => legal_or (entrySr_legal legal clear) hset,
    fun canonical => entryMem_wf canonical clear, entryBase_cfg clear s, entryBase_env clear s,
    entryBase_inReset clear s⟩

theorem runKeeps_interruptEntry {k : Byte} {s t : State} (h : interruptEntry k s = .next t) : RunKeeps s t :=
  runKeeps_enter rfl h

theorem runKeeps_trapEntry {k : Trap} {s t : State} (h : trapEntry k s = .next t) : RunKeeps s t := by
  unfold trapEntry at h
  split at h
  · cases h
    exact ⟨id, fun legal => legal_or legal rfl, id, rfl, rfl, rfl⟩
  · exact runKeeps_enter rfl h

theorem runKeeps_exec {i : Instr} {s t : State} (h : exec i s = .next t) : RunKeeps s t := by
  cases exec_outcome h with
  | trap k hk => exact runKeeps_trapEntry hk
  | interrupt k hk => exact runKeeps_interruptEntry hk
  | wrote keeps => exact keeps.runKeeps
  | switched _ keeps hs => exact keeps.runKeeps.trans (runKeeps_contextSwitch_protected hs)
  | ssp => exact ⟨id, id, id, rfl, rfl, rfl⟩
  | spc => exact ⟨id, id, id, rfl, rfl, rfl⟩

theorem runKeeps_execFetched {f : Fetched} {s t : State} (h : execFetched f s = .next t) : RunKeeps s t := by
  cases f with
  | single i => exact runKeeps_exec h
  | pair i1 i2 =>
    obtain ⟨s1, first, second⟩ := andThen_eq_next h
    have keeps := runKeeps_exec first
    split at second
    · cases second
      exact keeps
    · exact keeps.trans (runKeeps_exec second)

/-- The halted check, then one word or the trap of its fetch (40_conditional_execution.md R90). -/
theorem runKeeps_runWord {s t : State} (h : runWord s = .next t) : RunKeeps s t := by
  unfold runWord at h
  split at h
  · cases h
    exact (EffectKeeps.refl s).runKeeps
  · split at h
    · exact (runKeeps_advance s).trans (runKeeps_trapEntry h)
    · exact (runKeeps_advance s).trans (runKeeps_execFetched h)

/-! ### What a step does, by the reset line -/

theorem step_eq (s : State) :
    step s = andThen (cycleUnder s.inputs s.beginStep) fun t => .next (t.setEntered false) := rfl

/-- While the line is low nothing but its record changes (70_reset_and_hazards.md R292). -/
theorem cycleUnder_resetLow {e : Env} (low : e.resetN = false) (s : State) :
    cycleUnder e s = .next (s.setInReset true) := by
  rw [cycleUnder, low, Bool.not_false, if_pos rfl]

theorem cycleUnder_resetEnds {e : Env} {s : State} (high : e.resetN = true) (was : s.inReset = true) :
    cycleUnder e s = resetSequence s := by
  rw [cycleUnder, high, was]
  rfl

/-- Away from reset: an NMI, a request that `I` lets through, or one word, in this order
(40_conditional_execution.md R90, 60_exceptions.md R268). -/
theorem cycleUnder_running {e : Env} {s : State} (high : e.resetN = true) (was : s.inReset = false) :
    cycleUnder e s =
      if e.nmi then interruptEntry s.cfg.nmiIndex s
      else
        match e.irq with
        | some i => if s.flagI then runWord s else interruptEntry i s
        | none => runWord s := by
  rw [cycleUnder, high, was]
  rfl

theorem runKeeps_cycleUnder {e : Env} {s t : State} (high : e.resetN = true) (was : s.inReset = false)
    (h : cycleUnder e s = .next t) : RunKeeps s t := by
  rw [cycleUnder_running high was] at h
  split at h
  · exact runKeeps_interruptEntry h
  · split at h
    · split at h
      · exact runKeeps_runWord h
      · exact runKeeps_interruptEntry h
    · exact runKeeps_runWord h

/-- A reset vector that can be read and is aligned becomes `pc` (70_reset_and_hazards.md R290, R293). -/
theorem resetSequence_ready {s : State} (ok : accessOk s.cfg .read .word 0 = true)
    (aligned : misaligned4 (s.wordAt 0) = false) : resetSequence s = .next (s.cleared.setPc (s.wordAt 0)) := by
  have read : memRead s .read .word 0 = .ok (s.wordAt 0) := memRead_ok rfl ok
  simp only [resetSequence, read, aligned, Bool.false_eq_true, if_false]

theorem resetSequence_denied {s : State} (denied : accessOk s.cfg .read .word 0 = false) :
    resetSequence s = .fault .resetVectorRead := by
  have read : memRead s .read .word 0 = .error .access := memRead_denied rfl denied
  simp only [resetSequence, read]

theorem resetSequence_misaligned {s : State} (ok : accessOk s.cfg .read .word 0 = true)
    (bad : misaligned4 (s.wordAt 0) = true) : resetSequence s = .refused .misalignedResetVector := by
  have read : memRead s .read .word 0 = .ok (s.wordAt 0) := memRead_ok rfl ok
  simp only [resetSequence, read, bad, if_true]

/-- The reset value of `sr` is legal (70_reset_and_hazards.md R290). -/
theorem cleared_srLegal (s : State) : s.cleared.srLegal := by
  rw [State.srLegal, cleared_sr]
  rfl

/-- The only next state of the reset sequence. -/
theorem resetSequence_eq_next {s t : State} (h : resetSequence s = .next t) :
    misaligned4 (s.wordAt 0) = false ∧ t = s.cleared.setPc (s.wordAt 0) := by
  cases ok : accessOk s.cfg .read .word 0 with
  | false =>
    rw [resetSequence_denied ok] at h
    cases h
  | true =>
    cases bad : misaligned4 (s.wordAt 0) with
    | true =>
      rw [resetSequence_misaligned ok bad] at h
      cases h
    | false =>
      rw [resetSequence_ready ok bad] at h
      cases h
      exact ⟨rfl, rfl⟩

/-- Every next state of a step: with the line low only its record is taken; when it rises the reset sequence has run;
otherwise the step has run instructions and entries. At its end the record of an entry is dropped. -/
theorem step_eq_next {s t : State} (h : step s = .next t) :
    (s.inputs.resetN = false ∧ t = (s.beginStep.setInReset true).setEntered false) ∨
      (s.inputs.resetN = true ∧ misaligned4 (s.beginStep.wordAt 0) = false ∧
        t = (s.beginStep.cleared.setPc (s.beginStep.wordAt 0)).setEntered false) ∨
      (s.inputs.resetN = true ∧ s.inReset = false ∧ ∃ u, RunKeeps s.beginStep u ∧ t = u.setEntered false) := by
  obtain ⟨u, hu, ht⟩ := andThen_eq_next (step_eq s ▸ h)
  cases ht
  cases line : s.inputs.resetN with
  | false =>
    rw [cycleUnder_resetLow line] at hu
    cases hu
    exact .inl ⟨rfl, rfl⟩
  | true =>
    cases was : s.inReset with
    | true =>
      rw [cycleUnder_resetEnds (s := s.beginStep) line was] at hu
      obtain ⟨aligned, rfl⟩ := resetSequence_eq_next hu
      exact .inr (.inl ⟨rfl, aligned, rfl⟩)
    | false => exact .inr (.inr ⟨rfl, rfl, u, runKeeps_cycleUnder line was hu, rfl⟩)

/-! ### The statements about every step -/

/-- A state whose `pc` is aligned, `sr` legal and memory canonical meets the invariant at the end of the step, where
the record of an entry is dropped. -/
theorem inv_setEntered {u : State} (aligned : u.pcAligned) (legal : u.srLegal) (canonical : u.memCanonical) :
    (u.setEntered false).Inv where
  pcAligned := by rwa [State.pcAligned, setEntered_pc]
  srLegal := by rwa [State.srLegal, setEntered_sr]
  memCanonical := by rwa [State.memCanonical, setEntered_mem]
  notEntered := setEntered_entered u false

theorem beginStep_inv {s : State} (inv : s.Inv) : s.beginStep.Inv :=
  inv_setEntered (u := s.setEnv s.env.tail) (by rw [State.pcAligned, setEnv_pc]; exact inv.pcAligned)
    (by rw [State.srLegal, setEnv_sr]; exact inv.srLegal)
    (by rw [State.memCanonical, setEnv_mem]; exact inv.memCanonical)

/-- Settles O13, by the three kinds of step: the line low keeps registers and memory, the reset sequence loads an
aligned `pc` and a legal `sr`, and instructions and entries keep the invariant. -/
theorem stepKeepsInvariant : Obligations.StepKeepsInvariant := by
  intro s t inv h
  have begun := beginStep_inv inv
  obtain ⟨-, rfl⟩ | ⟨-, aligned, rfl⟩ | ⟨-, -, u, keeps, rfl⟩ := step_eq_next h
  · apply inv_setEntered
    · rw [State.pcAligned, setInReset_pc]
      exact begun.pcAligned
    · rw [State.srLegal, setInReset_sr]
      exact begun.srLegal
    · rw [State.memCanonical, setInReset_mem]
      exact begun.memCanonical
  · apply inv_setEntered
    · rw [State.pcAligned, setPc_pc]
      exact aligned
    · rw [State.srLegal, setPc_sr]
      exact cleared_srLegal _
    · rw [State.memCanonical, setPc_mem, cleared_mem]
      exact begun.memCanonical
  · exact inv_setEntered (keeps.pcAligned begun.pcAligned) (keeps.srLegal begun.srLegal)
      (keeps.memCanonical begun.memCanonical)

/-- Settles O14, by the three kinds of step. -/
theorem stepKeepsParameters : Obligations.StepKeepsParameters := by
  intro s t h
  obtain ⟨line, rfl⟩ | ⟨line, -, rfl⟩ | ⟨line, was, u, keeps, rfl⟩ := step_eq_next h
  · exact ⟨rfl, rfl, by rw [line]; rfl⟩
  · exact ⟨rfl, rfl, by rw [line]; rfl⟩
  · exact ⟨keeps.cfg, keeps.env, by rw [line]; exact keeps.inReset.trans was⟩

end Sys2Proof.Machine

/-!
PROOFS. The step boundary and the fetch (40_conditional_execution.md R90, 46_compact.md R231, 60_exceptions.md R268),
and the reset (70_reset_and_hazards.md R290 to R293).
-/

namespace Sys2Proof.Machine

/-! ### One word -/

theorem runWord_halted {s : State} (halted : s.flagF = true) : runWord s = .next s := by
  rw [runWord, halted, if_pos rfl]

/-- A fetch that is aligned and accepted runs what the word decodes to, with `pc` advanced. -/
theorem runWord_fetched {s : State} (awake : s.flagF = false) (aligned : s.pcAligned)
    (ok : accessOk s.cfg .fetch .word s.pc = true) :
    runWord s = execFetched (decodeWord (s.wordAt s.pc)) s.advance := by
  have fetched : fetch s = .ok (s.wordAt s.pc) := memRead_ok aligned ok
  simp only [runWord, awake, fetched, Bool.false_eq_true, if_false]

/-- A fetch that fails traps with `pc` advanced (20_memory.md R47). -/
theorem runWord_denied {s : State} (awake : s.flagF = false) (aligned : s.pcAligned)
    (denied : accessOk s.cfg .fetch .word s.pc = false) : runWord s = trapEntry .access s.advance := by
  have fetched : fetch s = .error .access := memRead_denied aligned denied
  simp only [runWord, awake, fetched, Bool.false_eq_true, if_false]

/-- With no event due the step is one word. -/
theorem cycleUnder_noEvent {s : State} (h : s.NoEvent) : cycleUnder s.inputs s.beginStep = runWord s.beginStep := by
  obtain ⟨high, was, nmi, irq⟩ := h
  rw [cycleUnder_running (s := s.beginStep) high was, nmi, if_neg Bool.false_ne_true]
  obtain none | masked := irq
  · rw [none]
  · split
    · exact if_pos masked
    · rfl

/-- Settles O6: the step is the word, the word is the instruction. -/
theorem stepRunsStandardWord : Obligations.StepRunsStandardWord := by
  intro s w i quiet awake aligned ok word single
  refine ⟨rfl, ?_⟩
  rw [step_eq, cycleUnder_noEvent quiet, runWord_fetched (s := s.beginStep) awake aligned ok,
    show s.beginStep.wordAt s.beginStep.pc = w from word, single]
  rfl

/-- Settles O7: after Instruction 1 the record of an entry decides whether Instruction 2 is reached. -/
theorem stepRunsPair : Obligations.StepRunsPair := by
  intro s s1 w i1 i2 quiet awake aligned ok word pair first
  have steps : step s = andThen (if s1.entered then .next s1 else exec i2 s1) fun t => .next (t.setEntered false) := by
    rw [step_eq, cycleUnder_noEvent quiet, runWord_fetched (s := s.beginStep) awake aligned ok,
      show s.beginStep.wordAt s.beginStep.pc = w from word, pair, execFetched, first, andThen_next]
  refine ⟨fun entered => ?_, fun not_entered => ?_⟩
  · rw [steps, if_pos entered, andThen_next]
  · rw [steps, not_entered, if_neg Bool.false_ne_true]

/-- Settles O8. -/
theorem failedFetchTraps : Obligations.FailedFetchTraps := by
  intro s quiet awake aligned denied
  rw [step_eq, cycleUnder_noEvent quiet, runWord_denied (s := s.beginStep) awake aligned denied]

/-- Settles O9, event by event in the order of the step boundary. -/
theorem eventsAtStepBoundary : Obligations.EventsAtStepBoundary := by
  intro s high was
  refine ⟨fun nmi => ?_, fun k nmi irq unmasked => ?_, fun nmi irq halted => ?_⟩
  · rw [step_eq, cycleUnder_running (s := s.beginStep) high was, nmi, if_pos rfl]
    rfl
  · rw [step_eq, cycleUnder_running (s := s.beginStep) high was, nmi, if_neg Bool.false_ne_true, irq]
    simp only [show s.beginStep.flagI = false from unmasked, Bool.false_eq_true, if_false]
  · rw [step_eq, cycleUnder_noEvent ⟨high, was, nmi, irq⟩, runWord_halted (s := s.beginStep) halted]
    rfl

/-! ### Reset -/

/-- After reset every numbered register but `sr` and `pc` reads 0 (70_reset_and_hazards.md R290, R291). -/
theorem reg_cleared (s : State) {j : Reg} (hpc : j ≠ .pc) (hsr : j ≠ .sr) : s.cleared.reg j = 0 := by
  have halves : (0 : Half) ++ (0 : Half) = (0 : Word) := by decide
  cases j
  case pc => exact absurd rfl hpc
  case sr => exact absurd rfl hsr
  case cc10 | cc32 => exact halves
  all_goals rfl

/-- Settles O10: the level of the line and its record choose between waiting and the reset sequence, whose vector
decides how it ends. -/
theorem resetLine : Obligations.ResetLine := by
  refine ⟨fun s low => ?_, fun s high was => ?_⟩
  · rw [step_eq, cycleUnder_resetLow low]
    rfl
  · rw [step_eq, cycleUnder_resetEnds (s := s.beginStep) high was]
    refine ⟨fun ok aligned => ?_, fun denied => ?_, fun ok bad => ?_⟩
    · rw [resetSequence_ready (s := s.beginStep) ok aligned]
      refine ⟨_, rfl, rfl, rfl, fun j hpc hsr => ?_, rfl, rfl, fun _ => rfl, rfl, rfl, rfl, rfl⟩
      rw [reg_setEntered, reg_setPc_ne _ _ _ hpc, reg_cleared _ hpc hsr]
    · rw [resetSequence_denied (s := s.beginStep) denied]
      rfl
    · rw [resetSequence_misaligned (s := s.beginStep) ok bad]
      rfl

/-- Settles O11: the reset state is its own clearing, with nothing listed in memory. -/
theorem resetState : Obligations.ResetState :=
  ⟨fun _ hpc hsr => reg_cleared State.reset hpc hsr, rfl, rfl, rfl, rfl, rfl, rfl, rfl, rfl, fun _ => rfl, rfl,
    rfl, rfl, rfl, .inl rfl⟩

/-- Settles O12. -/
theorem resetMeetsInvariant : Obligations.ResetMeetsInvariant :=
  ⟨rfl, cleared_srLegal State.reset, rfl, rfl⟩

end Sys2Proof.Machine

/-!
PROOFS. The flags of a subtraction (10_state.md R30) and the condition codes on them (40_conditional_execution.md R91
to R96).
-/

namespace Sys2Proof.Machine

/-! ### The bits of a flag word -/

theorem getLsbD_flagWord (z c v n : Bool) :
    (flagWord z c v n).getLsbD 0 = z ∧ (flagWord z c v n).getLsbD 1 = c ∧ (flagWord z c v n).getLsbD 6 = v ∧
      (flagWord z c v n).getLsbD 7 = n := by
  have bits : ∀ z c v n, (flagWord z c v n).getLsbD 0 = z ∧ (flagWord z c v n).getLsbD 1 = c ∧
      (flagWord z c v n).getLsbD 6 = v ∧ (flagWord z c v n).getLsbD 7 = n := by decide
  exact bits z c v n

/-- A flag word is its four flags. -/
theorem flagsOf_and_flags (a b : Word) : flagsOf a b &&& srFlagMask = flagsOf a b := by
  have flags : ∀ z c v n, flagWord z c v n &&& srFlagMask = flagWord z c v n := by decide
  exact flags ..

/-- The exact signed difference does not fit in 32 bits. -/
def SubOverflows (a b : Word) : Prop := a.toInt - b.toInt < -2 ^ 31 ∨ 2 ^ 31 ≤ a.toInt - b.toInt

theorem flagsOf_z (a b : Word) : (flagsOf a b).getLsbD 0 = true ↔ a = b := by
  rw [flagsOf, (getLsbD_flagWord ..).1, beq_iff_eq, sub_eq_zero]

theorem flagsOf_c (a b : Word) : (flagsOf a b).getLsbD 1 = true ↔ b.toNat ≤ a.toNat := by
  rw [flagsOf, (getLsbD_flagWord ..).2.1, decide_eq_true_iff]

/-- `V` is the overflow of the signed difference: the operands' signs differ, and the result's is not the first
operand's. -/
theorem flagsOf_v (a b : Word) : (flagsOf a b).getLsbD 6 = true ↔ SubOverflows a b := by
  have signs : (a.msb != b.msb && (a - b).msb != a.msb) = BitVec.ssubOverflow a b := by
    rw [BitVec.ssubOverflow_eq]
    cases a.msb <;> cases b.msb <;> cases (a - b).msb <;> rfl
  rw [flagsOf, (getLsbD_flagWord ..).2.2.1, signs, BitVec.ssubOverflow, SubOverflows, Bool.or_eq_true,
    decide_eq_true_iff, decide_eq_true_iff]
  exact or_comm

theorem flagsOf_n (a b : Word) : (flagsOf a b).getLsbD 7 = (a - b).msb := by
  rw [flagsOf, (getLsbD_flagWord ..).2.2.2]

theorem flagsOf_n_iff (a b : Word) : (flagsOf a b).getLsbD 7 = true ↔ (a - b).toInt < 0 := by
  rw [flagsOf_n, BitVec.msb_eq_toInt, decide_eq_true_iff]

/-- Settles O20, flag by flag. -/
theorem flagsOfSubtraction : Obligations.FlagsOfSubtraction := by
  intro a b
  have rest : ∀ z c v n, flagWord z c v n &&& 0xFF3C = 0 := by decide
  refine ⟨?_, ?_, ?_, flagsOf_n a b, rest ..⟩
  · rw [Bool.eq_iff_iff, decide_eq_true_iff, flagsOf_z]
  · rw [Bool.eq_iff_iff, decide_eq_true_iff, flagsOf_c]
  · rw [Bool.eq_iff_iff, decide_eq_true_iff, flagsOf_v, SubOverflows]

/-! ### Relations of the operands -/

theorem toInt_bounds (a : Word) : -2 ^ 31 ≤ a.toInt ∧ a.toInt < 2 ^ 31 := ⟨a.le_toInt, a.toInt_lt⟩

/-- The 32-bit difference is the exact one but for a wrap (00_scope.md R5). -/
theorem toInt_sub_wraps (a b : Word) :
    (a - b).toInt = a.toInt - b.toInt ∨ (a - b).toInt = a.toInt - b.toInt + 2 ^ 32 ∨
      (a - b).toInt = a.toInt - b.toInt - 2 ^ 32 := by
  have ha := toInt_bounds a
  have hb := toInt_bounds b
  rw [BitVec.toInt_sub, Int.bmod_def]
  omega

/-- The difference is exact unless it overflows. -/
theorem toInt_sub_ne_iff (a b : Word) : (a - b).toInt ≠ a.toInt - b.toInt ↔ SubOverflows a b := by
  have hr := toInt_bounds (a - b)
  have wraps := toInt_sub_wraps a b
  unfold SubOverflows
  omega

/-- The sign of the exact difference is `N`, flipped if the difference overflows. -/
theorem toInt_lt_iff_flags (a b : Word) : a.toInt < b.toInt ↔ ((a - b).toInt < 0 ↔ ¬ SubOverflows a b) := by
  have ha := toInt_bounds a
  have hb := toInt_bounds b
  have hr := toInt_bounds (a - b)
  have wraps := toInt_sub_wraps a b
  unfold SubOverflows
  omega

theorem toInt_sub_eq_zero_iff (a b : Word) : (a - b).toInt = 0 ↔ a = b := by
  rw [← sub_eq_zero (a := a), ← BitVec.toInt_inj]
  rfl

/-! ### Condition codes -/

/-- `N xor V`, the signed "less" (40_conditional_execution.md R91). -/
theorem flagsOf_less (a b : Word) :
    ((flagsOf a b).getLsbD 7 != (flagsOf a b).getLsbD 6) = true ↔ a.toInt < b.toInt := by
  rw [toInt_lt_iff_flags, ← flagsOf_n_iff, ← flagsOf_v]
  cases (flagsOf a b).getLsbD 7 <;> cases (flagsOf a b).getLsbD 6 <;> decide

/-- Settles O21, code by code: the code's test on the flags is the relation that the flags stand for. -/
theorem conditionsAfterCompare : Obligations.ConditionsAfterCompare := by
  intro a b usesV
  have signed_eq : a.toNat = b.toNat ↔ a.toInt = b.toInt := by rw [BitVec.toNat_inj, BitVec.toInt_inj]
  have difference_eq : a.toNat = b.toNat ↔ (a - b).toInt = 0 := by rw [BitVec.toNat_inj, toInt_sub_eq_zero_iff]
  have exact_iff := toInt_sub_ne_iff a b
  simp only [condHolds, if_true, Bool.false_eq_true, if_false, Bool.and_eq_true, Bool.or_eq_true,
    Bool.not_eq_true', ← Bool.not_eq_true, flagsOf_less, flagsOf_z, flagsOf_c, flagsOf_v, flagsOf_n_iff,
    ← BitVec.toNat_inj, ne_eq, ← exact_iff, true_and, not_not]
  and_intros
  all_goals omega

/-! ### The condition before the instruction -/

/-- A standard instruction is something done under its condition (40_conditional_execution.md R96). -/
theorem exec_conditional {i : Instr} {c : Cond} (h : condOf i = some c) (s : State) :
    ∃ run, exec i s = conditionally c s run := by
  cases i with
  | reservedCompact => cases h
  | reserved c' op vv low =>
    cases Option.some.inj h
    simp only [encodeFields, Fields.cond, cond_bits]
    exact ⟨_, rfl⟩
  | _ =>
    have e := Option.some.inj h
    simp only [encodeFields, fieldsXYZ, fieldsXYN, fieldsXY, fieldsXN, fieldsN, fieldsOf_cond] at e
    subst e
    exact ⟨_, rfl⟩

/-- Settles O22: the condition is tested before the instruction does anything. -/
theorem conditionBeforeExecution : Obligations.ConditionBeforeExecution := by
  intro i s c h
  obtain ⟨run, e⟩ := exec_conditional h s
  refine ⟨fun reserved => ?_, fun legal false_ => ?_⟩
  · rw [e, conditionally, reserved, if_pos rfl]
  · rw [e, conditionally, legal, false_, if_neg Bool.false_ne_true, if_neg Bool.false_ne_true]

end Sys2Proof.Machine

/-!
PROOFS. What the operand values of 41_three_operand_alu.md and 43_two_operand.md are as numbers and as bits.
-/

namespace Sys2Proof.Machine

/-! ### Immediates (30_encoding.md R68) -/

/-- A field extended to 32 bits, by sign or by zeros, is its signed or unsigned value modulo 2^32. -/
theorem extend_eq_ofInt {n : Nat} (signed : Bool) (v : BitVec n) :
    (if signed then v.signExtend 32 else v.setWidth 32) =
      BitVec.ofInt 32 (if signed then v.toInt else (v.toNat : Int)) := by
  cases signed with
  | true => rfl
  | false => exact BitVec.eq_of_toNat_eq (by simp)

theorem imm12_eq (cfg : Config) (n : BitVec 12) :
    imm12 cfg n = BitVec.ofInt 32 (if cfg.imm12Signed then n.toInt else (n.toNat : Int)) :=
  extend_eq_ofInt cfg.imm12Signed n

/-! ### Sums and differences modulo 2^32 -/

theorem toNat_sub_int (a b : Word) : ((a - b).toNat : Int) = (a.toNat - b.toNat : Int) % 2 ^ 32 := by
  rw [BitVec.toNat_sub]
  omega

theorem toNat_add_ofInt (a : Word) (k : Int) : ((a + BitVec.ofInt 32 k).toNat : Int) = (a.toNat + k) % 2 ^ 32 := by
  rw [BitVec.toNat_add, BitVec.toNat_ofInt]
  omega

theorem toNat_sub_ofInt (a : Word) (k : Int) : ((a - BitVec.ofInt 32 k).toNat : Int) = (a.toNat - k) % 2 ^ 32 := by
  rw [toNat_sub_int, BitVec.toNat_ofInt]
  omega

/-! ### Rotations (41_three_operand_alu.md R107, R108; decision D8) -/

theorem getLsbD_rotl (a : Word) (n : Nat) {k : Nat} (hk : k < 32) :
    (rotl a n).getLsbD ((k + n) % 32) = a.getLsbD k := by
  rw [rotl, BitVec.getLsbD_rotateLeft, Nat.mod_mod]
  by_cases wrapped : (k + n) % 32 < n % 32
  · rw [decide_eq_true wrapped, cond_true, show 32 - n % 32 + (k + n) % 32 = k by omega]
  · rw [decide_eq_false wrapped, cond_false, decide_eq_true (Nat.mod_lt _ (by decide)), Bool.true_and,
      show (k + n) % 32 - n % 32 = k by omega]

theorem getLsbD_rotr (a : Word) (n : Nat) {k : Nat} (hk : k < 32) :
    (rotr a n).getLsbD k = a.getLsbD ((k + n) % 32) := by
  rw [rotr, BitVec.getLsbD_rotateRight, Nat.mod_mod]
  by_cases direct : k < 32 - n % 32
  · rw [decide_eq_true direct, cond_true, show n % 32 + k = (k + n) % 32 by omega]
  · rw [decide_eq_false direct, cond_false, decide_eq_true hk, Bool.true_and,
      show k - (32 - n % 32) = (k + n) % 32 by omega]

/-! ### Shifts (41_three_operand_alu.md R112, R115, R116; decision D8) -/

/-- From 31 on, an arithmetic shift leaves only the sign. -/
theorem toInt_div_pow_saturates (a : Word) {k : Nat} (hk : 31 ≤ k) : a.toInt / 2 ^ k = a.toInt / 2 ^ 31 := by
  have bounds := toInt_bounds a
  have large : (2 : Int) ^ 31 ≤ 2 ^ k := pow_le_pow_right₀ (by decide) hk
  obtain neg | nonneg := Int.lt_or_le a.toInt 0
  · rw [Int.ediv_eq_neg_one_of_neg_of_le neg (by omega), Int.ediv_eq_neg_one_of_neg_of_le neg (by omega)]
  · rw [Int.ediv_eq_zero_of_lt nonneg (by omega), Int.ediv_eq_zero_of_lt nonneg (by omega)]

/-- A quotient by a power of 2 is no larger than the dividend. -/
theorem toInt_ofInt_div_pow (a : Word) (k : Nat) : (BitVec.ofInt 32 (a.toInt / 2 ^ k)).toInt = a.toInt / 2 ^ k := by
  obtain ⟨low, high⟩ := toInt_bounds a
  have pos : (0 : Int) < 2 ^ k := Int.pow_pos (by decide)
  have scaled : (2 : Int) ^ 31 ≤ 2 ^ 31 * 2 ^ k := le_mul_of_one_le_right (by decide) pos
  refine BitVec.toInt_ofInt_eq_self (by decide) ((Int.le_ediv_iff_mul_le pos).2 ?_) (Int.ediv_lt_of_lt_mul pos ?_)
  · exact (Int.neg_mul _ _).trans_le ((neg_le_neg scaled).trans low)
  · exact high.trans_le scaled

theorem toInt_sar (a : Word) (k : Nat) : (sar a k).toInt = a.toInt / 2 ^ k := by
  rw [sar, toInt_ofInt_div_pow]
  split
  · rw [toInt_div_pow_saturates a (by omega : 31 ≤ k)]
  · rfl

theorem toNat_shl (a : Word) (k : Nat) : (shl a k).toNat = a.toNat * 2 ^ k % 2 ^ 32 := by
  unfold shl
  split
  next large =>
    exact (Nat.mod_eq_zero_of_dvd (Nat.dvd_mul_left_of_dvd (Nat.pow_dvd_pow 2 large) _)).symm
  · rw [BitVec.toNat_shiftLeft, Nat.shiftLeft_eq]

theorem toNat_shr (a : Word) (k : Nat) : (shr a k).toNat = a.toNat / 2 ^ k := by
  unfold shr
  split
  next large =>
    have below : a.toNat < 2 ^ k := a.isLt.trans_le (Nat.pow_le_pow_right (by decide) large)
    exact (Nat.div_eq_of_lt below).symm
  · rw [BitVec.toNat_ushiftRight, Nat.shiftRight_eq_div_pow]

/-! ### Products (41_three_operand_alu.md R103, R104) -/

theorem toNat_lowWord (p : BitVec 64) : (lowWord p).toNat = p.toNat % 2 ^ 32 := by
  rw [lowWord, BitVec.extractLsb'_toNat, Nat.shiftRight_zero]

theorem toNat_highWord (p : BitVec 64) : (highWord p).toNat = p.toNat / 2 ^ 32 := by
  rw [highWord, BitVec.extractLsb'_toNat, Nat.shiftRight_eq_div_pow]
  omega

theorem toNat_unsignedProduct (a b : Word) : (unsignedProduct a b).toNat = a.toNat * b.toNat := by
  have below : a.toNat * b.toNat < 2 ^ 32 * 2 ^ 32 := Nat.mul_lt_mul'' a.isLt b.isLt
  rw [unsignedProduct, BitVec.toNat_ofNat]
  exact Nat.mod_eq_of_lt below

theorem toInt_signedProduct (a b : Word) : (signedProduct a b).toInt = a.toInt * b.toInt := by
  have ha := toInt_bounds a
  have hb := toInt_bounds b
  have bound : |a.toInt * b.toInt| ≤ 2 ^ 31 * 2 ^ 31 := by
    rw [abs_mul]
    exact mul_le_mul (abs_le.2 ⟨ha.1, ha.2.le⟩) (abs_le.2 ⟨hb.1, hb.2.le⟩) (abs_nonneg _) (by decide)
  obtain ⟨low, high⟩ := abs_le.1 bound
  exact BitVec.toInt_ofInt_eq_self (by decide) (by omega) (by omega)

theorem toInt_highWord (p : BitVec 64) : (highWord p).toInt = p.toInt / 2 ^ 32 := by
  have small := p.isLt
  rw [BitVec.toInt_eq_toNat_cond, BitVec.toInt_eq_toNat_cond, toNat_highWord]
  omega

theorem toNat_lowWord_int (p : BitVec 64) : ((lowWord p).toNat : Int) = p.toInt % 2 ^ 32 := by
  rw [BitVec.toInt_eq_toNat_cond, toNat_lowWord]
  omega

/-! ### Quotients and remainders (41_three_operand_alu.md R105, R106; decision D10) -/

theorem toNat_unsignedQuotient (a b : Word) : (unsignedQuotient a b).toNat = a.toNat / b.toNat :=
  Nat.mod_eq_of_lt ((Nat.div_le_self _ _).trans_lt a.isLt)

theorem toNat_unsignedRemainder (a b : Word) : (unsignedRemainder a b).toNat = a.toNat % b.toNat :=
  Nat.mod_eq_of_lt ((Nat.mod_le _ _).trans_lt a.isLt)

/-- The remainder is smaller than the divisor. -/
theorem abs_tmod_lt (a : Int) {b : Int} (hb : b ≠ 0) : |a.tmod b| < |b| := by
  rw [Int.abs_eq_natAbs, Int.abs_eq_natAbs, Int.natAbs_tmod]
  exact Int.ofNat_lt.2 (Nat.mod_lt _ (Int.natAbs_pos.2 hb))

/-- The remainder has the sign of the dividend. -/
theorem tmod_pos_iff (a b : Int) : a.tmod b = 0 ∨ (0 < a.tmod b ↔ 0 < a) := by
  have of_nonneg := Int.tmod_nonneg (a := a) b
  have of_nonpos := Int.tmod_nonneg (a := -a) b
  rw [Int.neg_tmod] at of_nonpos
  omega

theorem toInt_signedRemainder (a : Word) {b : Word} (hb : b ≠ 0) :
    (signedRemainder a b).toInt = a.toInt.tmod b.toInt := by
  have divisor : b.toInt ≠ 0 := fun e => hb (BitVec.toInt_inj.1 e)
  have bounds := toInt_bounds b
  have small : |a.toInt.tmod b.toInt| < 2 ^ 31 :=
    (abs_tmod_lt a.toInt divisor).trans_le (abs_le.2 ⟨bounds.1, bounds.2.le⟩)
  obtain ⟨low, high⟩ := abs_lt.1 small
  exact BitVec.toInt_ofInt_eq_self (by decide) (by omega) (by omega)

/-! ### Parts of a register (43_two_operand.md R175 to R178, R183 to R186) -/

theorem toInt_sext8 (v : Word) : (sext8 v).toInt = (v.extractLsb' 0 8).toInt := by
  rw [sext8, BitVec.toInt_signExtend_of_le (by decide), BitVec.setWidth_eq_extractLsb' (by decide)]

theorem toInt_sext16 (v : Word) : (sext16 v).toInt = (v.extractLsb' 0 16).toInt := by
  rw [sext16, BitVec.toInt_signExtend_of_le (by decide), BitVec.setWidth_eq_extractLsb' (by decide)]

theorem toNat_zext8 (v : Word) : (zext8 v).toNat = v.toNat % 2 ^ 8 := by
  rw [zext8, BitVec.toNat_setWidth, BitVec.toNat_setWidth]
  omega

theorem toNat_zext16 (v : Word) : (zext16 v).toNat = v.toNat % 2 ^ 16 := by
  rw [zext16, BitVec.toNat_setWidth, BitVec.toNat_setWidth]
  omega

theorem toNat_highHalf (v : Word) : (highHalf v).toNat = v.toNat / 2 ^ 16 := by
  rw [highHalf, BitVec.extractLsb'_toNat, Nat.shiftRight_eq_div_pow]
  omega

theorem toNat_lowHalf (v : Word) : (lowHalf v).toNat = v.toNat % 2 ^ 16 := by
  rw [lowHalf, BitVec.extractLsb'_toNat, Nat.shiftRight_zero]

theorem toNat_joinHalves (high low : Half) : (joinHalves high low).toNat = high.toNat * 2 ^ 16 + low.toNat := by
  rw [joinHalves, BitVec.toNat_append, ← Nat.shiftLeft_add_eq_or_of_lt low.isLt, Nat.shiftLeft_eq]

/-- The two halves of joined halves are the halves joined. -/
theorem joinHalves_parts (high low : Half) :
    (joinHalves high low).toNat / 2 ^ 16 = high.toNat ∧ (joinHalves high low).toNat % 2 ^ 16 = low.toNat := by
  rw [toNat_joinHalves]
  omega

end Sys2Proof.Machine

/-!
PROOFS. Register writes (10_state.md R16, R21, R27) and the instructions that end in them (41_three_operand_alu.md,
43_two_operand.md, 44_one_operand.md R201, R202, R205, R206).
-/

namespace Sys2Proof.Machine

/-! ### What a write to each register number does -/

theorem lowHalf_eq_setWidth (v : Word) : lowHalf v = v.setWidth 16 :=
  (BitVec.setWidth_eq_extractLsb' (by decide)).symm

/-- A plain register reads back as written. -/
theorem reg_setReg_plain (s : State) {x : Reg} (hx : x.plain = true) (v : Word) : (s.setReg x v).reg x = v :=
  reg_setReg_same s x v (Reg.ne_sr_of_plain hx)

/-- Bits 8 to 12 decide what two values have in common under the mask of `I`, `P`, `S`, `T`, `F`. -/
theorem and_control_eq_iff (a b : Half) :
    a &&& srControlMask = b &&& srControlMask ↔ a.extractLsb' 8 5 = b.extractLsb' 8 5 := by
  have masked (c : Half) : c &&& srControlMask = (c.extractLsb' 8 5 ++ 0#8).setWidth 16 := by
    ext k hk
    simp only [srControlMask, BitVec.getElem_and, BitVec.getElem_setWidth, BitVec.getLsbD_append,
      BitVec.getLsbD_extractLsb']
    interval_cases k <;> simp
  have bits (c : Half) : (c &&& srControlMask).extractLsb' 8 5 = c.extractLsb' 8 5 := by
    ext k hk
    simp only [srControlMask, BitVec.getElem_extractLsb', BitVec.getLsbD_and]
    interval_cases k <;> simp
  refine ⟨fun h => ?_, fun h => ?_⟩
  · rw [← bits a, h, bits b]
  · rw [masked a, h, ← masked b]

/-- Bits 8 to 12 of a value written to `sr` are all implemented. -/
theorem written_control (v : Word) : (lowHalf v &&& srMask).extractLsb' 8 5 = v.extractLsb' 8 5 := by
  ext k hk
  simp only [srMask, lowHalf, BitVec.getElem_extractLsb', BitVec.getLsbD_and, BitVec.getLsbD_extractLsb']
  interval_cases k <;> simp

/-- `sr` after a write in protected mode: only the flags are taken (10_state.md R27). -/
def protectedSr (v : Word) (s : State) : Half := (s.sr &&& srControlMask) ||| (lowHalf v &&& srMask &&& srFlagMask)

theorem writeSr_protected {v : Word} {s : State} (prot : s.flagP = true)
    (allowed : s.flagS = false ∨ v.extractLsb' 8 5 = s.sr.extractLsb' 8 5) :
    writeSr v s = .ok (s.setSr (protectedSr v s)) := by
  have unlocked : ¬ (lowHalf v &&& srMask &&& srControlMask ≠ s.sr &&& srControlMask ∧ s.flagS = true) := by
    rintro ⟨differ, locked⟩
    rw [ne_eq, and_control_eq_iff, written_control] at differ
    exact allowed.elim (fun unlocked => Bool.false_ne_true (unlocked.symm.trans locked)) differ
  simp only [writeSr, prot, if_true, if_neg unlocked, protectedSr]

theorem writeSr_traps {v : Word} {s : State} (prot : s.flagP = true) (locked : s.flagS = true)
    (differ : v.extractLsb' 8 5 ≠ s.sr.extractLsb' 8 5) : writeSr v s = .error .srWrite := by
  have changed : lowHalf v &&& srMask &&& srControlMask ≠ s.sr &&& srControlMask := by
    rwa [ne_eq, and_control_eq_iff, written_control]
  simp only [writeSr, prot, if_true, if_pos (And.intro changed locked)]

theorem protectedSr_control (v : Word) (s : State) : protectedSr v s &&& 0x1F00 = s.sr &&& 0x1F00 := by
  ext k hk
  simp only [protectedSr, srControlMask, srMask, srFlagMask, BitVec.getElem_and, BitVec.getElem_or]
  interval_cases k <;> simp

theorem protectedSr_rest (v : Word) (s : State) : protectedSr v s &&& 0xE0FF = v.setWidth 16 &&& 0x00C3 := by
  rw [protectedSr, lowHalf_eq_setWidth]
  ext k hk
  simp only [srControlMask, srMask, srFlagMask, BitVec.getElem_and, BitVec.getElem_or]
  interval_cases k <;> simp

/-- Settles O19, by the register number, and for `sr` by the mode and the lock `S`. -/
theorem registerWriteRule : Obligations.RegisterWriteRule := by
  intro s v
  refine ⟨fun x hx => ⟨_, writeReg_plain s v hx, reg_setReg_plain s hx v, changes_setReg s x v⟩,
    fun aligned => ⟨_, writePc_aligned s aligned, rfl, changes_setPc s v⟩, writePc_misaligned s,
    fun system => ⟨_, writeSr_system v system, ?_, changes_setSr s _⟩, writeSr_traps,
    fun prot allowed => ⟨_, writeSr_protected prot allowed, protectedSr_control v s, protectedSr_rest v s,
      changes_setSr s _⟩⟩
  rw [setSr_sr, lowHalf_eq_setWidth]
  rfl

/-! ### Writes in order -/

theorem writeAll_cons {x : Reg} {v : Word} {s u : State} (h : writeReg x v s = .ok u) (ws : List (Reg × Word)) :
    writeAll ((x, v) :: ws) s = writeAll ws u := by
  simp only [writeAll, h]

theorem writeAll_cons_error {x : Reg} {v : Word} {s : State} {t : Trap} (h : writeReg x v s = .error t)
    (ws : List (Reg × Word)) : writeAll ((x, v) :: ws) s = .error t := by
  simp only [writeAll, h]

theorem writeAll_one (x : Reg) (v : Word) (s : State) : writeAll [(x, v)] s = writeReg x v s := by
  cases h : writeReg x v s with
  | error t => exact writeAll_cons_error h []
  | ok u => exact writeAll_cons h []

/-- Two writes are the second from what the first left. -/
theorem writeAll_two (x y : Reg) (v w : Word) (s : State) :
    writeAll [(x, v), (y, w)] s =
      match writeReg x v s with
      | .error t => .error t
      | .ok u => writeReg y w u := by
  cases h : writeReg x v s with
  | error t => exact writeAll_cons_error h _
  | ok u => exact (writeAll_cons h _).trans (writeAll_one y w u)

theorem writePair_eq_writeAll (x : Reg) (v w : Word) (s : State) :
    writePair x v w s = writeAll [(x, v), (.cc10, w)] s := by
  rw [writeAll_two]
  rfl

theorem swapEffect_eq_writeAll (x y : Reg) (s : State) :
    swapEffect x y s = writeAll [(x, s.reg y), (y, s.reg x)] s := by
  rw [writeAll_two]
  rfl

/-- Plain writes before the last one never trap. -/
theorem writeAll_cons_plain {x : Reg} (hx : x.plain = true) (v : Word) (ws : List (Reg × Word)) (s : State) :
    writeAll ((x, v) :: ws) s = writeAll ws (s.setReg x v) :=
  writeAll_cons (writeReg_plain s v hx) ws

/-! ### The instructions of the table `registerWrites` -/

section Shapes

variable {s : State} {c : Cond} (hc : s.Runs c)
include hc

theorem writeResult_runs (x : Reg) (v : Word) : writeResult c x v s = complete s (writeAll [(x, v)] s) := by
  rw [writeResult, conditionally_runs hc, writeAll_one]

theorem writeProduct_runs (x : Reg) (p : BitVec 64) :
    writeProduct c x p s = complete s (writeAll [(x, lowWord p), (.cc10, highWord p)] s) := by
  rw [writeProduct, conditionally_runs hc, writePair_eq_writeAll]

theorem writeDivision_runs (x : Reg) {d : Word} (hd : d ≠ 0) (q r : Word) :
    writeDivision c x d q r s = complete s (writeAll [(x, q), (.cc10, r)] s) := by
  rw [writeDivision, conditionally_runs hc, if_neg hd, writePair_eq_writeAll]

theorem writeDivision_by_zero (x : Reg) (q r : Word) : writeDivision c x 0 q r s = trapEntry .math s := by
  rw [writeDivision, conditionally_runs hc, if_pos rfl, complete_error]

theorem execSwpXY_runs (x y : Reg) :
    execSwpXY c x y s = complete s (writeAll [(x, s.reg y), (y, s.reg x)] s) := by
  rw [execSwpXY, conditionally_runs hc, swapEffect_eq_writeAll]

theorem branchTo_runs (a : Word) : branchTo c a s = complete s (writeAll [(.pc, a)] s) := by
  rw [branchTo, conditionally_runs hc, writeAll_one]
  rfl

theorem fastCall_runs (a : Word) :
    conditionally c s (complete s (fastCallEffect a s)) =
      complete s (writeAll [(.r8, s.dsp), (.r9, s.pc), (.pc, a)] s) := by
  rw [conditionally_runs hc, writeAll_cons_plain rfl, writeAll_cons_plain rfl, writeAll_one]
  rfl

theorem execFret_runs : execFret c s = complete s (writeAll [(.dsp, s.r8), (.pc, s.r9)] s) := by
  rw [execFret, conditionally_runs hc, writeAll_cons_plain rfl, writeAll_one]
  rfl

theorem contextRead_runs (system : s.flagP = false) (x : Reg) (v : Word) :
    conditionally c s (systemOnly .protection s (complete s (writeReg x v s))) =
      complete s (writeAll [(x, v)] s) := by
  rw [conditionally_runs hc, systemOnly_system system, writeAll_one]

end Shapes

/-- An instruction of the table makes the writes of its row and ends (43_two_operand.md R170). -/
theorem exec_writes {i : Instr} {s : State} {c : Cond} {ws : List (Reg × Word)}
    (row : registerWrites i s = some (c, ws)) (hc : s.Runs c) : exec i s = complete s (writeAll ws s) := by
  cases i with
  | addXYZ | subXYZ | rotlXYZ | rotrXYZ | andXYZ | orXYZ | xorXYZ | sarXYZ | rotlXYN | rotrXYN | shlXYZ | shrXYZ
  | movXY | notXY | sxbXY | sxwXY | zxbXY | zxwXY | mvhhXY | mvhlXY | mvlhXY | mvllXY | addXN | subXN =>
    obtain ⟨rfl, rfl⟩ := Prod.mk.inj (Option.some.inj row)
    exact writeResult_runs hc _ _
  | umulXYZ | smulXYZ =>
    obtain ⟨rfl, rfl⟩ := Prod.mk.inj (Option.some.inj row)
    exact writeProduct_runs hc _ _
  | udivXYZ c' x y z | sdivXYZ c' x y z =>
    simp only [registerWrites] at row
    split at row
    · cases row
    · next divisor =>
      obtain ⟨rfl, rfl⟩ := Prod.mk.inj (Option.some.inj row)
      exact writeDivision_runs hc _ divisor _ _
  | swpXY =>
    obtain ⟨rfl, rfl⟩ := Prod.mk.inj (Option.some.inj row)
    exact execSwpXY_runs hc _ _
  | movXSsp | movXSpc =>
    simp only [registerWrites] at row
    split at row
    · cases row
    · next system =>
      obtain ⟨rfl, rfl⟩ := Prod.mk.inj (Option.some.inj row)
      exact contextRead_runs hc (Bool.eq_false_iff.2 system) _ _
  | baN | brN =>
    obtain ⟨rfl, rfl⟩ := Prod.mk.inj (Option.some.inj row)
    exact branchTo_runs hc _
  | fcallN | fcallrN =>
    obtain ⟨rfl, rfl⟩ := Prod.mk.inj (Option.some.inj row)
    exact fastCall_runs hc _
  | fret =>
    obtain ⟨rfl, rfl⟩ := Prod.mk.inj (Option.some.inj row)
    exact execFret_runs hc
  | _ => cases row

/-- Settles O34: the instruction is the end of its writes. -/
theorem registerWritesInOrder : Obligations.RegisterWritesInOrder := by
  intro i s c ws row hc
  rw [exec_writes row hc]
  exact complete_endsAs s _

/-- Settles O29. -/
theorem divideByZeroTraps : Obligations.DivideByZeroTraps := by
  intro s c x y z hc zero
  have traps (q r : Word) : writeDivision c x (s.reg z) q r s = trapEntry .math s := by
    rw [zero]
    exact writeDivision_by_zero hc x q r
  exact ⟨traps _ _, traps _ _⟩

/-! ### One write, by its destination -/

theorem exec_write {i : Instr} {s : State} {c : Cond} {x : Reg} {v : Word}
    (row : registerWrites i s = some (c, [(x, v)])) (hc : s.Runs c) : exec i s = complete s (writeReg x v s) := by
  rw [exec_writes row hc, writeAll_one]

/-- Settles O35: the write is `WritePC`, which leaves the mode alone. -/
theorem pcDestination : Obligations.PcDestination := by
  intro i s c v row hc
  have run : exec i s = complete s (writePc v s) := exec_write row hc
  refine ⟨fun aligned => ?_, fun misaligned => ?_⟩
  · rw [run, writePc_aligned s aligned]
    exact ⟨_, complete_same rfl, rfl, changes_setPc s v⟩
  · rw [run, writePc_misaligned s misaligned, complete_error]

/-- A switch from a state with another `sr` is a switch: the switch sets `sr` itself. -/
theorem Switched.of_setSr {v n : Half} {s t : State} (h : Switched v (s.setSr n) t) : Switched v s t where
  sr := h.sr
  isp := h.isp
  ssp := h.ssp
  pc := h.pc
  spc := h.spc
  regs j hj := (h.regs j hj).trans (reg_setSr_ne s n j fun e => hj (by simp [e]))
  mem := h.mem
  cfg := h.cfg
  env := h.env
  inReset := h.inReset
  entered := h.entered

/-- The mode that a value written to `sr` in system mode asks for is its bit 9. -/
theorem flagP_written (s : State) (v : Word) : (s.setSr (lowHalf v &&& srMask)).flagP = v.getLsbD 9 := by
  rw [State.flagP, setSr_sr, BitVec.getLsbD_and, lowHalf, BitVec.getLsbD_extractLsb']
  simp [srMask]

/-- Settles O36, by the mode: in system mode bit 9 of the value decides whether the context switch follows, in
protected mode the lock decides whether the write traps. -/
theorem srDestination : Obligations.SrDestination := by
  intro i s c v row hc
  have run : exec i s = complete s (writeSr v s) := exec_write row hc
  have value : lowHalf v &&& srMask = v.setWidth 16 &&& 0x1FC3 := by
    rw [lowHalf_eq_setWidth]
    rfl
  have ends (system : s.flagP = false) : EndsAs s (.ok (s.setSr (lowHalf v &&& srMask))) (exec i s) := by
    rw [run, writeSr_system v system]
    exact complete_endsAs s _
  have mode := flagP_written s v
  refine ⟨fun system stays => ?_, fun system switches aligned => ?_, fun system switches misaligned => ?_,
    fun prot locked differ => ?_, fun prot allowed => ?_⟩
  · exact ⟨_, (ends system).stays _ rfl (.inr (mode.trans stays)), value, changes_setSr s _⟩
  · obtain ⟨t, next, switched⟩ := (ends system).switches _ rfl system (mode.trans switches) aligned
    exact ⟨t, next, value ▸ switched.of_setSr⟩
  · exact (ends system).refused _ rfl system (mode.trans switches) misaligned
  · rw [run, writeSr_traps prot locked differ, complete_error]
  · rw [run, writeSr_protected prot allowed]
    exact ⟨_, complete_stays (.inl prot), protectedSr_control v s, protectedSr_rest v s, changes_setSr s _⟩

end Sys2Proof.Machine

/-!
PROOFS. The results of the arithmetic, logic, shift, move and branch instructions (41_three_operand_alu.md,
43_two_operand.md, 44_one_operand.md).
-/

namespace Sys2Proof.Machine

/-! ### One plain destination -/

/-- An instruction whose one write goes to a plain register completes with it. -/
theorem exec_plain {i : Instr} {s : State} {c : Cond} {x : Reg} {v : Word}
    (row : registerWrites i s = some (c, [(x, v)])) (hc : s.Runs c) (hx : x.plain = true) :
    exec i s = .next (s.setReg x v) := by
  rw [exec_write row hc, writeReg_plain s v hx, complete_same (setReg_flagP (Reg.ne_sr_of_plain hx))]

/-- It ends with the value in that register and nothing else changed. -/
theorem result_plain {i : Instr} {s : State} {c : Cond} {x : Reg} {v : Word}
    (row : registerWrites i s = some (c, [(x, v)])) (hc : s.Runs c) (hx : x.plain = true) :
    ∃ t, exec i s = .next t ∧ t.reg x = v ∧ Changes [x] s t :=
  ⟨_, exec_plain row hc hx, reg_setReg_plain s hx v, changes_setReg s x v⟩

/-- Settles O23: the writes of the rows, as sums and differences of numbers modulo 2^32. -/
theorem addSubtractResults : Obligations.AddSubtractResults := by
  intro s c x y z n hc hx
  refine ⟨?_, ?_, ?_, ?_⟩
  · obtain ⟨t, run, value, frame⟩ := result_plain (i := .addXYZ c x y z) rfl hc hx
    exact ⟨t, run, value ▸ BitVec.toNat_add .., frame⟩
  · obtain ⟨t, run, value, frame⟩ := result_plain (i := .subXYZ c x y z) rfl hc hx
    exact ⟨t, run, value ▸ toNat_sub_int .., frame⟩
  · obtain ⟨t, run, value, frame⟩ := result_plain (i := .addXN c x n) rfl hc hx
    exact ⟨t, run, by rw [value, imm12_eq, toNat_add_ofInt], frame⟩
  · obtain ⟨t, run, value, frame⟩ := result_plain (i := .subXN c x n) rfl hc hx
    exact ⟨t, run, by rw [value, imm12_eq, toNat_sub_ofInt], frame⟩

/-- Settles O24: the bits of a bitwise result. -/
theorem logicResults : Obligations.LogicResults := by
  intro s c x y z hc hx
  refine ⟨?_, ?_, ?_, ?_⟩
  · obtain ⟨t, run, value, frame⟩ := result_plain (i := .andXYZ c x y z) rfl hc hx
    exact ⟨t, run, frame, fun k _ => by rw [value, BitVec.getLsbD_and]⟩
  · obtain ⟨t, run, value, frame⟩ := result_plain (i := .orXYZ c x y z) rfl hc hx
    exact ⟨t, run, frame, fun k _ => by rw [value, BitVec.getLsbD_or]⟩
  · obtain ⟨t, run, value, frame⟩ := result_plain (i := .xorXYZ c x y z) rfl hc hx
    exact ⟨t, run, frame, fun k _ => by rw [value, BitVec.getLsbD_xor]⟩
  · obtain ⟨t, run, value, frame⟩ := result_plain (i := .notXY c x y) rfl hc hx
    exact ⟨t, run, frame, fun k hk => by rw [value, BitVec.getLsbD_not, decide_eq_true hk, Bool.true_and]⟩

/-- Settles O25: where a rotation puts each bit. -/
theorem rotateResults : Obligations.RotateResults := by
  intro s c x y z n hc hx
  refine ⟨?_, ?_, ?_, ?_⟩
  · obtain ⟨t, run, value, frame⟩ := result_plain (i := .rotlXYZ c x y z) rfl hc hx
    exact ⟨t, run, frame, fun k hk => by rw [value, getLsbD_rotl _ _ hk]⟩
  · obtain ⟨t, run, value, frame⟩ := result_plain (i := .rotrXYZ c x y z) rfl hc hx
    exact ⟨t, run, frame, fun k hk => by rw [value, getLsbD_rotr _ _ hk]⟩
  · obtain ⟨t, run, value, frame⟩ := result_plain (i := .rotlXYN c x y n) rfl hc hx
    exact ⟨t, run, frame, fun k hk => by rw [value, getLsbD_rotl _ _ hk]⟩
  · obtain ⟨t, run, value, frame⟩ := result_plain (i := .rotrXYN c x y n) rfl hc hx
    exact ⟨t, run, frame, fun k hk => by rw [value, getLsbD_rotr _ _ hk]⟩

/-- Settles O26: a shift by the row's amount multiplies or divides by its power of 2. -/
theorem shiftResults : Obligations.ShiftResults := by
  intro s c x y z k hc hx amount
  have amount : shiftAmount z s = k := amount.symm
  refine ⟨?_, ?_, ?_⟩
  · obtain ⟨t, run, value, frame⟩ := result_plain (i := .sarXYZ c x y z) rfl hc hx
    exact ⟨t, run, by rw [value, amount, toInt_sar], frame⟩
  · obtain ⟨t, run, value, frame⟩ := result_plain (i := .shlXYZ c x y z) rfl hc hx
    exact ⟨t, run, by rw [value, amount, toNat_shl], frame⟩
  · obtain ⟨t, run, value, frame⟩ := result_plain (i := .shrXYZ c x y z) rfl hc hx
    exact ⟨t, run, by rw [value, amount, toNat_shr], frame⟩

/-- Settles O30. -/
theorem moveAndExtendResults : Obligations.MoveAndExtendResults := by
  intro s c x y hc hx
  refine ⟨result_plain (i := .movXY c x y) rfl hc hx, ?_, ?_, ?_, ?_⟩
  · obtain ⟨t, run, value, frame⟩ := result_plain (i := .sxbXY c x y) rfl hc hx
    exact ⟨t, run, value ▸ toInt_sext8 _, frame⟩
  · obtain ⟨t, run, value, frame⟩ := result_plain (i := .sxwXY c x y) rfl hc hx
    exact ⟨t, run, value ▸ toInt_sext16 _, frame⟩
  · obtain ⟨t, run, value, frame⟩ := result_plain (i := .zxbXY c x y) rfl hc hx
    exact ⟨t, run, value ▸ toNat_zext8 _, frame⟩
  · obtain ⟨t, run, value, frame⟩ := result_plain (i := .zxwXY c x y) rfl hc hx
    exact ⟨t, run, value ▸ toNat_zext16 _, frame⟩

/-- Settles O31: each result joins two halves, which it then has. -/
theorem halfMoveResults : Obligations.HalfMoveResults := by
  intro s c x y hc hx
  have join {i : Instr} {high low : Half} (row : registerWrites i s = some (c, [(x, joinHalves high low)])) :
      ∃ t, exec i s = .next t ∧ Changes [x] s t ∧ (t.reg x).toNat / 2 ^ 16 = high.toNat ∧
        (t.reg x).toNat % 2 ^ 16 = low.toNat := by
    obtain ⟨t, run, value, frame⟩ := result_plain row hc hx
    exact ⟨t, run, frame, value ▸ joinHalves_parts high low⟩
  simp only [← toNat_highHalf, ← toNat_lowHalf] at join ⊢
  exact ⟨join (i := .mvhhXY c x y) rfl, join (i := .mvhlXY c x y) rfl, join (i := .mvlhXY c x y) rfl,
    join (i := .mvllXY c x y) rfl⟩

/-- Settles O54. -/
theorem contextRegisterReads : Obligations.ContextRegisterReads := by
  intro s c x hc system hx
  have row {w : Word} : (if s.flagP then none else some (c, [(x, w)])) = some (c, [(x, w)]) := by
    rw [system, if_neg Bool.false_ne_true]
  exact ⟨result_plain (i := .movXSsp c x) row hc hx, result_plain (i := .movXSpc c x) row hc hx⟩

/-! ### Two results -/

/-- A plain destination and then register 10, which wins if it is the destination (decision D13). -/
theorem exec_pair {i : Instr} {s : State} {c : Cond} {x : Reg} {v w : Word}
    (row : registerWrites i s = some (c, [(x, v), (.cc10, w)])) (hc : s.Runs c) (hx : x.plain = true) :
    ∃ t, exec i s = .next t ∧ Changes [x, .cc10] s t ∧ t.reg .cc10 = w ∧ (x ≠ .cc10 → t.reg x = v) := by
  have keeps_mode : ((s.setReg x v).setReg .cc10 w).flagP = s.flagP := by
    rw [setReg_flagP Reg.noConfusion, setReg_flagP (Reg.ne_sr_of_plain hx)]
  refine ⟨(s.setReg x v).setReg .cc10 w, ?_, (changes_setReg s x v).trans (changes_setReg _ .cc10 w),
    reg_setReg_same _ _ _ nofun, fun other => ?_⟩
  · rw [exec_writes row hc, writeAll_cons_plain hx, writeAll_cons_plain rfl]
    exact complete_same keeps_mode
  · rw [reg_setReg_ne _ _ _ _ other, reg_setReg_plain s hx]

theorem registerWrites_umul (s : State) (c : Cond) (x y z : Reg) :
    registerWrites (.umulXYZ c x y z) s =
      some (c, [(x, lowWord (unsignedProduct (s.reg y) (s.reg z))),
        (.cc10, highWord (unsignedProduct (s.reg y) (s.reg z)))]) := rfl

theorem registerWrites_smul (s : State) (c : Cond) (x y z : Reg) :
    registerWrites (.smulXYZ c x y z) s =
      some (c, [(x, lowWord (signedProduct (s.reg y) (s.reg z))),
        (.cc10, highWord (signedProduct (s.reg y) (s.reg z)))]) := rfl

/-- Settles O27: the two words of the exact product. -/
theorem multiplyResults : Obligations.MultiplyResults := by
  intro s c x y z hc hx
  refine ⟨?_, ?_⟩
  · obtain ⟨t, run, frame, high, low⟩ := exec_pair (registerWrites_umul s c x y z) hc hx
    refine ⟨t, run, frame, ?_, fun other => ?_⟩
    · rw [high, toNat_highWord, toNat_unsignedProduct]
    · rw [low other, toNat_lowWord, toNat_unsignedProduct]
  · obtain ⟨t, run, frame, high, low⟩ := exec_pair (registerWrites_smul s c x y z) hc hx
    refine ⟨t, run, frame, ?_, fun other => ?_⟩
    · rw [high, toInt_highWord, toInt_signedProduct]
    · rw [low other, toNat_lowWord_int, toInt_signedProduct]

/-- Settles O28: the quotient rounded toward zero and its remainder. -/
theorem divideResults : Obligations.DivideResults := by
  intro s c x y z hc hx divisor
  have row {v w : Word} : (if s.reg z = 0 then none else some (c, [(x, v), (Reg.cc10, w)])) =
      some (c, [(x, v), (Reg.cc10, w)]) := if_neg divisor
  have divisor' : (s.reg z).toInt ≠ 0 := fun e => divisor (BitVec.toInt_inj.1 e)
  refine ⟨?_, ?_⟩
  · obtain ⟨t, run, frame, remainder, quotient⟩ := exec_pair (i := .udivXYZ c x y z) row hc hx
    refine ⟨t, run, frame, ?_, fun other => ?_⟩
    · rw [remainder, toNat_unsignedRemainder]
    · rw [quotient other, toNat_unsignedQuotient]
  · obtain ⟨t, run, frame, remainder, quotient⟩ := exec_pair (i := .sdivXYZ c x y z) row hc hx
    refine ⟨t, (s.reg y).toInt.tdiv (s.reg z).toInt, (s.reg y).toInt.tmod (s.reg z).toInt, run, frame,
      (Int.tdiv_mul_add_tmod _ _).symm, abs_tmod_lt _ divisor', tmod_pos_iff _ _, ?_, quotient⟩
    rw [remainder, toInt_signedRemainder _ divisor]

/-! ### Jumps -/

/-- A field extended and scaled by 4 (44_one_operand.md R200). -/
theorem ofInt_shiftLeft_two (k : Int) : BitVec.ofInt 32 k <<< 2 = BitVec.ofInt 32 (4 * k) := by
  apply BitVec.eq_of_toNat_eq
  rw [BitVec.toNat_shiftLeft, BitVec.toNat_ofInt, BitVec.toNat_ofInt, Nat.shiftLeft_eq]
  omega

theorem absTarget_eq (n : Half) (s : State) : absTarget n s = absoluteTo s n := by
  rw [absTarget, abs16, extend_eq_ofInt, ofInt_shiftLeft_two, absoluteTo]

theorem relTarget_eq (n : Half) (s : State) : relTarget n s = relativeTo s n := by
  rw [relTarget, rel16, extend_eq_ofInt, ofInt_shiftLeft_two, relativeTo]

theorem misaligned4_eq_decide (a : Word) : misaligned4 a = decide (a.toNat % 4 ≠ 0) := by
  rw [misaligned4, bne, Bool.eq_iff_iff, Bool.not_eq_true', beq_eq_false_iff_ne, decide_eq_true_iff, ne_eq,
    ← BitVec.toNat_inj, BitVec.extractLsb'_toNat]
  rfl

/-- A step of 4 times anything keeps the alignment. -/
theorem misaligned4_add_ofInt (a : Word) (k : Int) : misaligned4 (a + BitVec.ofInt 32 (4 * k)) = misaligned4 a := by
  rw [misaligned4_eq_decide, misaligned4_eq_decide, BitVec.toNat_add, BitVec.toNat_ofInt]
  congr 2
  omega

/-- An absolute target is aligned (44_one_operand.md R200). -/
theorem absoluteTo_aligned (s : State) (n : Half) : misaligned4 (absoluteTo s n) = false := by
  have from_zero := misaligned4_add_ofInt 0 (if s.cfg.abs16Signed then n.toInt else (n.toNat : Int))
  rw [zero_add] at from_zero
  exact from_zero

/-- A relative target is as aligned as `pc`. -/
theorem relativeTo_aligned {s : State} (aligned : s.pcAligned) (n : Half) : misaligned4 (relativeTo s n) = false :=
  (misaligned4_add_ofInt s.pc _).trans aligned

/-- Settles O43: a branch is a write of `pc` with an aligned target. -/
theorem branchesJump : Obligations.BranchesJump := by
  intro s c n hc aligned
  have jump {i : Instr} {v : Word} (row : registerWrites i s = some (c, [(.pc, v)])) (hv : misaligned4 v = false) :=
    (pcDestination i s c v row hc).1 hv
  refine ⟨?_, ?_⟩
  · rw [← absTarget_eq]
    exact jump (i := .baN c n) rfl (absTarget_eq n s ▸ absoluteTo_aligned s n)
  · rw [← relTarget_eq]
    exact jump (i := .brN c n) rfl (relTarget_eq n s ▸ relativeTo_aligned aligned n)

/-- A fast call links through `r8` and `r9` and jumps (44_one_operand.md R205, R206). -/
theorem exec_fastCall {i : Instr} {s : State} {c : Cond} {v : Word}
    (row : registerWrites i s = some (c, [(.r8, s.dsp), (.r9, s.pc), (.pc, v)])) (hc : s.Runs c)
    (hv : misaligned4 v = false) :
    ∃ t, exec i s = .next t ∧ t.pc = v ∧ t.r8 = s.dsp ∧ t.r9 = s.pc ∧ Changes [.r8, .r9, .pc] s t := by
  refine ⟨((s.setReg .r8 s.dsp).setReg .r9 s.pc).setPc v, ?_, rfl, rfl, rfl, ?_⟩
  · rw [exec_writes row hc, writeAll_cons_plain rfl, writeAll_cons_plain rfl, writeAll_one]
    exact (congrArg (complete s) (writePc_aligned _ hv)).trans (complete_same rfl)
  · exact ((changes_setReg s .r8 _).trans (changes_setReg _ .r9 _)).trans (changes_setPc _ v)

/-- Settles O45. -/
theorem fastCallsLinkAndJump : Obligations.FastCallsLinkAndJump := by
  intro s c n hc aligned
  refine ⟨?_, ?_⟩
  · rw [← absTarget_eq]
    exact exec_fastCall (i := .fcallN c n) rfl hc (absTarget_eq n s ▸ absoluteTo_aligned s n)
  · rw [← relTarget_eq]
    exact exec_fastCall (i := .fcallrN c n) rfl hc (relTarget_eq n s ▸ relativeTo_aligned aligned n)

end Sys2Proof.Machine

/-!
PROOFS. `swp`, the comparisons, the system mode instructions and the trap table (43_two_operand.md R172 to R182,
45_zero_operand.md, 60_exceptions.md R245, R256 to R259).
-/

namespace Sys2Proof.Machine

/-! ### `swp` -/

/-- Two plain writes: both registers hold what was written, the second write winning. -/
theorem reg_setReg_setReg (s : State) {x y : Reg} (hx : x.plain = true) (v w : Word)
    (agree : x = y → v = w) : ((s.setReg x v).setReg y w).reg x = v := by
  by_cases e : x = y
  · subst e
    rw [reg_setReg_plain _ hx, agree rfl]
  · rw [reg_setReg_ne _ _ _ _ e, reg_setReg_plain s hx]

/-- The value of register 14 has `sr` as its low half. -/
theorem lowHalf_reg_sr (s : State) : lowHalf (s.reg .sr) = s.sr := by
  rw [reg_sr_eq_zero_append]
  exact BitVec.extractLsb'_append_eq_right

theorem writeReg_pc_aligned (s : State) {v : Word} (aligned : misaligned4 v = false) :
    writeReg .pc v s = .ok (s.setPc v) := writePc_aligned s aligned

theorem writeReg_pc_misaligned (s : State) {v : Word} (misaligned : misaligned4 v = true) :
    writeReg .pc v s = .error .pcAlignment := writePc_misaligned s misaligned

theorem setPc_flagP (s : State) (v : Word) : (s.setPc v).flagP = s.flagP := by
  rw [State.flagP, setPc_sr, State.flagP]

/-- A legal `sr` is not changed by the mask of the implemented bits. -/
theorem and_srMask_of_legal {s : State} (legal : s.srLegal) : s.sr &&& srMask = s.sr := by
  have split : s.sr = s.sr &&& srMask ||| s.sr &&& ~~~srMask := by
    rw [← BitVec.and_or_distrib_left, BitVec.or_not_self, BitVec.and_allOnes]
  have legal : s.sr &&& ~~~srMask = 0#16 := legal
  rw [legal, BitVec.or_zero] at split
  exact split.symm

/-- The value of register 14, written back in protected mode, is the old `sr`. -/
theorem protectedSr_self {s : State} (legal : s.srLegal) : protectedSr (s.reg .sr) s = s.sr := by
  have low : lowHalf (s.reg .sr) &&& srMask = s.sr :=
    (congrArg (· &&& srMask) (lowHalf_reg_sr s)).trans (and_srMask_of_legal legal)
  have masks : srControlMask ||| srFlagMask = srMask := rfl
  rw [protectedSr, low, ← BitVec.and_or_distrib_left, masks, and_srMask_of_legal legal]

/-- A register written with the value it has leaves the state as it was, in a state that meets the invariant. -/
theorem writeReg_self {s : State} (inv : s.Inv) (x : Reg) : writeReg x (s.reg x) s = .ok s := by
  cases x with
  | sr =>
    have low : lowHalf (s.reg .sr) &&& srMask = s.sr :=
      (congrArg (· &&& srMask) (lowHalf_reg_sr s)).trans (and_srMask_of_legal inv.srLegal)
    cases mode : s.flagP with
    | false => exact (writeSr_system _ mode).trans (by rw [low]; rfl)
    | true =>
      have same : (s.reg .sr).extractLsb' 8 5 = s.sr.extractLsb' 8 5 := by
        rw [← written_control, low]
      exact (writeSr_protected mode (.inr same)).trans (by rw [protectedSr_self inv.srLegal]; rfl)
  | pc => exact writePc_aligned s inv.pcAligned
  | cc10 =>
    have low : lowHalf (s.reg .cc10) = s.cc0 := BitVec.extractLsb'_append_eq_right
    have high : highHalf (s.reg .cc10) = s.cc1 := BitVec.extractLsb'_append_eq_left
    show Except.ok { s with cc0 := lowHalf (s.reg .cc10), cc1 := highHalf (s.reg .cc10) } = _
    rw [low, high]
  | cc32 =>
    have low : lowHalf (s.reg .cc32) = s.cc2 := BitVec.extractLsb'_append_eq_right
    have high : highHalf (s.reg .cc32) = s.cc3 := BitVec.extractLsb'_append_eq_left
    show Except.ok { s with cc2 := lowHalf (s.reg .cc32), cc3 := highHalf (s.reg .cc32) } = _
    rw [low, high]
  | r0 | r1 | r2 | r3 | r4 | r5 | r6 | r7 | r8 | r9 | dsp | isp => rfl

/-- `swp` is two writes (43_two_operand.md R172). -/
theorem exec_swp {s : State} {c : Cond} (hc : s.Runs c) (x y : Reg) :
    exec (.swpXY c x y) s = complete s (writeAll [(x, s.reg y), (y, s.reg x)] s) :=
  exec_writes rfl hc

/-- The exchange of two plain registers. -/
theorem swap_plain {s : State} {c : Cond} {x y : Reg} (hc : s.Runs c) (hx : x.plain = true) (hy : y.plain = true) :
    ∃ t, exec (.swpXY c x y) s = .next t ∧ t.reg x = s.reg y ∧ t.reg y = s.reg x ∧ Changes [x, y] s t := by
  refine ⟨(s.setReg x (s.reg y)).setReg y (s.reg x), ?_, ?_, reg_setReg_plain _ hy _,
    (changes_setReg s x _).trans (changes_setReg _ y _)⟩
  · rw [exec_swp hc, writeAll_cons_plain hx, writeAll_one, writeReg_plain _ _ hy]
    apply complete_same
    rw [setReg_flagP (Reg.ne_sr_of_plain hy), setReg_flagP (Reg.ne_sr_of_plain hx)]
  · exact reg_setReg_setReg s hx _ _ fun e => by rw [e]

/-- An exchange with `pc` jumps to the other register's value. -/
theorem swap_pc_first {s : State} {c : Cond} {y : Reg} (hc : s.Runs c) (hy : y.plain = true)
    (aligned : misaligned4 (s.reg y) = false) :
    ∃ t, exec (.swpXY c .pc y) s = .next t ∧ t.pc = s.reg y ∧ t.reg y = s.pc ∧ Changes [.pc, y] s t := by
  refine ⟨(s.setPc (s.reg y)).setReg y s.pc, ?_, ?_, reg_setReg_plain _ hy _,
    (changes_setPc s _).trans (changes_setReg _ y _)⟩
  · rw [exec_swp hc, writeAll_cons (writeReg_pc_aligned s aligned), writeAll_one]
    exact (congrArg (complete s) (writeReg_plain _ _ hy)).trans
      (complete_same ((setReg_flagP (Reg.ne_sr_of_plain hy)).trans (setPc_flagP s _)))
  · exact (reg_setReg_ne _ _ _ _ (Reg.ne_pc_of_plain hy).symm).trans (setPc_pc s _)

theorem swap_pc_second {s : State} {c : Cond} {y : Reg} (hc : s.Runs c) (hy : y.plain = true)
    (aligned : misaligned4 (s.reg y) = false) :
    ∃ t, exec (.swpXY c y .pc) s = .next t ∧ t.pc = s.reg y ∧ t.reg y = s.pc ∧ Changes [.pc, y] s t := by
  refine ⟨(s.setReg y s.pc).setPc (s.reg y), ?_, setPc_pc _ _, ?_,
    ((changes_setReg s y _).trans (changes_setPc _ _)).mono (by simp)⟩
  · rw [exec_swp hc, writeAll_cons_plain hy, writeAll_one]
    exact (congrArg (complete s) (writeReg_pc_aligned _ aligned)).trans
      (complete_same ((setPc_flagP _ _).trans (setReg_flagP (Reg.ne_sr_of_plain hy))))
  · rw [reg_setPc_ne _ _ _ (Reg.ne_pc_of_plain hy), reg_setReg_plain s hy]

/-- Settles O32. -/
theorem swapExchanges : Obligations.SwapExchanges := by
  intro s c x y hc
  refine ⟨swap_plain hc, fun hy aligned => ⟨swap_pc_first hc hy aligned, swap_pc_second hc hy aligned⟩,
    fun hy misaligned => ⟨?_, ?_⟩, fun inv => ?_⟩
  · rw [exec_swp hc, writeAll_cons_error (writeReg_pc_misaligned s misaligned), complete_error]
  · rw [exec_swp hc, writeAll_cons_plain hy, writeAll_one]
    exact (congrArg (complete s) (writeReg_pc_misaligned _ misaligned)).trans (complete_error ..)
  · rw [exec_swp hc, writeAll_cons (writeReg_self inv x), writeAll_one, writeReg_self inv x]
    exact complete_same rfl

/-! ### Comparisons -/

theorem reg_setCc2_ne (s : State) (v : Half) {j : Reg} (h : j ≠ .cc32) : (s.setCc2 v).reg j = s.reg j := by
  cases j
  case cc32 => exact absurd rfl h
  all_goals rfl

theorem reg_setCc3_ne (s : State) (v : Half) {j : Reg} (h : j ≠ .cc32) : (s.setCc3 v).reg j = s.reg j := by
  cases j
  case cc32 => exact absurd rfl h
  all_goals rfl

theorem changes_setCc2 (s : State) (v : Half) : Changes [.cc32] s (s.setCc2 v) :=
  ⟨⟨fun _ hj => reg_setCc2_ne s v (List.ne_of_not_mem_cons hj), rfl, rfl, rfl, rfl, rfl, rfl⟩, fun _ => rfl⟩

theorem changes_setCc3 (s : State) (v : Half) : Changes [.cc32] s (s.setCc3 v) :=
  ⟨⟨fun _ hj => reg_setCc3_ne s v (List.ne_of_not_mem_cons hj), rfl, rfl, rfl, rfl, rfl, rfl⟩, fun _ => rfl⟩

/-- The flag bits of `sr` after `cmp` are the flags. -/
theorem compareSr_and_flags (a b : Word) (s : State) : compareSr a b s &&& srFlagMask = flagsOf a b := by
  have apart : srControlMask &&& srFlagMask = 0#16 := rfl
  rw [compareSr, BitVec.and_or_distrib_right, BitVec.and_assoc, apart, flagsOf_and_flags, BitVec.and_zero,
    BitVec.zero_or]

/-- Its other bits are those of a legal `sr` before it. -/
theorem compareSr_and_rest (a b : Word) {s : State} (legal : s.srLegal) :
    compareSr a b s &&& ~~~srFlagMask = s.sr &&& ~~~srFlagMask := by
  have control : srControlMask &&& ~~~srFlagMask = srControlMask := rfl
  have rest : srMask &&& ~~~srFlagMask = srControlMask := rfl
  have no_flag : srFlagMask &&& ~~~srFlagMask = 0#16 := rfl
  rw [compareSr, BitVec.and_or_distrib_right, BitVec.and_assoc, control, ← flagsOf_and_flags, BitVec.and_assoc,
    no_flag, BitVec.and_zero, BitVec.or_zero, ← and_srMask_of_legal legal, BitVec.and_assoc, BitVec.and_assoc, rest,
    ← BitVec.and_assoc, and_srMask_of_legal legal]

/-- Settles O33. -/
theorem compareWritesFlags : Obligations.CompareWritesFlags := by
  intro s c x y hc
  exact ⟨fun legal => ⟨_, conditionally_runs hc _, compareSr_and_flags _ _ s, compareSr_and_rest _ _ legal,
      changes_setSr s _⟩,
    ⟨_, conditionally_runs hc _, rfl, rfl, changes_setCc0 s _⟩,
    ⟨_, conditionally_runs hc _, rfl, rfl, changes_setCc1 s _⟩,
    ⟨_, conditionally_runs hc _, rfl, rfl, changes_setCc2 s _⟩,
    ⟨_, conditionally_runs hc _, rfl, rfl, changes_setCc3 s _⟩⟩

/-! ### System mode instructions -/

/-- Settles O51. -/
theorem sleepAndBreakInSystemMode : Obligations.SleepAndBreakInSystemMode := by
  intro s c hc system
  exact ⟨⟨_, (conditionally_runs hc _).trans (systemOnly_system system _ _), rfl, changes_setSr s _⟩,
    (conditionally_runs hc _).trans (systemOnly_system system _ _)⟩

/-- A reserved word of a privileged opcode byte takes that opcode's trap in protected mode (R96, decision D30). -/
theorem execReserved_privileged {s : State} {c : Cond} (hc : s.Runs c) (prot : s.flagP = true) {op : BitVec 7}
    {t : Trap} (privileged : privilegeTrap op = some t) (vv : BitVec 2) (low : Half) :
    exec (.reserved c op vv low) s = trapEntry t s := by
  refine (conditionally_runs hc _).trans ?_
  rw [prot, privileged]

/-- Any other reserved word, and any in system mode, takes the Invalid Opcode Trap. -/
theorem execReserved_invalid {s : State} {c : Cond} (hc : s.Runs c) {op : BitVec 7}
    (plain : s.flagP = false ∨ privilegeTrap op = none) (vv : BitVec 2) (low : Half) :
    exec (.reserved c op vv low) s = trapEntry .invalidOpcode s := by
  refine (conditionally_runs hc _).trans ?_
  obtain system | unprivileged := plain
  · rw [system]
  · rw [unprivileged]
    cases s.flagP <;> rfl

/-- Settles O55. -/
theorem privilegedInstructionsTrap : Obligations.PrivilegedInstructionsTrap := by
  intro s c x vv low hc prot
  have traps (t : Trap) (run : Result) : conditionally c s (systemOnly t s run) = trapEntry t s := by
    rw [conditionally_runs hc, systemOnly_protected prot]
  have opcodes : ∀ op ∈ [0x0A#7, 0x0B#7, 0x34#7, 0x35#7], privilegeTrap op = some .protection := by decide
  exact ⟨traps .protection _, traps .protection _, traps .protection _, traps .protection _, traps .brk _,
    execReserved_privileged hc prot rfl vv low,
    fun op hop => execReserved_privileged hc prot (opcodes op hop) vv low⟩

/-- Settles O57. -/
theorem trapTableIndexes : Obligations.TrapTableIndexes := by
  refine ⟨fun i => ?_, rfl, rfl, rfl, rfl, rfl, rfl, rfl, rfl, rfl⟩
  rw [vectorAddress, BitVec.toNat_shiftLeft, BitVec.toNat_setWidth, Nat.shiftLeft_eq]
  omega

end Sys2Proof.Machine

/-!
PROOFS. Taking traps and interrupts (60_exceptions.md R249 to R251, R264, R265), and the instructions and encodings
that end in one.
-/

namespace Sys2Proof.Machine

/-- An interrupt whose entry can be made enters (60_exceptions.md R249). -/
theorem interruptEntry_ready {s : State} {k : Byte} (canonical : s.memCanonical) (ready : EntryReady k srF s) :
    ∃ t, interruptEntry k s = .next t ∧ EntryTo k srF srI s t :=
  ⟨_, enter_ready ready srI, entryDone_entryTo canonical k srF srI⟩

/-- A trap that does not halt, and whose entry can be made, enters (60_exceptions.md R250). -/
theorem trapEntry_ready {s : State} {t : Trap} (enters : s.flagT = false ∨ s.flagP = true)
    (canonical : s.memCanonical) (ready : EntryReady t.index 0 s) :
    ∃ u, trapEntry t s = .next u ∧ EntryTo t.index 0 srT s u :=
  ⟨_, (trapEntry_enters enters t).trans (enter_ready ready srT), entryDone_entryTo canonical t.index 0 srT⟩

/-- The halt of a trap, written as an update (60_exceptions.md R251). -/
theorem trapHalt_eq (s : State) : trapHalt s = { s with sr := s.sr ||| 0x1000, entered := true } := rfl

/-- Settles O58. -/
theorem trapEntryState : Obligations.TrapEntryState := by
  intro s t
  exact ⟨fun hT system => by rw [trapEntry_halts hT system, trapHalt_eq], trapEntry_ready⟩

/-- Settles O59. -/
theorem interruptEntryState : Obligations.InterruptEntryState := by
  intro s k canonical ready
  exact interruptEntry_ready canonical ready

/-- Settles O60: an entry's four stops, for an interrupt and for a trap that does not halt. -/
theorem entryStops : Obligations.EntryStops := by
  refine ⟨fun s k => ?_, fun s t enters => ?_⟩
  · exact ⟨fun stuck => enter_not_switchable stuck k srF srI,
      fun switchable stuck => enter_not_pushable switchable stuck k srF srI,
      fun switchable pushable denied => enter_not_readable switchable pushable denied srF srI,
      fun switchable pushable readable misaligned => enter_misaligned switchable pushable readable misaligned srI⟩
  · rw [trapEntry_enters enters]
    exact ⟨fun stuck => enter_not_switchable stuck t.index 0 srT,
      fun switchable stuck => enter_not_pushable switchable stuck t.index 0 srT,
      fun switchable pushable denied => enter_not_readable switchable pushable denied 0 srT,
      fun switchable pushable readable misaligned => enter_misaligned switchable pushable readable misaligned srT⟩

/-- Settles O47: with `I` = 0 `int` is the interrupt entry at the low byte of its operand. -/
theorem softwareInterruptEnters : Obligations.SoftwareInterruptEnters := by
  intro s c n hc unmasked canonical ready
  have index : n.setWidth 8 = n.extractLsb' 0 8 := BitVec.setWidth_eq_extractLsb' (by decide)
  have run : exec (.intN c n) s = interruptEntry (n.extractLsb' 0 8) s := by
    rw [exec_intN hc, unmasked, index, if_neg Bool.false_ne_true]
  rw [run]
  exact interruptEntry_ready canonical ready

/-- The trap that a reserved word takes, by the mode and the opcode byte (40_conditional_execution.md R96). -/
def reservedTrap (s : State) (op : BitVec 7) : Trap :=
  if s.flagP = false then .invalidOpcode else (privilegeTrap op).getD .invalidOpcode

theorem reservedTrap_index (s : State) (op : BitVec 7) : (reservedTrap s op).index = reservedIndex s op := by
  unfold reservedTrap reservedIndex privilegeTrap
  split_ifs <;> rfl

theorem exec_reserved {s : State} {c : Cond} (hc : s.Runs c) (op : BitVec 7) (vv : BitVec 2) (low : Half) :
    exec (.reserved c op vv low) s = trapEntry (reservedTrap s op) s := by
  cases mode : s.flagP with
  | false =>
    rw [execReserved_invalid hc (.inl mode), reservedTrap, mode]
    rfl
  | true =>
    rw [reservedTrap, mode, if_neg (by decide)]
    cases privileged : privilegeTrap op with
    | none => exact execReserved_invalid hc (.inr privileged) vv low
    | some t => exact execReserved_privileged hc mode privileged vv low

/-- Settles O56: a reserved encoding is the trap of its index. -/
theorem reservedEncodingsTrap : Obligations.ReservedEncodingsTrap := by
  intro s c op vv low h hc
  have half : exec (.reservedCompact h) s = trapEntry .invalidOpcode s := rfl
  rw [exec_reserved hc, half, ← reservedTrap_index]
  exact ⟨fun hT system => ⟨(trapEntryState s _).1 hT system, (trapEntryState s _).1 hT system⟩,
    fun enters canonical => ⟨trapEntry_ready enters canonical,
      trapEntry_ready (t := .invalidOpcode) enters canonical⟩⟩

end Sys2Proof.Machine

/-!
PROOFS. Memory, loads and stores (20_memory.md sections 1 to 3, 42_load_store.md, 43_two_operand.md R190).
-/

namespace Sys2Proof.Machine

/-! ### Memory -/

/-- Settles O37: the laws of `putValue`, and the value read back as a store's. -/
theorem memoryReadsLastWrite : Obligations.MemoryReadsLastWrite := by
  intro m o w a v canonical
  exact ⟨putValue_wf canonical o a v w, fun b hb => byteAt_putValue_outside m o v w hb,
    valueAt_store (s := { State.reset with mem := m, cfg := { Config.standard with byteOrder := o } }) canonical w a v,
    fun k hk => byteAt_putValue_little canonical a v hk, fun k hk => byteAt_putValue_big canonical a v hk,
    fun k hk => byteAt_putValue_half_little canonical a v hk, fun k hk => byteAt_putValue_half_big canonical a v hk⟩

/-- The value that a load of this width and extension writes (42_load_store.md R145 to R164). -/
def loadedValue (s : State) (e : Extension) (w : Width) (a : Word) : Word :=
  extendLoaded e w (valueAt s.cfg.byteOrder s.mem a w)

/-- A loaded value is fixed by its bytes, its width and its extension (20_memory.md R44, R48). -/
theorem loadedFrom_iff (s : State) (e : Extension) (w : Width) (a v : Word) :
    LoadedFrom s e w a v ↔ v = loadedValue s e w a := by
  cases w with
  | byte =>
    cases e with
    | zero =>
      show v.toNat = (byteAt s.mem a).toNat ↔ v = (byteAt s.mem a).setWidth 32
      rw [← BitVec.toNat_inj, BitVec.toNat_setWidth_of_le (by decide)]
    | sign =>
      show v.toInt = (byteAt s.mem a).toInt ↔ v = (((byteAt s.mem a).setWidth 32).setWidth 8).signExtend 32
      rw [← BitVec.toInt_inj, BitVec.setWidth_setWidth_of_le _ (by decide), BitVec.setWidth_eq,
        BitVec.toInt_signExtend_of_le (by decide)]
  | half =>
    cases e with
    | zero =>
      show v.toNat = (halfOfBytes _ _ _).toNat ↔ v = (halfOfBytes _ _ _).setWidth 32
      rw [← BitVec.toNat_inj, BitVec.toNat_setWidth_of_le (by decide)]
    | sign =>
      show v.toInt = (halfOfBytes _ _ _).toInt ↔ v = (((halfOfBytes _ _ _).setWidth 32).setWidth 16).signExtend 32
      rw [← BitVec.toInt_inj, BitVec.setWidth_setWidth_of_le _ (by decide), BitVec.setWidth_eq,
        BitVec.toInt_signExtend_of_le (by decide)]
  | word => cases e <;> exact Iff.rfl

/-! ### The tables of loads and stores -/

theorem storeInstr_runs {s : State} {c : Cond} (hc : s.Runs c) (w : Width) (u : Bool) (x y : Reg) (off : Word) :
    storeInstr c w u x y off s = complete s (storeEffect w u x y off s) := conditionally_runs hc _

theorem loadInstr_runs {s : State} {c : Cond} (hc : s.Runs c) (w : Width) (e : Extension) (u : Bool) (x y : Reg)
    (off : Word) : loadInstr c w e u x y off s = complete s (loadEffect w e u x y off s) := conditionally_runs hc _

/-- Every store of the table is the shared store (42_load_store.md R131 to R144). -/
theorem exec_store {i : Instr} {s : State} {c : Cond} {w : Width} {u : Bool} {x y : Reg} {off : Word}
    (row : storeParts i s = some (c, w, u, x, y, off)) (hc : s.Runs c) :
    exec i s = complete s (storeEffect w u x y off s) := by
  cases i with
  | stbXYN | stbuXYN | sthXYN | sthuXYN | stwXYN | stwuXYN =>
    cases row
    rw [← disp8_eq]
    exact storeInstr_runs hc ..
  | stbiXYZ | stbuiXYZ | sthiXYZ | sthuiXYZ | stwiXYZ | stwuiXYZ =>
    cases row
    exact storeInstr_runs hc ..
  | _ => cases row

/-- Every load of the table, and `pop`, is the shared load (42_load_store.md R145 to R164, 43_two_operand.md R190). -/
theorem exec_load {i : Instr} {s : State} {c : Cond} {w : Width} {e : Extension} {u : Bool} {x y : Reg} {off : Word}
    (row : loadParts i s = some (c, w, e, u, x, y, off)) (hc : s.Runs c) :
    exec i s = complete s (loadEffect w e u x y off s) := by
  cases i with
  | lwXYN | lwuXYN | lzbXYN | lzbuXYN | lsbXYN | lsbuXYN | lzhXYN | lzhuXYN | lshXYN | lshuXYN =>
    cases row
    rw [← disp8_eq]
    exact loadInstr_runs hc ..
  | lwiXYZ | lwuiXYZ | lzbiXYZ | lzbuiXYZ | lsbiXYZ | lsbuiXYZ | lzhiXYZ | lzhuiXYZ | lshiXYZ | lshuiXYZ | popXY =>
    cases row
    exact loadInstr_runs hc ..
  | _ => cases row

/-! ### The update of the base -/

/-- The update is at most one register write. -/
theorem updateBase_eq_writeAll (u : Bool) (x : Reg) (w : Width) (s : State) :
    updateBase u x w s = writeAll (if u then [(x, s.reg x + widthBytes w)] else []) s := by
  cases u with
  | false => rfl
  | true => exact (writeAll_one ..).symm

/-- What an update of a plain base leaves. -/
structure BaseUpdated (u : Bool) (x : Reg) (w : Width) (s t : State) : Prop where
  base : u = true → t.reg x = s.reg x + widthBytes w
  regs : KeepsRegs (if u then [x] else []) s t
  mem : t.mem = s.mem
  flagP : t.flagP = s.flagP

theorem updateBase_completes {u : Bool} {x : Reg} (plain : u = true → x.plain = true) (w : Width) (s : State) :
    ∃ t, updateBase u x w s = .ok t ∧ BaseUpdated u x w s t := by
  cases u with
  | false => exact ⟨s, rfl, nofun, (Changes.refl [] s).1, rfl, rfl⟩
  | true =>
    have hx := plain rfl
    exact ⟨_, updateBase_plain s hx w, fun _ => reg_setReg_plain s hx _, (changes_setReg s x _).1,
      setReg_mem .., setReg_flagP (Reg.ne_sr_of_plain hx)⟩

/-! ### Accesses that are accepted -/

/-- Settles O38: the store writes memory only, the update its base only. -/
theorem storesComplete : Obligations.StoresComplete := by
  intro i s c w u x y off row hc canonical aligned accepted plain
  obtain ⟨t, update, updated⟩ := updateBase_completes plain w (s.store w (s.reg x + off) (s.reg y))
  refine ⟨t, ?_, ?_, fun b hb => ?_, fun hu => ?_, (keepsRegs_store s _ _ _).trans updated.regs⟩
  · rw [exec_store row hc, storeEffect_accepted u y aligned accepted, update]
    exact complete_same (updated.flagP.trans (store_flagP ..))
  · rw [updated.mem]
    exact valueAt_store canonical w _ _
  · rw [updated.mem]
    exact keepsMem_store s w _ _ b hb
  · rw [updated.base hu, reg_store]

/-- Settles O39: the destination is written before the base is updated as it then is. -/
theorem loadsComplete : Obligations.LoadsComplete := by
  intro i s c w e u x y off row hc aligned accepted hx plain
  obtain ⟨v, loaded⟩ : ∃ v, v = loadedValue s e w (s.reg y + off) := ⟨_, rfl⟩
  have written : writeReg x (loadedValue s e w (s.reg y + off)) s = .ok (s.setReg x v) :=
    loaded ▸ writeReg_plain s v hx
  obtain ⟨t, update, updated⟩ := updateBase_completes plain w (s.setReg x v)
  have others : ¬ (u = true ∧ x = y) → t.reg x = v := fun other => by
    rw [updated.regs.regs x (by cases u <;> simp_all), reg_setReg_plain s hx]
  refine ⟨t, v, ?_, (loadedFrom_iff ..).2 loaded, ?_, fun hu other => ?_, ?_⟩
  · rw [exec_load row hc, loadEffect_accepted u aligned accepted written, update]
    exact complete_same (updated.flagP.trans (setReg_flagP (Reg.ne_sr_of_plain hx)))
  · split_ifs with both
    · obtain ⟨hu, rfl⟩ := both
      rw [updated.base hu, reg_setReg_plain s hx]
    · exact others both
  · rw [updated.base hu, reg_setReg_ne _ _ _ _ (Ne.symm other)]
  · have frame : Changes ([x] ++ if u then [y] else []) s t :=
      (changes_setReg s x v).trans ⟨updated.regs, fun b => by rw [updated.mem]⟩
    cases u <;> exact frame

end Sys2Proof.Machine

/-!
PROOFS. The call stack and `push`, and accesses that fail (43_two_operand.md R189, 44_one_operand.md R203, R204,
45_zero_operand.md R221, R224, 60_exceptions.md R255).
-/

namespace Sys2Proof.Machine

/-! ### `push` -/

/-- A register write touches no memory and no parameter. -/
theorem writeReg_keeps {x : Reg} {v : Word} {s t : State} (h : writeReg x v s = .ok t) :
    t.mem = s.mem ∧ t.cfg = s.cfg := by
  obtain ⟨-, rfl⟩ | ⟨-, -, rfl⟩ | ⟨-, n, rfl, -⟩ := writeReg_ok h
  · exact ⟨setReg_mem .., setReg_cfg ..⟩
  · exact ⟨setPc_mem .., setPc_cfg ..⟩
  · exact ⟨setSr_mem .., setSr_cfg ..⟩

/-- Only registers 14 and 15 have a write rule of their own (10_state.md R21). -/
theorem Reg.plain_of_ne {x : Reg} (hsr : x ≠ .sr) (hpc : x ≠ .pc) : x.plain = true := by
  cases x
  case sr => exact absurd rfl hsr
  case pc => exact absurd rfl hpc
  all_goals rfl

/-- A number but 14 takes any value that 15 would not refuse. -/
theorem writeReg_of_ne_sr {x : Reg} {v : Word} (s : State) (other : x ≠ .sr) (aligned : misaligned4 v = false) :
    writeReg x v s = .ok (s.setReg x v) := by
  by_cases hx : x = .pc
  · subst hx
    exact writePc_aligned s aligned
  · exact writeReg_plain s v (Reg.plain_of_ne other hx)

/-- A push whose access is accepted writes the pointer, then the word (43_two_operand.md R189). -/
theorem pushEffect_accepted {s s1 : State} {x : Reg} (y : Reg) (aligned : misaligned4 (s.reg x - 4) = false)
    (accepted : accessOk s.cfg .write .word (s.reg x - 4) = true) (write : writeReg x (s.reg x - 4) s = .ok s1) :
    pushEffect x y s = .ok (s1.store .word (s.reg x - 4) (s1.reg y)) := by
  have accepted' : accessOk s1.cfg .write .word (s.reg x - 4) = true := by rwa [(writeReg_keeps write).2]
  simp only [pushEffect, checkAccess_ok (w := .word) aligned accepted, write]
  exact memWrite_ok _ aligned accepted'

theorem pushEffect_traps {s : State} {x : Reg} {t : Trap} (y : Reg) (aligned : misaligned4 (s.reg x - 4) = false)
    (accepted : accessOk s.cfg .write .word (s.reg x - 4) = true) (write : writeReg x (s.reg x - 4) s = .error t) :
    pushEffect x y s = .error t := by
  simp only [pushEffect, checkAccess_ok (w := .word) aligned accepted, write]

theorem pushEffect_denied {s : State} {x : Reg} {t : Trap} (y : Reg)
    (denied : checkAccess s .write .word (s.reg x - 4) = .error t) : pushEffect x y s = .error t := by
  simp only [pushEffect, denied]

theorem exec_push {s : State} {c : Cond} (hc : s.Runs c) (x y : Reg) :
    exec (.pushXY c x y) s = complete s (pushEffect x y s) := conditionally_runs hc _

/-- Settles O42. -/
theorem pushCompletes : Obligations.PushCompletes := by
  intro s c x y hc canonical other aligned accepted
  refine ⟨(s.setReg x (s.reg x - 4)).store .word (s.reg x - 4) ((s.setReg x (s.reg x - 4)).reg y), ?_, ?_, ?_,
    fun b hb => ?_, ?_⟩
  · rw [exec_push hc, pushEffect_accepted y aligned accepted (writeReg_of_ne_sr s other aligned)]
    exact complete_same ((store_flagP ..).trans (setReg_flagP other))
  · rw [reg_store, reg_setReg_same s x _ other]
  · rw [State.wordAt, store_mem, store_cfg, wordAt_putValue (by rw [setReg_mem]; exact canonical)]
    split_ifs with same
    · rw [same, reg_setReg_same s x _ other]
    · exact reg_setReg_ne s x y _ same
  · rw [keepsMem_store _ _ _ _ b hb, setReg_mem]
  · exact (changes_setReg s x _).1.trans (keepsRegs_store ..)

/-! ### Loads, stores and `push` with any register -/

/-- Settles O41: the writes of each form, by the shared load, store and push. -/
theorem memoryFormsOnAnyRegister : Obligations.MemoryFormsOnAnyRegister := by
  refine ⟨fun i s c w u x y off row hc aligned accepted => ?_,
    fun i s c w e u x y off v row hc aligned accepted loaded => ⟨fun t write => ?_, fun s1 write => ?_⟩,
    fun s c x y hc aligned accepted => ⟨fun t write => ?_, fun s1 write => ?_⟩⟩
  · rw [exec_store row hc, storeEffect_accepted u y aligned accepted, updateBase_eq_writeAll, reg_store]
    exact complete_endsAs s _
  · rw [(loadedFrom_iff ..).1 loaded] at write
    rw [exec_load row hc, loadEffect_traps u aligned accepted write, complete_error]
  · rw [(loadedFrom_iff ..).1 loaded] at write
    rw [exec_load row hc, loadEffect_accepted u aligned accepted write, updateBase_eq_writeAll]
    exact complete_endsAs s _
  · rw [exec_push hc, pushEffect_traps y aligned accepted write, complete_error]
  · obtain ⟨mem, cfg⟩ := writeReg_keeps write
    have stored (a v : Word) :
        s1.store .word a v = { s1 with mem := putValue s.cfg.byteOrder s.mem a v .word } := by
      rw [← mem, ← cfg]
      rfl
    rw [exec_push hc, pushEffect_accepted y aligned accepted write, stored]
    exact complete_endsAs s _

/-! ### Calls -/

theorem exec_call {s : State} {c : Cond} (hc : s.Runs c) (n : Half) :
    exec (.callN c n) s = complete s (callEffect (absoluteTo s n) s) :=
  absTarget_eq n s ▸ conditionally_runs hc _

theorem exec_callr {s : State} {c : Cond} (hc : s.Runs c) (n : Half) :
    exec (.callrN c n) s = complete s (callEffect (relativeTo s n) s) :=
  relTarget_eq n s ▸ conditionally_runs hc _

/-- Memory after the two pushes of a call. -/
theorem callPushed_mem (s : State) :
    (callPushed s).mem =
      putValue s.cfg.byteOrder (putValue s.cfg.byteOrder s.mem (s.isp - 4) s.pc .word) (s.isp - 8) s.dsp .word := rfl

/-- The pushed words read back, and no byte outside the 8 changes. -/
theorem callPushed_words {s : State} (canonical : s.memCanonical) :
    valueAt s.cfg.byteOrder (callPushed s).mem (s.isp - 4) .word = s.pc ∧
      valueAt s.cfg.byteOrder (callPushed s).mem (s.isp - 8) .word = s.dsp := by
  rw [callPushed_mem]
  refine ⟨?_, wordAt_putValue (putValue_wf canonical _ _ _ _) _ _ _⟩
  rw [wordAt_putValue_ne _ _ _ _ (by bv_omega) (by bv_omega), wordAt_putValue canonical]

theorem callPushed_outside (s : State) : KeepsMemOutside (s.isp - 8) 8 s (callPushed s) := by
  intro b hb
  rw [callPushed_mem, byteAt_putValue_outside, byteAt_putValue_outside]
  · show 4 ≤ b - (s.isp - 4)
    bv_omega
  · show 4 ≤ b - (s.isp - 8)
    bv_omega

theorem callPushed_regs (s : State) : KeepsRegs [.isp] s (callPushed s) :=
  ((changes_setIsp s _).1.trans ((keepsRegs_store _ _ _ _).trans
    ((changes_setIsp _ _).1.trans (keepsRegs_store _ _ _ _)))).mono (by simp)

theorem callPushed_isp (s : State) : (callPushed s).isp = s.isp - 8 := rfl

theorem callPushed_sr (s : State) : (callPushed s).sr = s.sr := rfl

theorem flagP_of_sr {s t : State} (h : t.sr = s.sr) : t.flagP = s.flagP := by
  rw [State.flagP, h, State.flagP]

/-- What a call that completes leaves (44_one_operand.md R203, R204). -/
structure Called (a : Word) (s t : State) : Prop where
  pc : t.pc = a
  isp : t.isp = s.isp - 8
  returnWord : t.wordAt (s.isp - 4) = s.pc
  dspWord : t.wordAt (s.isp - 8) = s.dsp
  mem : KeepsMemOutside (s.isp - 8) 8 s t
  regs : KeepsRegs [.isp, .pc] s t

theorem called_callPushed {s : State} (canonical : s.memCanonical) (a : Word) :
    Called a s ((callPushed s).setPc a) := by
  have cfg : ((callPushed s).setPc a).cfg = s.cfg := (setPc_cfg _ _).trans (callPushed_regs s).cfg
  obtain ⟨returnWord, dspWord⟩ := callPushed_words canonical
  refine ⟨setPc_pc _ _, (setPc_isp _ _).trans (callPushed_isp s), ?_, ?_, fun b hb => ?_,
    (callPushed_regs s).trans (changes_setPc _ a).1⟩
  · rw [State.wordAt, cfg, setPc_mem, returnWord]
  · rw [State.wordAt, cfg, setPc_mem, dspWord]
  · rw [setPc_mem, callPushed_outside s b hb]

/-- A call with an aligned target whose pushes are accepted completes. -/
theorem call_completes {s : State} {a : Word} (target : misaligned4 a = false) (aligned : misaligned4 s.isp = false)
    (first : accessOk s.cfg .write .word (s.isp - 4) = true)
    (second : accessOk s.cfg .write .word (s.isp - 8) = true) :
    complete s (callEffect a s) = .next ((callPushed s).setPc a) := by
  rw [callEffect_accepted a aligned first second, writePc_aligned _ target]
  exact complete_same ((setPc_flagP _ _).trans (flagP_of_sr (callPushed_sr s)))

/-- Settles O44. -/
theorem callsPushAndJump : Obligations.CallsPushAndJump := by
  intro s c n hc pcAligned canonical aligned first second
  have calls {i : Instr} {a : Word} (run : exec i s = complete s (callEffect a s)) (target : misaligned4 a = false) :
      ∃ t, exec i s = .next t ∧ t.pc = a ∧ t.isp = s.isp - 8 ∧ t.wordAt (s.isp - 4) = s.pc ∧
        t.wordAt (s.isp - 8) = s.dsp ∧ KeepsMemOutside (s.isp - 8) 8 s t ∧ KeepsRegs [.isp, .pc] s t := by
    obtain ⟨pc, isp, returnWord, dspWord, mem, regs⟩ := called_callPushed canonical a
    exact ⟨_, run.trans (call_completes target aligned first second), pc, isp, returnWord, dspWord, mem, regs⟩
  exact ⟨calls (exec_call hc n) (absoluteTo_aligned s n), calls (exec_callr hc n) (relativeTo_aligned pcAligned n)⟩

/-- A call on a misaligned stack. -/
theorem callEffect_misaligned {s : State} (a : Word) (h : misaligned4 s.isp = true) :
    callEffect a s = .error .alignment := by
  have push : push32 s.pc s = .error .alignment := memWrite_misaligned _ ((misaligned4_sub4 s.isp).trans h)
  simp only [callEffect, push]

/-- A call one of whose pushes the platform fails. -/
theorem callEffect_denied {s : State} (a : Word) (aligned : misaligned4 s.isp = false)
    (denied : accessOk s.cfg .write .word (s.isp - 4) = false ∨ accessOk s.cfg .write .word (s.isp - 8) = false) :
    callEffect a s = .error .access := by
  have aligned4 : misaligned4 (s.isp - 4) = false := (misaligned4_sub4 s.isp).trans aligned
  cases first : accessOk s.cfg .write .word (s.isp - 4) with
  | false =>
    have push : push32 s.pc s = .error .access := memWrite_denied (w := .word) _ aligned4 first
    simp only [callEffect, push]
  | true =>
    have second : accessOk s.cfg .write .word (s.isp - 4 - 4) = false := by
      rw [sub4_sub4]
      exact denied.resolve_left (by rw [first]; decide)
    have push : push32 s.dsp ((s.setIsp (s.isp - 4)).store .word (s.isp - 4) s.pc) = .error .access :=
      memWrite_denied (w := .word) _ ((misaligned4_sub4 _).trans aligned4) second
    simp only [callEffect, push32_ok s.pc aligned4 first, push]

/-! ### Returns -/

theorem exec_ret {s : State} {c : Cond} (hc : s.Runs c) : exec (.ret c) s = complete s (returnEffect s) :=
  conditionally_runs hc _

theorem exec_rfi {s : State} {c : Cond} (hc : s.Runs c) (system : s.flagP = false) :
    exec (.rfi c) s = complete s (returnFromEntry s) :=
  (conditionally_runs hc _).trans (systemOnly_system system _ _)

/-- Settles O49. -/
theorem retPops : Obligations.RetPops := by
  intro s c hc aligned first second
  rw [exec_ret hc, returnEffect_accepted aligned first second]
  refine ⟨fun target => ?_, fun target => ?_⟩
  · rw [writePc_aligned _ target]
    have mode : (((s.setDsp (s.wordAt s.isp)).setIsp (s.isp + 8)).setPc (s.wordAt (s.isp + 4))).flagP = s.flagP :=
      flagP_of_sr (by rw [setPc_sr, setIsp_sr, setDsp_sr])
    exact ⟨_, complete_same mode, rfl, rfl, rfl,
      ((changes_setDsp s _).trans (changes_setIsp _ _)).trans (changes_setPc _ _)⟩
  · rw [writePc_misaligned _ target, complete_error]

theorem returnEffect_misaligned {s : State} (h : misaligned4 s.isp = true) :
    returnEffect s = .error .alignment := by
  simp only [returnEffect, memRead_misaligned (w := .word) h]

theorem returnFromEntry_misaligned {s : State} (h : misaligned4 s.isp = true) :
    returnFromEntry s = .error .alignment := by
  simp only [returnFromEntry, memRead_misaligned (w := .word) h]

section Denied

variable {s : State} (aligned : misaligned4 s.isp = false)
  (denied : accessOk s.cfg .read .word s.isp = false ∨ accessOk s.cfg .read .word (s.isp + 4) = false)
include aligned denied

/-- One of the two reads of a return is failed by the platform. -/
theorem reads_denied :
    memRead s .read .word s.isp = .error .access ∨
      memRead s .read .word s.isp = .ok (s.wordAt s.isp) ∧ memRead s .read .word (s.isp + 4) = .error .access := by
  cases first : accessOk s.cfg .read .word s.isp with
  | false => exact .inl (memRead_denied (w := .word) aligned first)
  | true =>
    have second := denied.resolve_left (by rw [first]; decide)
    exact .inr ⟨memRead_ok (w := .word) aligned first,
      memRead_denied (w := .word) ((misaligned4_add4 s.isp).trans aligned) second⟩

theorem returnEffect_denied : returnEffect s = .error .access := by
  obtain first | ⟨first, second⟩ := reads_denied aligned denied
  · simp only [returnEffect, first]
  · simp only [returnEffect, first, second]

theorem returnFromEntry_denied : returnFromEntry s = .error .access := by
  obtain first | ⟨first, second⟩ := reads_denied aligned denied
  · simp only [returnFromEntry, first]
  · simp only [returnFromEntry, first, second]

end Denied

/-- Settles O40: each effect answers the trap of its failing access. -/
theorem failedAccessTraps : Obligations.FailedAccessTraps := by
  refine ⟨fun i s c w u x y off row hc => ?_, fun i s c w e u x y off row hc => ?_, fun s c x y hc => ?_,
    fun s c n hc => ?_⟩
  · rw [exec_store row hc]
    exact ⟨fun h => by simp only [storeEffect, memWrite_misaligned _ h, complete_error],
      fun h denied => by simp only [storeEffect, memWrite_denied _ h denied, complete_error]⟩
  · rw [exec_load row hc]
    exact ⟨fun h => by simp only [loadEffect, memRead_misaligned h, complete_error],
      fun h denied => by simp only [loadEffect, memRead_denied h denied, complete_error]⟩
  · rw [exec_push hc]
    exact ⟨fun h => by rw [pushEffect_denied y (checkAccess_misaligned (w := .word) h), complete_error],
      fun h denied => by rw [pushEffect_denied y (checkAccess_denied (w := .word) h denied), complete_error]⟩
  · rw [exec_call hc, exec_callr hc, exec_ret hc]
    refine ⟨fun h => ?_, fun h denied => ?_, fun h denied => ?_⟩
    · rw [callEffect_misaligned _ h, callEffect_misaligned _ h, returnEffect_misaligned h]
      exact ⟨rfl, rfl, rfl⟩
    · rw [callEffect_denied _ h denied, callEffect_denied _ h denied]
      exact ⟨rfl, rfl⟩
    · rw [returnEffect_denied h denied, complete_error]

end Sys2Proof.Machine

/-!
PROOFS. `rfi`, and the pairs of an entry or a call with its return (45_zero_operand.md R221, R224, 60_exceptions.md
sections 3 and 4).
-/

namespace Sys2Proof.Machine

/-! ### `rfi` -/

/-- The registers after the pops of `rfi`: `isp`, `sr` and `pc` (45_zero_operand.md R224). -/
def rfiPopped (s : State) : State :=
  ((s.setIsp (s.isp + 8)).setSr (lowHalf (s.wordAt s.isp) &&& srMask)).setPc (s.wordAt (s.isp + 4))

theorem rfiPopped_sr (s : State) : (rfiPopped s).sr = (s.wordAt s.isp).setWidth 16 &&& 0x1FC3 := by
  rw [rfiPopped, setPc_sr, setSr_sr, lowHalf_eq_setWidth]
  rfl

theorem rfiPopped_changes (s : State) : Changes [.isp, .sr, .pc] s (rfiPopped s) :=
  ((changes_setIsp s _).trans (changes_setSr _ _)).trans (changes_setPc _ _)

theorem rfiPopped_flagP (s : State) : (rfiPopped s).flagP = (s.wordAt s.isp).getLsbD 9 :=
  (setPc_flagP _ _).trans (flagP_written _ _)

section Accepted

variable {s : State} {c : Cond} (hc : s.Runs c) (system : s.flagP = false) (aligned : misaligned4 s.isp = false)
  (first : accessOk s.cfg .read .word s.isp = true) (second : accessOk s.cfg .read .word (s.isp + 4) = true)
include hc system aligned first second

/-- With accepted reads and an aligned popped `pc`, `rfi` ends with its pops made. -/
theorem rfi_endsAs (target : misaligned4 (s.wordAt (s.isp + 4)) = false) :
    EndsAs s (.ok (rfiPopped s)) (exec (.rfi c) s) := by
  rw [exec_rfi hc system, returnFromEntry_accepted aligned first second, writePc_aligned _ target]
  exact complete_endsAs s _

/-- A popped `sr` with `P` = 0 returns in system mode. -/
theorem rfi_stays (target : misaligned4 (s.wordAt (s.isp + 4)) = false)
    (stays : (s.wordAt s.isp).getLsbD 9 = false) : exec (.rfi c) s = .next (rfiPopped s) :=
  (rfi_endsAs hc system aligned first second target).stays _ rfl (.inr ((rfiPopped_flagP s).trans stays))

/-- A popped `sr` with `P` = 1 switches the mode after the pops. -/
theorem rfi_switches (target : misaligned4 (s.wordAt (s.isp + 4)) = false)
    (switches : (s.wordAt s.isp).getLsbD 9 = true) (spc : misaligned4 s.spc = false) :
    ∃ t, exec (.rfi c) s = .next t ∧ Switched ((s.wordAt s.isp).setWidth 16 &&& 0x1FC3)
      ((s.setIsp (s.isp + 8)).setPc (s.wordAt (s.isp + 4))) t := by
  have spc' : misaligned4 (rfiPopped s).spc = false := by rw [(rfiPopped_changes s).1.spc, spc]
  obtain ⟨t, run, switched⟩ := (rfi_endsAs hc system aligned first second target).switches _ rfl system
    ((rfiPopped_flagP s).trans switches) spc'
  rw [rfiPopped_sr] at switched
  exact ⟨t, run, switched.of_setSr (n := lowHalf (s.wordAt s.isp) &&& srMask)⟩

end Accepted

/-- Settles O52, by the accesses, then by the popped words. -/
theorem rfiPops : Obligations.RfiPops := by
  intro s c hc system
  refine ⟨fun h => ?_, fun h denied => ?_, fun aligned first second => ⟨fun target => ?_, fun target stays => ?_,
    fun target switches spc => rfi_switches hc system aligned first second target switches spc,
    fun target switches spc => ?_⟩⟩
  · rw [exec_rfi hc system, returnFromEntry_misaligned h, complete_error]
  · rw [exec_rfi hc system, returnFromEntry_denied h denied, complete_error]
  · rw [exec_rfi hc system, returnFromEntry_accepted aligned first second, writePc_misaligned _ target, complete_error]
  · exact ⟨_, rfi_stays hc system aligned first second target stays, rfiPopped_sr s, rfl, rfl,
      (rfiPopped_changes s).mono (by simp)⟩
  · have spc' : misaligned4 (rfiPopped s).spc = true := by rw [(rfiPopped_changes s).1.spc, spc]
    exact (rfi_endsAs hc system aligned first second target).refused _ rfl system
      ((rfiPopped_flagP s).trans switches) spc'

/-! ### An entry and its return -/

theorem misaligned4_sub8 (a : Word) : misaligned4 (a - 8) = misaligned4 a := by
  rw [← sub4_sub4, misaligned4_sub4, misaligned4_sub4]

theorem sub8_add4 (a : Word) : a - 8 + 4 = a - 4 := by bv_omega

/-- Settles O16: the frame of the entry holds the interrupted program's `pc` and `sr`, which `rfi` pops. -/
theorem interruptThenRfiResumes : Obligations.InterruptThenRfiResumes := by
  intro k s t u c inv system entry hisp hsr hpc system' hc first second
  obtain ⟨ready, rfl⟩ := enter_eq_next entry
  have entered := entryDone_entryTo inv.memCanonical k srF srI
  have base : entryIsp s = s.isp := by rw [entryIsp, system]; rfl
  have word : entryWord srF s = (s.sr &&& 0xEFFF).setWidth 32 := by
    rw [entryWord, entrySr, system, Bool.and_false]
    rfl
  have pc : entryPc s = s.pc := by rw [entryPc, system]; rfl
  have isp := entered.isp
  rw [base] at isp
  have poppedSr : u.wordAt u.isp = (s.sr &&& 0xEFFF).setWidth 32 := by
    rw [hsr, isp, ← base, entered.frameSr, word]
  have poppedPc : u.wordAt (u.isp + 4) = s.pc := by
    rw [hpc, isp, sub8_add4, ← base, entered.framePc, pc]
  have aligned : misaligned4 u.isp = false := by
    rw [hisp, isp, misaligned4_sub8, ← base]
    exact ready.pushable.1
  have target : misaligned4 (u.wordAt (u.isp + 4)) = false := by
    rw [poppedPc]
    exact inv.pcAligned
  have stays : (u.wordAt u.isp).getLsbD 9 = false := by
    have clear : s.sr.getLsbD 9 = false := system
    rw [poppedSr, BitVec.getLsbD_setWidth, BitVec.getLsbD_and, clear, Bool.false_and, Bool.and_false]
  refine ⟨_, rfi_stays hc system' aligned first second target stays, poppedPc, ?_, ?_,
    (rfiPopped_changes u).mono (by simp)⟩
  · show u.isp + 8 = s.isp
    rw [hisp, isp, BitVec.sub_add_cancel]
  · rw [rfiPopped_sr, poppedSr, BitVec.setWidth_setWidth_of_le _ (by decide), BitVec.setWidth_eq]
    have masks : (0xEFFF : Half) &&& 0x1FC3 = srMask &&& 0xEFFF := rfl
    show s.sr &&& 0xEFFF &&& 0x1FC3 = s.sr &&& 0xEFFF
    rw [BitVec.and_assoc, masks, ← BitVec.and_assoc, and_srMask_of_legal inv.srLegal]

/-! ### A call and its return -/

/-- A trap taken leaves the record of it (60_exceptions.md R250, R251). -/
theorem trapEntry_entered {k : Trap} {s t : State} (h : trapEntry k s = .next t) : t.entered = true := by
  obtain ⟨-, -, rfl⟩ | ⟨-, -, rfl⟩ := trapEntry_eq_next h <;> rfl

/-- A call's effect that is no trap had its pushes accepted. -/
theorem callEffect_eq_ok {a : Word} {s t : State} (h : callEffect a s = .ok t) :
    misaligned4 s.isp = false ∧ t = (callPushed s).setPc a := by
  cases aligned : misaligned4 s.isp with
  | true => rw [callEffect_misaligned a aligned] at h; cases h
  | false =>
    by_cases accepted : accessOk s.cfg .write .word (s.isp - 4) = true ∧ accessOk s.cfg .write .word (s.isp - 8) = true
    · rw [callEffect_accepted a aligned accepted.1 accepted.2] at h
      exact ⟨rfl, (writePc_ok h).2⟩
    · rw [not_and_or, Bool.not_eq_true, Bool.not_eq_true] at accepted
      rw [callEffect_denied a aligned accepted] at h
      cases h

/-- A call that completes without a trap is `Called`. -/
theorem called_of_next {a : Word} {s t : State} (canonical : s.memCanonical)
    (h : complete s (callEffect a s) = .next t) (entered : t.entered = false) :
    misaligned4 s.isp = false ∧ Called a s t := by
  cases effect : callEffect a s with
  | error k =>
    rw [effect, complete_error] at h
    exact absurd ((trapEntry_entered h).symm.trans entered) (by decide)
  | ok r =>
    obtain ⟨aligned, rfl⟩ := callEffect_eq_ok effect
    rw [effect, complete_same ((setPc_flagP _ _).trans (flagP_of_sr (callPushed_sr s)))] at h
    cases h
    exact ⟨aligned, called_callPushed canonical a⟩

/-- Settles O17: `ret` pops the two words that the call pushed. -/
theorem callThenRetReturns : Obligations.CallThenRetReturns := by
  intro n s t u c d inv hc call entered hisp hdsp hpc hd first second
  obtain ⟨a, aligned, called⟩ : ∃ a, misaligned4 s.isp = false ∧ Called a s t := by
    obtain call | call := call
    · exact ⟨_, called_of_next inv.memCanonical (exec_call hc n ▸ call) entered⟩
    · exact ⟨_, called_of_next inv.memCanonical (exec_callr hc n ▸ call) entered⟩
  have poppedDsp : u.wordAt u.isp = s.dsp := by rw [hdsp, called.isp, called.dspWord]
  have poppedPc : u.wordAt (u.isp + 4) = s.pc := by rw [hpc, called.isp, sub8_add4, called.returnWord]
  have aligned' : misaligned4 u.isp = false := by rw [hisp, called.isp, misaligned4_sub8, aligned]
  obtain ⟨v, run, dsp, pc, isp, frame⟩ :=
    (retPops u d hd aligned' first second).1 (by rw [poppedPc]; exact inv.pcAligned)
  exact ⟨v, run, pc.trans poppedPc, dsp.trans poppedDsp, by rw [isp, hisp, called.isp, BitVec.sub_add_cancel], frame⟩

end Sys2Proof.Machine
